-- ==== Sys2Proof/Word.lean ====
section
/-! DEFINITION. The word types of the block (R8, R58): bytes, bus words, cycle counts, interrupt levels, and the index
types of the interrupt sources and DMA channels. -/

namespace Sys2Proof

/-- One byte of the bus, or of a record (R75). -/
abbrev Byte := BitVec 8

/-- `Word` of R58: register values, bus addresses, counts and increments; arithmetic is modulo 2^32 (R46). -/
abbrev Word := BitVec 32

/-- `Cycles` of R58: 64-bit cycle counts, added modulo 2^64 (R90). -/
abbrev Cycles := BitVec 64

/-- The 64-bit storage of the DSP's ALU, AC and P (R161). -/
abbrev DWord := BitVec 64

/-- `Level` of R58 and R61: 0 to 15, larger is more urgent. -/
abbrev Level := BitVec 4

/-- `SourceIndex` of R61: 0 to 31, the bit number in the status and mask registers. -/
abbrev SourceIndex := Fin 32

/-- `Channel` of R64: 0, 1, 2. -/
abbrev Channel := Fin 3

end Sys2Proof
end

