-- ==== Sys2Proof/Machine/Parts.lean ====
section
/-! DEFINITION. The pieces State is built of, and the enumerations of the spec: signals and triggers (R62, R63), scheduler
slots (R14), the interrupt registers (R16 to R18), DMA channels (R22 to R24), the DSP (R27, R161) and its decoded
instructions (R164), the register names (R68 to R70), the save-state image (R36). They stand before the instruction type
because LoadState carries an image. -/

namespace Sys2Proof

/-! ## Signals, triggers, reset kinds (R62 to R64) -/

/-- `Signal` of R63: the peripheral events submitted to the block. -/
inductive Signal where
  | vBlankIN
  | vBlankOUT
  | hBlankIN
  | timer0
  | timer1
  | soundRequest
  | systemManager
  | cdBlock
  | aBus
  | external (n : Fin 16)
  deriving DecidableEq, Repr, Inhabited

/-- The place of a signal in a table that has one row per signal (`SignalTable`, R7). -/
def Signal.row : Signal → Fin 25
  | .vBlankIN => 0
  | .vBlankOUT => 1
  | .hBlankIN => 2
  | .timer0 => 3
  | .timer1 => 4
  | .soundRequest => 5
  | .systemManager => 6
  | .cdBlock => 7
  | .aBus => 8
  | .external n => ⟨9 + n.val, by omega⟩

/-- `TriggerSource` of R62. `spriteDrawEnd` is start factor 6 of R68, "a trigger no signal matches"; it has no record
number. -/
inductive TriggerSource where
  | software
  | onSignal (sig : Signal)
  | spriteDrawEnd
  deriving DecidableEq, Repr, Inhabited

/-- `ResetKind` of R64. -/
inductive ResetKind where
  | hard
  | soft
  deriving DecidableEq, Repr, Inhabited

/-- An interrupt source and the level it is raised at: a row of `SignalTable` or `DmaEndTable`, `DspEnd` (R7), an entry of
the audio queue (R31). -/
structure SourceLevel where
  source : SourceIndex
  level : Level
  deriving DecidableEq, Repr, Inhabited

/-! ## Scheduler (R13, R14) -/

/-- One slot of the event table (R14). -/
structure EventSlot where
  id : Nat
  target : Cycles
  countNumerator : Cycles
  countDenominator : Cycles
  live : Bool
  periodic : Bool
  remainder : Cycles
  deriving DecidableEq, Repr, Inhabited

/-- The slot's reset values (R34). -/
def EventSlot.reset (id : Nat) : EventSlot :=
  { id := id, target := 0, countNumerator := 0, countDenominator := 1, live := false, periodic := false, remainder := 0 }

/-- The scheduler: the cycle counter (R13) and the event table (R14); `NUM_EVENTS` is the table's length. -/
structure Sched where
  currCycle : Cycles
  ev : List EventSlot
  deriving DecidableEq, Repr, Inhabited

/-! ## Interrupt controller (R16 to R18) -/

/-- The interrupt registers and the recorded level of each source. -/
structure Intr where
  status : Word
  mask : Word
  level : Vector Level 32
  deriving DecidableEq, Repr, Inhabited

/-- R34: nothing pending, nothing masked, every level 0. -/
def Intr.reset : Intr := { status := 0, mask := 0, level := Vector.replicate 32 0 }

/-! ## DMA channels (R22 to R24) -/

/-- One DMA channel: the configured fields (R22), the in-flight fields (R23), the latches (R24). -/
structure DmaChannel where
  srcAddr : Word
  dstAddr : Word
  xferCount : Word
  srcAddrInc : Word
  dstAddrInc : Word
  updateSrcAddr : Bool
  updateDstAddr : Bool
  enabled : Bool
  indirect : Bool
  trigger : TriggerSource
  active : Bool
  currSrcAddr : Word
  currDstAddr : Word
  currXferCount : Word
  currSrcAddrInc : Word
  currDstAddrInc : Word
  currIndirectSrc : Word
  endIndirect : Bool
  currIndirect : Bool
  currUpdateSrc : Bool
  currUpdateDst : Bool
  deriving DecidableEq, Repr, Inhabited

/-- R34: Disabled, every field 0 or false, `trigger = Software`. -/
def DmaChannel.reset : DmaChannel :=
  { srcAddr := 0, dstAddr := 0, xferCount := 0, srcAddrInc := 0, dstAddrInc := 0, updateSrcAddr := false,
    updateDstAddr := false, enabled := false, indirect := false, trigger := .software, active := false,
    currSrcAddr := 0, currDstAddr := 0, currXferCount := 0, currSrcAddrInc := 0, currDstAddrInc := 0,
    currIndirectSrc := 0, endIndirect := false, currIndirect := false, currUpdateSrc := false, currUpdateDst := false }

/-- The state names of R26, functions of the fields. Complete is no resting state. -/
inductive ChannelMode where
  | disabled
  | idle
  | active
  deriving DecidableEq, Repr

/-- R26: Active is `active = true`, Idle is enabled and not active, Disabled is neither. -/
def DmaChannel.mode (c : DmaChannel) : ChannelMode :=
  if c.active then .active else if c.enabled then .idle else .disabled

/-! ## DSP (R27, R161) -/

/-- The DSP side of a DSP DMA (R167): a data RAM bank or the program RAM. -/
inductive DspRam where
  | data (bank : Fin 4)
  | program
  deriving DecidableEq, Repr, Inhabited

/-- The SCU DSP's state (R161). `PC` and `CT` are naturals with the invariants `PC < 256` and `CT[b] < 64`, so that an
image that breaks them can be written down and rejected (R154). `windowAddr` and `dmaTarget`, the DSP side of the DMA, are
the model's own (log entries 16 and 14). -/
structure Dsp where
  programRAM : Vector Word 256
  dataRAM : Vector (Vector Word 64) 4
  PC : Nat
  nextPC : BitVec 8
  jmpCounter : Nat
  sign : Bool
  zero : Bool
  carry : Bool
  overflow : Bool
  CT : Vector Nat 4
  ALU : DWord
  AC : DWord
  P : DWord
  RX : Word
  RY : Word
  LOP : Nat
  TOP : BitVec 8
  dmaRun : Bool
  dmaToD0 : Bool
  dmaHold : Bool
  dmaCount : Word
  dmaSrc : Word
  dmaDst : Word
  dmaReadAddr : Word
  dmaWriteAddr : Word
  dmaAddrInc : Word
  dmaTarget : DspRam
  programExecuting : Bool
  programPaused : Bool
  programEnded : Bool
  programStep : Bool
  windowAddr : Word
  deriving DecidableEq, Repr, Inhabited

/-- R34, the hard-reset column. -/
def Dsp.reset : Dsp :=
  { programRAM := Vector.replicate 256 0, dataRAM := Vector.replicate 4 (Vector.replicate 64 0), PC := 0, nextPC := 0,
    jmpCounter := 0, sign := false, zero := false, carry := false, overflow := false, CT := Vector.replicate 4 0,
    ALU := 0, AC := 0, P := 0, RX := 0, RY := 0, LOP := 0, TOP := 0, dmaRun := false, dmaToD0 := false,
    dmaHold := false, dmaCount := 0, dmaSrc := 0, dmaDst := 0, dmaReadAddr := 0, dmaWriteAddr := 0, dmaAddrInc := 0,
    dmaTarget := .data 0, programExecuting := false, programPaused := false, programEnded := false, programStep := false,
    windowAddr := 0 }

/-- R34, the soft-reset column: RAMs and registers stay, execution stops, no jump is pending. -/
def Dsp.softReset (d : Dsp) : Dsp :=
  { d with nextPC := BitVec.ofNat 8 d.PC, jmpCounter := 0, dmaRun := false, dmaToD0 := false, dmaHold := false,
           programExecuting := false, programPaused := false, programEnded := false, programStep := false }

/-- The condition codes of R166 and R176. -/
inductive DspCond where
  | nz
  | ns
  | nzs
  | nc
  | nt0
  | z
  | s
  | zs
  | c
  | t0
  | none
  deriving DecidableEq, Repr, Inhabited

/-- The ALU operations of R165. The source does not list the members of the shift-rotate family: `form` numbers them. -/
inductive DspAluOp where
  | and
  | or
  | xor
  | add
  | sub
  | ad2
  | shiftRotate (form : Nat)
  deriving DecidableEq, Repr, Inhabited

/-- What a bus slot or a DMA count reads: the word a bank's cursor points at (`postInc`: the form that advances the cursor,
V32), a register, a prior ALU or product result (R165), or a source the document does not list (`other`). -/
inductive DspSource where
  | ram (bank : Fin 4) (postInc : Bool)
  | ct (bank : Fin 4)
  | rx
  | ry
  | lop
  | top
  | alu
  | ac
  | p
  | other (code : Nat)
  deriving DecidableEq, Repr, Inhabited

/-- What a bus slot or MVI writes. `other` is a destination the document does not list (log entry 11). -/
inductive DspDest where
  | ram (bank : Fin 4) (postInc : Bool)
  | ct (bank : Fin 4)
  | rx
  | ry
  | p
  | ac
  | lop
  | top
  | readAddr
  | writeAddr
  | other (code : Nat)
  deriving DecidableEq, Repr, Inhabited

/-- One micro-operation of the X, Y or D1 bus (R165): nothing, a move, the multiply `RX * RY -> P` (R175), or a form the
document does not give. -/
inductive DspSlot where
  | idle
  | move (src : DspSource) (dst : DspDest)
  | multiply
  | other (code : Nat)
  deriving DecidableEq, Repr, Inhabited

/-- Which of the three buses a slot belongs to (R165). -/
inductive DspBus where
  | x
  | y
  | d1
  deriving DecidableEq, Repr, Inhabited

/-- The count operand of a DSP DMA: "immediate or register" (opcode table). -/
inductive DspDmaCount where
  | immediate (n : Word)
  | register (src : DspSource)
  deriving DecidableEq, Repr, Inhabited

/-- `SCUDSPInstruction` (R164): the tagged union `DspDecode` answers with. -/
inductive DspInstr where
  | operation (alu : DspAluOp) (xbus ybus d1bus : DspSlot)
  | mvi (dest : DspDest) (imm : Word) (width : Nat) (cond : DspCond)
  | dma (toD0 : Bool) (hold : Bool) (count : DspDmaCount) (ram : DspRam) (addrInc : Word)
  | jmp (cond : DspCond) (target : BitVec 8)
  | lps
  | btm
  | programEnd
  | programEndi
  | invalid
  deriving DecidableEq, Repr, Inhabited

/-- What a DSP DMA loads into the four words of its sub-state that no operand gives (R167, log entry 14). -/
structure DspDmaLoad where
  src : Word
  dst : Word
  readAddr : Word
  writeAddr : Word
  deriving DecidableEq, Repr, Inhabited

/-- One elementary write to a DSP register or data RAM word. That a slot, MVI or LPS writes nothing else (not PC, nextPC,
program RAM or the DMA sub-state) is a DESIGN CHOICE for the destinations and forms the document does not list (log entries
11 and 15). -/
inductive DspWrite where
  | ram (bank : Fin 4) (index : Nat) (v : Word)
  | ct (bank : Fin 4) (v : Nat)
  | rx (v : Word)
  | ry (v : Word)
  | p (v : DWord)
  | ac (v : DWord)
  | lop (n : Nat)
  | top (v : BitVec 8)
  | readAddr (v : Word)
  | writeAddr (v : Word)
  deriving DecidableEq, Repr, Inhabited

/-- The four window registers of R70. -/
inductive DspWindow where
  | ppaf
  | ppd
  | pda
  | pdd
  deriving DecidableEq, Repr, Inhabited

/-- What an access to a window register does besides the RAM word of R70: each field is changed (`some`) or left alone. -/
structure DspWindowEffect where
  pc : Option (BitVec 8)
  executing : Option Bool
  paused : Option Bool
  ended : Option Bool
  step : Option Bool
  windowAddr : Option Word
  deriving DecidableEq, Repr, Inhabited

/-- Whether the access changes a run flag: starts, stops, pauses or single-steps the DSP (U8, log entry 29). -/
def DspWindowEffect.touchesRun (e : DspWindowEffect) : Bool :=
  e.executing.isSome || e.paused.isSome || e.ended.isSome || e.step.isSome

/-- Who performs a bus access: a DMA channel or the DSP's DMA (R42), or a bus master outside the block (R41, R66). -/
inductive Performer where
  | channel (ch : Channel)
  | dsp
  | otherMaster
  deriving DecidableEq, Repr

/-! ## Register names (R67 to R70) -/

/-- The registers of the surface. That the DMA configuration is split into these six registers for each channel is the default
`RegMap`'s (R68) and fixed here: DESIGN CHOICE, log entry 1. -/
inductive Reg where
  | readAddr (ch : Channel)
  | writeAddr (ch : Channel)
  | count (ch : Channel)
  | addressAdd (ch : Channel)
  | enable (ch : Channel)
  | mode (ch : Channel)
  | window (w : DspWindow)
  | ims
  | ist
  deriving DecidableEq, Repr, Inhabited

/-- The bit layouts of `RegMap` (R7, R68): where each field of `DnAD`, `DnMD` and `DnEN` stands, and what its codes mean. The
write-add code and the start factor are three bits from their lowest bit. One layout serves all three channels. DESIGN
CHOICE, log entry 1. -/
structure RegLayout where
  srcIncBit : Nat
  srcIncs : Vector Word 2
  dstIncLow : Nat
  dstIncs : Vector Word 8
  indirectBit : Nat
  updateSrcBit : Nat
  updateDstBit : Nat
  startFactorLow : Nat
  startFactors : Vector TriggerSource 8
  enableBit : Nat
  startBit : Nat
  deriving DecidableEq, Repr, Inhabited

/-! ## Save-state image (R36) -/

/-- The content of a save state: everything but `fault`, `traceLog` and the parameters (R36, D33). -/
structure Image where
  version : Nat
  sched : Sched
  intr : Intr
  dma : Vector DmaChannel 3
  dsp : Dsp
  audioQueue : List SourceLevel
  deriving DecidableEq, Repr, Inhabited

/-- A region of the bus: `size` bytes from `base`. -/
structure Region where
  base : Word
  size : Nat
  deriving DecidableEq, Repr, Inhabited

end Sys2Proof
end

