-- ==== Sys2Proof/Syntax.lean ====
section
/-! DEFINITION. The operations of the block: one constructor for each row of spec/opcode_table.json (R59, R72, R73). Event,
source and channel numbers are naturals, because a number out of range is a contract violation of the operation (R181). -/

namespace Sys2Proof

/-- The operations (R59), the pseudo-operations (R72) and the DSP variants (R73). -/
inductive Instr where
  -- Scheduler, 40_scheduler.md
  | schedule (id : Nat) (delayCycles : Cycles) (periodic : Bool)
  | setEventPeriod (id : Nat) (num den : Cycles)
  | cancel (id : Nat)
  | advanceTo (cycle : Cycles)
  -- Interrupt controller, 41_interrupt.md
  | raiseInterrupt (source : Nat) (level : Level)
  | acknowledgeInterrupt (source : Nat)
  | acknowledgeVector (vector : Byte)
  | getInterruptMask
  | setInterruptMask (value : Word)
  | getInterruptStatus
  | writeInterruptStatus (value : Word)
  | getPendingInterruptLevel
  | getPendingInterruptVector
  -- DMA engine, 42_dma.md
  | configure (ch : Nat) (src dst count srcInc dstInc : Word) (indirect : Bool) (trigger : TriggerSource)
  | setAddressUpdate (ch : Nat) (updateSrc updateDst : Bool)
  | setEnabled (ch : Nat) (enabled : Bool)
  | trigger (ch : Nat) (triggerSource : TriggerSource)
  | tick (ch : Nat)
  -- System, 43_system.md, 30_encoding.md, 44_dsp.md
  | signal (sig : Signal)
  | scuTick
  | reset (kind : ResetKind)
  | regRead (offset : Word)
  | regWrite (offset value : Word)
  | saveState
  | loadState (image : Image)
  | postAudioInterrupt (source : Nat) (level : Level)
  | drainAudioQueue
  | dspStep
  -- Pseudo-operations, R72
  | triggerVBlankIN
  | triggerVBlankOUT
  | triggerHBlankIN
  | cbTriggerExternalInterruptN (n : Fin 16)
  | softwareStart (ch : Nat)
  | getPendingInterrupt
  -- DSP variants, R73: one DSP step whose fetched word decodes to the variant
  | dspOperation (alu : DspAluOp) (xbus ybus d1bus : DspSlot)
  | dspMVI (dest : DspDest) (imm : Word) (width : Nat) (cond : DspCond)
  | dspDMA (toD0 : Bool) (hold : Bool) (count : DspDmaCount) (ram : DspRam) (addrInc : Word)
  | dspJMP (cond : DspCond) (target : BitVec 8)
  | dspLPS
  | dspBTM
  | dspEND
  | dspENDI
  | dspInvalid
  deriving DecidableEq, Repr, Inhabited

/-- The constructor that stands for a decoded DSP instruction (R164, R73). -/
def Instr.ofDsp : DspInstr → Instr
  | .operation alu x y d1 => .dspOperation alu x y d1
  | .mvi dest imm width cond => .dspMVI dest imm width cond
  | .dma toD0 hold count ram inc => .dspDMA toD0 hold count ram inc
  | .jmp cond target => .dspJMP cond target
  | .lps => .dspLPS
  | .btm => .dspBTM
  | .programEnd => .dspEND
  | .programEndi => .dspENDI
  | .invalid => .dspInvalid

end Sys2Proof
end

