-- ==== Sys2Proof/Config.lean ====
section
/-! DEFINITION. The implementation parameters of R7. What can be written as plain data is the record `Params`, held in State,
so that a statement about every state is about every value of it (log entry 1). What is a function the spec leaves open
(DspDecode, DspExec, values that are not stated) is an opaque constant: nothing can be proved of its value. -/

namespace Sys2Proof

/-! ## Handlers (R7, R86) -/

/-- A question a handler asks of its fired target and of the state it sees. -/
inductive HandlerTest where
  /-- The fired target is below `c`, read as a number. -/
  | firedBefore (c : Cycles)
  /-- Event `id` is live. -/
  | armed (id : Nat)
  /-- The source's status bit is set. -/
  | pending (source : SourceIndex)
  /-- The channel is Active. -/
  | channelActive (ch : Channel)
  deriving DecidableEq, Repr

/-- `Handler(e)` (R7, D10): which finite sequence of operations it performs, as a tree of questions. `other` is any function of
the state and the fired target besides: an opaque one (log entry 2). -/
inductive HandlerAction where
  | done
  | perform (op : Instr) (next : HandlerAction)
  | choose (test : HandlerTest) (yes no : HandlerAction)
  | other (code : Nat)
  deriving DecidableEq, Repr

/-! ## The record of parameters -/

/-- The parameters of R7 that are data; no operation changes them. `handlers` is `Handler`; an event without an entry has a
handler that performs nothing. `registered` is `Registered`; the tables are `VectorOf`, `SignalTable`, `DmaEndTable`,
`DspEnd`; `regMap` and `layout` are `RegMap`, `scuBase` is `SCU_BASE`; `devices` are the bus regions that do not behave as
plain memory (R41); `imageVersion` is the version of R154. -/
structure Params where
  registered : List Bool
  handlers : List HandlerAction
  vectorOf : Vector Byte 32
  signalTable : Vector SourceLevel 25
  dmaEndTable : Vector SourceLevel 3
  dspEnd : SourceLevel
  dmaUnitBytes : Nat
  dmaBatch : Nat
  regMap : List (Word × Reg)
  layout : RegLayout
  scuBase : Word
  scuWindowBytes : Nat
  devices : List Region
  tracer : Bool
  imageVersion : Nat
  deriving DecidableEq, Repr, Inhabited

/-- What R7 asks of the parameters: `VectorOf` injective, unit and batch at least 1, three distinct DMA-complete sources
(D23). -/
def Params.wf (p : Params) : Bool :=
  p.vectorOf.toList.Nodup && decide (1 ≤ p.dmaUnitBytes) && decide (1 ≤ p.dmaBatch) &&
    (p.dmaEndTable.toList.map SourceLevel.source).Nodup

/-- `VectorOf`'s default (G1): 0x40 + i below 16, 0x50 + (i - 16) from 16. PRESUMED: the spec's general knowledge. -/
def Params.defaultVectors : Vector Byte 32 :=
  #v[0x40, 0x41, 0x42, 0x43, 0x44, 0x45, 0x46, 0x47, 0x48, 0x49, 0x4A, 0x4B, 0x4C, 0x4D, 0x4E, 0x4F,
     0x50, 0x51, 0x52, 0x53, 0x54, 0x55, 0x56, 0x57, 0x58, 0x59, 0x5A, 0x5B, 0x5C, 0x5D, 0x5E, 0x5F]

/-- `SignalTable`'s default (G1), in the order of `Signal.row`. PRESUMED: the spec's general knowledge. -/
def Params.defaultSignals : Vector SourceLevel 25 :=
  #v[⟨0, 15⟩, ⟨1, 14⟩, ⟨2, 13⟩, ⟨3, 12⟩, ⟨4, 11⟩, ⟨6, 9⟩, ⟨7, 8⟩, ⟨16, 7⟩, ⟨17, 7⟩,
     ⟨16, 7⟩, ⟨17, 7⟩, ⟨18, 7⟩, ⟨19, 7⟩, ⟨20, 4⟩, ⟨21, 4⟩, ⟨22, 4⟩, ⟨23, 4⟩,
     ⟨24, 1⟩, ⟨25, 1⟩, ⟨26, 1⟩, ⟨27, 1⟩, ⟨28, 1⟩, ⟨29, 1⟩, ⟨30, 1⟩, ⟨31, 1⟩]

/-- The default `RegMap` of R69 and G3. PRESUMED: the spec's general knowledge. -/
def Params.defaultRegMap : List (Word × Reg) :=
  [(0x00, .readAddr 0), (0x04, .writeAddr 0), (0x08, .count 0), (0x0C, .addressAdd 0), (0x10, .enable 0), (0x14, .mode 0),
   (0x20, .readAddr 1), (0x24, .writeAddr 1), (0x28, .count 1), (0x2C, .addressAdd 1), (0x30, .enable 1), (0x34, .mode 1),
   (0x40, .readAddr 2), (0x44, .writeAddr 2), (0x48, .count 2), (0x4C, .addressAdd 2), (0x50, .enable 2), (0x54, .mode 2),
   (0x80, .window .ppaf), (0x84, .window .ppd), (0x88, .window .pda), (0x8C, .window .pdd), (0xA0, .ims), (0xA4, .ist)]

/-- The bit layouts of R68: read-add 8, write-add 2:0, indirect 24, read-update 16, write-update 8, start factor 2:0, enable 8,
start 0. PRESUMED: the spec's general knowledge. -/
def RegLayout.default : RegLayout :=
  { srcIncBit := 8
    srcIncs := #v[0, 4]
    dstIncLow := 0
    dstIncs := #v[0, 2, 4, 8, 16, 32, 64, 128]
    indirectBit := 24
    updateSrcBit := 16
    updateDstBit := 8
    startFactorLow := 0
    startFactors := #v[.onSignal .vBlankIN, .onSignal .vBlankOUT, .onSignal .hBlankIN, .onSignal .timer0, .onSignal .timer1,
      .onSignal .soundRequest, .spriteDrawEnd, .software]
    enableBit := 8
    startBit := 0 }

/-- The spec's defaults and suggested values (G1, G3, U10), four registered events as in the conventions of
95_test_vectors.md. `scuWindowBytes` is PRESUMED (the family's register area); see log entries 1 and 8. -/
def Params.default : Params :=
  { registered := [true, true, true, true]
    handlers := []
    vectorOf := Params.defaultVectors
    signalTable := Params.defaultSignals
    dmaEndTable := #v[⟨11, 5⟩, ⟨10, 6⟩, ⟨9, 6⟩]
    dspEnd := ⟨5, 10⟩
    dmaUnitBytes := 1
    dmaBatch := 1
    regMap := Params.defaultRegMap
    layout := RegLayout.default
    scuBase := 0x25FE0000
    scuWindowBytes := 0xD0
    devices := []
    tracer := true
    imageVersion := 1 }

/-- `DescLayout` (R65, D21): which of a descriptor's three words holds what, the end-marker's bit, and the distance to the
next descriptor. -/
structure DescLayout where
  countWord : Fin 3
  dstWord : Fin 3
  srcWord : Fin 3
  endBit : Nat
  stride : Word
  deriving DecidableEq, Repr

/-- The layout R65 decides. PRESUMED: the spec's general knowledge G4. -/
def Config.descLayout : DescLayout := { countWord := 0, dstWord := 1, srcWord := 2, endBit := 31, stride := 12 }

/-! ## Free values of the bus and the register surface -/

/-- The byte a device region answers a read with (R41): free, a fresh one at every read. -/
opaque Config.freeByte : Nat → Byte

/-- A word the spec does not state (U6; bits of a register read that hold no field): free, a fresh one at every read. -/
opaque Config.freeWord : Nat → Word

/-- The start-factor code read back for a trigger that has none in the layout: free (log entry 10). -/
opaque Config.triggerCode : TriggerSource → BitVec 3

/-- The read-add bit read back for a source increment that has none in the layout: free (log entry 10). -/
opaque Config.readAddBit : Word → Bool

/-- The write-add code read back for a destination increment the layout has no code for: free (log entry 10). -/
opaque Config.writeAddCode : Word → BitVec 3

/-! ## DspDecode and DspExec (R7, D35): free functions of the DSP's state -/

/-- `DspDecode : u32 -> SCUDSPInstruction` (R164): total, otherwise not in the source. -/
opaque Config.dspDecode : Word → DspInstr

/-- Which two 32-bit operands the ALU combines (R165 names the possible sources, not the choice): a free function of the
operation and the snapshot, the arguments of `DspExec.Alu(aluop, S)`. R165's prose speaks of X-bus and Y-bus operands; that they
do not depend on the instruction's X and Y slots otherwise is a DESIGN CHOICE, log entry 11. -/
opaque Config.dspAluOperands : DspAluOp → Dsp → Word × Word

/-- The upper half of the 64-bit ALU result: how the accumulator is widened is not in the source (R175). -/
opaque Config.dspAluHigh : DspAluOp → Dsp → Word

/-- The whole result of AD2 and of the shift-rotate family (R175: not given). -/
opaque Config.dspAluValue : DspAluOp → Dsp → DWord

/-- The sign flag after an ALU operation (R175: the equation is not given). -/
opaque Config.dspSign : DspAluOp → Dsp → Bool

/-- The zero flag after an ALU operation (R175: the equation is not given). -/
opaque Config.dspZero : DspAluOp → Dsp → Bool

/-- The carry flag after an ALU operation (R175: the equation is not given). -/
opaque Config.dspCarry : DspAluOp → Dsp → Bool

/-- What is left open of overflow (R175): see `Flags.lean`. -/
opaque Config.dspOverflow : DspAluOp → Dsp → Bool

/-- The word a source outside the document's list holds. -/
opaque Config.dspSourceValue : Nat → Dsp → Word

/-- The upper half of P or AC when a bus slot writes a 32-bit word to it (not in the source). -/
opaque Config.dspWiden : Word → Word

/-- Which 32 bits of ALU, AC or P a bus slot reads (R165 names prior results as sources, not their width on a bus). -/
opaque Config.dspNarrow : DWord → Word

/-- What a move from ALU, AC or P leaves in the 64 bits of P or AC (not in the source). -/
opaque Config.dspWideMove : DWord → DWord

/-- The width of LOP (R161: not in the source). -/
opaque Config.dspLopBits : Nat

/-- What a destination outside the document's list writes. -/
opaque Config.dspDestWrites : Nat → Word → Dsp → List DspWrite

/-- What a bus micro-operation outside the document's text writes. -/
opaque Config.dspSlotWrites : DspBus → Nat → Dsp → List DspWrite

/-- In which order the three buses' writes land when two write one destination (U9): one of the six orders. -/
opaque Config.dspSlotOrder : DspInstr → Dsp → Fin 6

/-- What LPS writes (R172: not in the source). -/
opaque Config.dspLpsWrites : Dsp → List DspWrite

/-- What a DSP DMA loads into dmaSrc, dmaDst, dmaReadAddr and dmaWriteAddr (R167 lists them among what it loads; no operand
gives them and their meanings are not in the source). -/
opaque Config.dspDmaLoad : DspInstr → Dsp → DspDmaLoad

/-- How many words a DSP DMA moves inside its own instruction (R167: not in the source). -/
opaque Config.dspDmaWordsAtOnce : Dsp → Nat

/-- How many words a running DSP DMA moves at a later step (R167: not in the source). -/
opaque Config.dspDmaWordsPerStep : Dsp → Nat

/-- Whether the program stalls in a step that began with a running DSP DMA, the step that moves its last words included; applied
to the DSP after the words moved (R167: not in the source; log entry 14). -/
opaque Config.dspDmaStalls : Dsp → Bool

/-- Which word of program RAM a DSP DMA moves (R167: not in the source). -/
opaque Config.dspDmaProgramIndex : Dsp → Fin 256

/-- What `programStep` does to `programPaused` after a step (R162: `DspExec`'s). -/
opaque Config.dspStepPauses : Dsp → Bool

/-- What `programStep` itself becomes after a step (R162: `DspExec`'s). -/
opaque Config.dspStepAgain : Dsp → Bool

/-- Which word of program RAM the window register PPD writes (R70: not in the source). -/
opaque Config.dspWindowProgramIndex : Dsp → Fin 256

/-- Which bank and word of data RAM the window register PDD writes (R70: not in the source). -/
opaque Config.dspWindowDataIndex : Dsp → Fin 4 × Fin 64

/-- What else a write to a window register does (R70: `DspExec`'s). -/
opaque Config.dspWindowWriteEffect : DspWindow → Word → Dsp → DspWindowEffect

/-- What a read of a window register returns (R70: `DspExec`'s). -/
opaque Config.dspWindowValue : DspWindow → Dsp → Word

/-- What a read of a window register changes (R70: `DspExec`'s). -/
opaque Config.dspWindowReadEffect : DspWindow → Dsp → DspWindowEffect

end Sys2Proof
end

