-- ==== Sys2Proof/Machine/Bytes.lean ====
section
/-! DEFINITION. Byte order: how a number is laid out in bytes and read back, most significant byte first. One place for
the records of R75 and for the bus words of R44. -/

namespace Sys2Proof

/-- The `n` low bytes of `v`, most significant byte first (R44, R75). -/
def beBytes : Nat → Nat → List Byte
  | 0, _ => []
  | n + 1, v => BitVec.ofNat 8 (v / 256 ^ n) :: beBytes n v

/-- The number whose bytes are `bs`, most significant byte first (R44, R75). -/
def beNat : List Byte → Nat
  | [] => 0
  | b :: bs => b.toNat * 256 ^ bs.length + beNat bs

/-- The four bytes of a bus word, at ascending addresses (R44). -/
def wordBytes (w : Word) : List Byte := beBytes 4 w.toNat

/-- The bus word assembled from four bytes at ascending addresses (R44). -/
def bytesWord (bs : List Byte) : Word := BitVec.ofNat 32 (beNat bs)

/-- `sext_n(v)` of R8 to 32 bits: the low `n` bits of `v`, sign-extended. -/
def signExtendFrom (n : Nat) (v : Word) : Word := (v.setWidth n).signExtend 32

/-- `sext_n(v)` of R8 to the 64-bit registers of the DSP. -/
def signExtendFrom64 (n : Nat) (v : Word) : DWord := (v.setWidth n).signExtend 64

end Sys2Proof
end

