-- ==== Sys2Proof/WellFormed.lean ====
section
/-! DEFINITION. Which operation terms are well formed (R58, R75): an event, source or channel number fits the one byte a
record gives it, a trigger has a record number (R62), an immediate of MVI is no wider than a word. A number in its byte but
out of its type's range is well formed: the operation answers it with a contract violation (R181). -/

namespace Sys2Proof

/-- A number that a one-byte operand carries (R75). -/
def byteSized (n : Nat) : Bool := decide (n < 256)

/-- A trigger that has a record number (R62). -/
def TriggerSource.hasNumber : TriggerSource → Bool
  | .software => true
  | .onSignal _ => true
  | .spriteDrawEnd => false

/-- Well-formedness of an operation. -/
def Instr.wf : Instr → Bool
  | .schedule id _ _ => byteSized id
  | .setEventPeriod id _ _ => byteSized id
  | .cancel id => byteSized id
  | .advanceTo _ => true
  | .raiseInterrupt source _ => byteSized source
  | .acknowledgeInterrupt source => byteSized source
  | .acknowledgeVector _ => true
  | .getInterruptMask => true
  | .setInterruptMask _ => true
  | .getInterruptStatus => true
  | .writeInterruptStatus _ => true
  | .getPendingInterruptLevel => true
  | .getPendingInterruptVector => true
  | .configure ch _ _ _ _ _ _ ts => byteSized ch && ts.hasNumber
  | .setAddressUpdate ch _ _ => byteSized ch
  | .setEnabled ch _ => byteSized ch
  | .trigger ch ts => byteSized ch && ts.hasNumber
  | .tick ch => byteSized ch
  | .signal _ => true
  | .scuTick => true
  | .reset _ => true
  | .regRead _ => true
  | .regWrite _ _ => true
  | .saveState => true
  | .loadState _ => true
  | .postAudioInterrupt source _ => byteSized source
  | .drainAudioQueue => true
  | .dspStep => true
  | .triggerVBlankIN => true
  | .triggerVBlankOUT => true
  | .triggerHBlankIN => true
  | .cbTriggerExternalInterruptN _ => true
  | .softwareStart ch => byteSized ch
  | .getPendingInterrupt => true
  | .dspOperation _ _ _ _ => true
  | .dspMVI _ _ width _ => decide (width ≤ 32)
  | .dspDMA _ _ _ _ _ => true
  | .dspJMP _ _ => true
  | .dspLPS => true
  | .dspBTM => true
  | .dspEND => true
  | .dspENDI => true
  | .dspInvalid => true

end Sys2Proof
end

