-- ==== Sys2Proof/Decode.lean ====
section
/-! DEFINITION. The record form of an operation (R57 to R64, R75): a total decoder from bytes, which rejects by name, and
after it the encoder, written from the same tables. -/

namespace Sys2Proof

/-- Why a byte sequence spells no operation. -/
inductive DecodeError where
  /-- The bytes end before the record does (R57: the header fixes the length). -/
  | truncated
  /-- A header byte that R59 does not list (R71: "a record with such an op is refused by the decoder"). -/
  | unknownOp (op : Byte)
  /-- The header of LoadState, whose operand has no byte form (R75). -/
  | imageHasNoByteForm
  /-- A bool operand that is neither 0 nor 1 (R58). -/
  | badBool (b : Byte)
  /-- A level operand above 15 (R58). -/
  | badLevel (b : Byte)
  /-- A trigger number R62 does not list (R71). -/
  | badTrigger (b : Byte)
  /-- A signal number R63 does not list (R71). -/
  | badSignal (b : Byte)
  /-- A reset kind R64 does not list (R71). -/
  | badResetKind (b : Byte)
  deriving DecidableEq, Repr

/-! ## Numbers of the enumerations -/

/-- R63's numbers. -/
def Signal.number : Signal → Nat
  | .vBlankIN => 0
  | .vBlankOUT => 1
  | .hBlankIN => 2
  | .timer0 => 3
  | .timer1 => 4
  | .soundRequest => 5
  | .systemManager => 6
  | .cdBlock => 7
  | .aBus => 8
  | .external n => 16 + n.val

/-- The signal of a record number (R63). -/
def Signal.ofNumber (n : Nat) : Option Signal :=
  match n with
  | 0 => some .vBlankIN
  | 1 => some .vBlankOUT
  | 2 => some .hBlankIN
  | 3 => some .timer0
  | 4 => some .timer1
  | 5 => some .soundRequest
  | 6 => some .systemManager
  | 7 => some .cdBlock
  | 8 => some .aBus
  | n => if h : 16 ≤ n ∧ n < 32 then some (.external ⟨n - 16, by omega⟩) else none

/-- R62's numbers: `Software` = 0xFF, `OnSignal(sig)` = the signal's. `spriteDrawEnd` has none. -/
def TriggerSource.number : TriggerSource → Option Nat
  | .software => some 0xFF
  | .onSignal sig => some sig.number
  | .spriteDrawEnd => none

/-- The trigger of a record number (R62). -/
def TriggerSource.ofNumber (n : Nat) : Option TriggerSource :=
  if n = 0xFF then some .software else (Signal.ofNumber n).map .onSignal

/-- R64's numbers. -/
def ResetKind.number : ResetKind → Nat
  | .hard => 0
  | .soft => 1

/-! ## Operand readers -/

/-- What an operand reader answers: the operand and the bytes after it. -/
abbrev Parsed (α : Type) := Except DecodeError (α × List Byte)

/-- Go on reading after an operand; a rejection stops the reading. -/
def readThen {α β : Type} (r : Parsed α) (f : α → List Byte → Parsed β) : Parsed β :=
  match r with
  | .ok (a, bs) => f a bs
  | .error e => .error e

/-- One byte. -/
def readByte : List Byte → Parsed Byte
  | [] => .error .truncated
  | b :: bs => .ok (b, bs)

/-- A one-byte number: an event, a source or a channel (R75). -/
def readIndex : List Byte → Parsed Nat
  | [] => .error .truncated
  | b :: bs => .ok (b.toNat, bs)

/-- `n` bytes, most significant first (R75). -/
def readBytes (n : Nat) (bs : List Byte) : Parsed Nat :=
  if bs.length < n then .error .truncated else .ok (beNat (bs.take n), bs.drop n)

/-- A `Word` or an `Offset`: four bytes. -/
def readWord (bs : List Byte) : Parsed Word :=
  readThen (readBytes 4 bs) fun v bs =>
  .ok (BitVec.ofNat 32 v, bs)

/-- A `Cycles`: eight bytes. -/
def readCycles (bs : List Byte) : Parsed Cycles :=
  readThen (readBytes 8 bs) fun v bs =>
  .ok (BitVec.ofNat 64 v, bs)

/-- A bool: 0 or 1 (R58). -/
def readBool (bs : List Byte) : Parsed Bool :=
  readThen (readByte bs) fun b bs =>
  if b = 0 then .ok (false, bs) else if b = 1 then .ok (true, bs) else .error (.badBool b)

/-- A level: 0 to 15 (R58). -/
def readLevel (bs : List Byte) : Parsed Level :=
  readThen (readByte bs) fun b bs =>
  if b.toNat < 16 then .ok (b.setWidth 4, bs) else .error (.badLevel b)

/-- A signal (R63). -/
def readSignal (bs : List Byte) : Parsed Signal :=
  readThen (readByte bs) fun b bs =>
  match Signal.ofNumber b.toNat with
  | some sig => .ok (sig, bs)
  | none => .error (.badSignal b)

/-- A trigger source (R62). -/
def readTrigger (bs : List Byte) : Parsed TriggerSource :=
  readThen (readByte bs) fun b bs =>
  match TriggerSource.ofNumber b.toNat with
  | some t => .ok (t, bs)
  | none => .error (.badTrigger b)

/-- A reset kind (R64). -/
def readResetKind (bs : List Byte) : Parsed ResetKind :=
  readThen (readByte bs) fun b bs =>
  if b = 0 then .ok (.hard, bs) else if b = 1 then .ok (.soft, bs) else .error (.badResetKind b)

/-! ## The decoder -/

/-- The operands after the header byte `op` (R59, R75), and the bytes after the record. -/
def decodeOperands (op : Nat) (bs : List Byte) : Parsed Instr :=
  match op with
  | 0x00 =>
    readThen (readIndex bs) fun id bs =>
    readThen (readCycles bs) fun delay bs =>
    readThen (readBool bs) fun periodic bs =>
    .ok (.schedule id delay periodic, bs)
  | 0x01 =>
    readThen (readIndex bs) fun id bs =>
    readThen (readCycles bs) fun num bs =>
    readThen (readCycles bs) fun den bs =>
    .ok (.setEventPeriod id num den, bs)
  | 0x02 =>
    readThen (readIndex bs) fun id bs =>
    .ok (.cancel id, bs)
  | 0x03 =>
    readThen (readCycles bs) fun cycle bs =>
    .ok (.advanceTo cycle, bs)
  | 0x10 =>
    readThen (readIndex bs) fun source bs =>
    readThen (readLevel bs) fun level bs =>
    .ok (.raiseInterrupt source level, bs)
  | 0x11 =>
    readThen (readIndex bs) fun source bs =>
    .ok (.acknowledgeInterrupt source, bs)
  | 0x12 =>
    readThen (readByte bs) fun vector bs =>
    .ok (.acknowledgeVector vector, bs)
  | 0x13 => .ok (.getInterruptMask, bs)
  | 0x14 =>
    readThen (readWord bs) fun value bs =>
    .ok (.setInterruptMask value, bs)
  | 0x15 => .ok (.getInterruptStatus, bs)
  | 0x16 =>
    readThen (readWord bs) fun value bs =>
    .ok (.writeInterruptStatus value, bs)
  | 0x17 => .ok (.getPendingInterruptLevel, bs)
  | 0x18 => .ok (.getPendingInterruptVector, bs)
  | 0x20 =>
    readThen (readIndex bs) fun ch bs =>
    readThen (readWord bs) fun src bs =>
    readThen (readWord bs) fun dst bs =>
    readThen (readWord bs) fun count bs =>
    readThen (readWord bs) fun srcInc bs =>
    readThen (readWord bs) fun dstInc bs =>
    readThen (readBool bs) fun indirect bs =>
    readThen (readTrigger bs) fun trigger bs =>
    .ok (.configure ch src dst count srcInc dstInc indirect trigger, bs)
  | 0x21 =>
    readThen (readIndex bs) fun ch bs =>
    readThen (readBool bs) fun updateSrc bs =>
    readThen (readBool bs) fun updateDst bs =>
    .ok (.setAddressUpdate ch updateSrc updateDst, bs)
  | 0x22 =>
    readThen (readIndex bs) fun ch bs =>
    readThen (readBool bs) fun enabled bs =>
    .ok (.setEnabled ch enabled, bs)
  | 0x23 =>
    readThen (readIndex bs) fun ch bs =>
    readThen (readTrigger bs) fun trigger bs =>
    .ok (.trigger ch trigger, bs)
  | 0x24 =>
    readThen (readIndex bs) fun ch bs =>
    .ok (.tick ch, bs)
  | 0x30 =>
    readThen (readSignal bs) fun sig bs =>
    .ok (.signal sig, bs)
  | 0x31 => .ok (.scuTick, bs)
  | 0x33 =>
    readThen (readResetKind bs) fun kind bs =>
    .ok (.reset kind, bs)
  | 0x34 =>
    readThen (readWord bs) fun offset bs =>
    .ok (.regRead offset, bs)
  | 0x35 =>
    readThen (readWord bs) fun offset bs =>
    readThen (readWord bs) fun value bs =>
    .ok (.regWrite offset value, bs)
  | 0x36 => .ok (.saveState, bs)
  | 0x37 => .error .imageHasNoByteForm
  | 0x38 =>
    readThen (readIndex bs) fun source bs =>
    readThen (readLevel bs) fun level bs =>
    .ok (.postAudioInterrupt source level, bs)
  | 0x39 => .ok (.drainAudioQueue, bs)
  | 0x40 => .ok (.dspStep, bs)
  | op => .error (.unknownOp (BitVec.ofNat 8 op))

/-- The operation the first record of `bs` spells, and the bytes after that record (R57). -/
def decode : List Byte → Parsed Instr
  | [] => .error .truncated
  | op :: bs => decodeOperands op.toNat bs

/-! ## The encoder -/

/-- A one-byte number (R75). -/
def indexBytes (n : Nat) : List Byte := [BitVec.ofNat 8 n]

/-- Four bytes (R75). -/
def encodeWord (w : Word) : List Byte := beBytes 4 w.toNat

/-- Eight bytes (R75). -/
def encodeCycles (c : Cycles) : List Byte := beBytes 8 c.toNat

/-- 0 or 1 (R58). -/
def encodeBool (b : Bool) : List Byte := [if b then 1 else 0]

/-- One byte (R75). -/
def encodeLevel (l : Level) : List Byte := [l.setWidth 8]

/-- One byte (R62); 0 for the trigger that has no number. -/
def encodeTrigger (t : TriggerSource) : List Byte := indexBytes (t.number.getD 0)

/-- The record of an operation (R59, R75). A pseudo-operation of one operation is its expansion's record (R72). `none`:
the operation has no record, and is issued in text form (R10): LoadState (R75), the pair GetPendingInterrupt, the DSP
variants, which are no bits of a record (R73). -/
def encode : Instr → Option (List Byte)
  | .schedule id delay periodic => some (0x00 :: (indexBytes id ++ (encodeCycles delay ++ encodeBool periodic)))
  | .setEventPeriod id num den => some (0x01 :: (indexBytes id ++ (encodeCycles num ++ encodeCycles den)))
  | .cancel id => some (0x02 :: indexBytes id)
  | .advanceTo cycle => some (0x03 :: encodeCycles cycle)
  | .raiseInterrupt source level => some (0x10 :: (indexBytes source ++ encodeLevel level))
  | .acknowledgeInterrupt source => some (0x11 :: indexBytes source)
  | .acknowledgeVector vector => some [0x12, vector]
  | .getInterruptMask => some [0x13]
  | .setInterruptMask value => some (0x14 :: encodeWord value)
  | .getInterruptStatus => some [0x15]
  | .writeInterruptStatus value => some (0x16 :: encodeWord value)
  | .getPendingInterruptLevel => some [0x17]
  | .getPendingInterruptVector => some [0x18]
  | .configure ch src dst count srcInc dstInc indirect trigger =>
    some (0x20 :: (indexBytes ch ++ (encodeWord src ++ (encodeWord dst ++ (encodeWord count ++ (encodeWord srcInc ++
      (encodeWord dstInc ++ (encodeBool indirect ++ encodeTrigger trigger))))))))
  | .setAddressUpdate ch updateSrc updateDst =>
    some (0x21 :: (indexBytes ch ++ (encodeBool updateSrc ++ encodeBool updateDst)))
  | .setEnabled ch enabled => some (0x22 :: (indexBytes ch ++ encodeBool enabled))
  | .trigger ch trigger => some (0x23 :: (indexBytes ch ++ encodeTrigger trigger))
  | .tick ch => some (0x24 :: indexBytes ch)
  | .signal sig => some (0x30 :: indexBytes sig.number)
  | .scuTick => some [0x31]
  | .reset kind => some (0x33 :: indexBytes kind.number)
  | .regRead offset => some (0x34 :: encodeWord offset)
  | .regWrite offset value => some (0x35 :: (encodeWord offset ++ encodeWord value))
  | .saveState => some [0x36]
  | .loadState _ => none
  | .postAudioInterrupt source level => some (0x38 :: (indexBytes source ++ encodeLevel level))
  | .drainAudioQueue => some [0x39]
  | .dspStep => some [0x40]
  | .triggerVBlankIN => some (0x30 :: indexBytes Signal.vBlankIN.number)
  | .triggerVBlankOUT => some (0x30 :: indexBytes Signal.vBlankOUT.number)
  | .triggerHBlankIN => some (0x30 :: indexBytes Signal.hBlankIN.number)
  | .cbTriggerExternalInterruptN n => some (0x30 :: indexBytes (Signal.external n).number)
  | .softwareStart ch => some (0x23 :: (indexBytes ch ++ encodeTrigger .software))
  | .getPendingInterrupt => none
  | .dspOperation _ _ _ _ => none
  | .dspMVI _ _ _ _ => none
  | .dspDMA _ _ _ _ _ => none
  | .dspJMP _ _ => none
  | .dspLPS => none
  | .dspBTM => none
  | .dspEND => none
  | .dspENDI => none
  | .dspInvalid => none

/-- The operation a pseudo-operation's record decodes to (R72); every other operation is itself. -/
def Instr.canonical : Instr → Instr
  | .triggerVBlankIN => .signal .vBlankIN
  | .triggerVBlankOUT => .signal .vBlankOUT
  | .triggerHBlankIN => .signal .hBlankIN
  | .cbTriggerExternalInterruptN n => .signal (.external n)
  | .softwareStart ch => .trigger ch .software
  | i => i

/-! ## The host's word -/

/-- The longest record, Configure's, in bytes. -/
def maxRecordBytes : Nat := 24

/-- An opcode-table word laid out as a record: byte k is bits 8k+7..8k of `w`; the bytes above `nbits` are 0, up to the
longest record. -/
def tableBytes (nbits w : Nat) : List Byte :=
  (List.range maxRecordBytes).map fun k => if 8 * k < nbits then BitVec.ofNat 8 (w / 256 ^ k) else 0

/-- The operation the decoder reads from a word numbered as spec/opcode_table.json numbers it. -/
def decodeTableWord (nbits w : Nat) : Option Instr :=
  match decode (tableBytes nbits w) with
  | .ok (i, _) => some i
  | .error _ => none

/-- The bytes of `tableBytes` that its first record takes; all of them where no record stands there. -/
def tableRecord (nbits w : Nat) : List Byte :=
  match decode (tableBytes nbits w) with
  | .ok (_, rest) => (tableBytes nbits w).take ((tableBytes nbits w).length - rest.length)
  | .error _ => tableBytes nbits w

end Sys2Proof
end

