-- ==== Sys2Proof/Machine/State.lean ====
section
/-! DEFINITION. The state of the machine as plain data (10_state.md), the reasons a step stops, and the state after reset
(R34, R201). -/

namespace Sys2Proof.Machine

/-- The reasons of a contract violation (R181), in the order of their codes 1 to 6. -/
inductive ViolationReason where
  /-- `Schedule`, `SetEventPeriod`, `Cancel`: the id is no registered event. -/
  | unknownEventId
  /-- `SetEventPeriod` with a zero; a periodic `Schedule` with no period set. -/
  | badPeriod
  /-- `AdvanceTo` to a cycle before the counter. -/
  | timeBackwards
  /-- A DMA operation on a channel above 2. -/
  | badChannel
  /-- An interrupt operation on a source above 31. -/
  | badSourceIndex
  /-- `AdvanceTo`, `Reset` or `LoadState` from inside a handler or a CPU step. -/
  | reentrant
  deriving DecidableEq, Repr

/-- Why the machine stops with a fault. -/
inductive Fault where
  /-- Raised by `step` in a state whose mark `fault` is set (R32, R181, U1): the run has no further meaning. Safe: nothing
  is claimed of such a run. -/
  | contractViolation (reason : ViolationReason)
  /-- Raised by `AdvanceTo` when its dispatch loop does not end (R88, U2: stuck). Safe: the operation does not return. -/
  | advanceToDoesNotReturn
  deriving DecidableEq, Repr

/-- Why the machine refuses an operation. -/
inductive Refusal where
  /-- An arm of `exec` that has no meaning yet. Safe. -/
  | notModelled (mnemonic : String)
  /-- Raised by `step`: the issued bytes spell no operation (R71: refused by the decoder). Safe. -/
  | undecodable (reason : DecodeError)
  /-- Raised by a register access that is not 4 bytes at a multiple of 4 (U7: refuse). Safe. -/
  | misalignedRegisterAccess
  /-- Raised by a DMA or DSP-DMA access in the register window that would start, tick or disable what performs it (U8, R55:
  refuse). Safe. -/
  | selfDisturbingAccess
  /-- Raised by `step`: the audio thread issued something other than `PostAudioInterrupt` (R150, R190). Safe. -/
  | offThreadOperation
  deriving DecidableEq, Repr

/-- A notification the tracer receives (R33, R156). The arguments of `DSPDMA` are not in the source (U12, log entry 24). -/
inductive TraceEvent where
  | raiseInterrupt (source : SourceIndex) (level : Level)
  | acknowledgeInterrupt (source : SourceIndex)
  | dspDMA (toD0 hold : Bool) (count : Word)
  deriving DecidableEq, Repr

/-- What an operation returned (R10: "-> value"). The model's own field (log entry 6). -/
inductive Result where
  | nothing
  | word (v : Word)
  | level (v : Level)
  | vector (v : Byte)
  | pair (level : Level) (vector : Byte)
  | image (i : Image)
  | ok
  | rejected
  deriving DecidableEq, Repr

/-- The agents that issue operations (R11). Handlers, DMA channels and the DSP act inside operations. -/
inductive Agent where
  | masterSH2
  | slaveSH2
  | peripheral
  | systemDriver
  | audioThread
  deriving DecidableEq, Repr

/-- How an issued operation is written: as a record (R75) or in text form (R10). -/
inductive OpForm where
  | record (bytes : List Byte)
  | text (op : Instr)
  deriving DecidableEq, Repr

/-- One round of `SystemStep` (R149) with the environment's inputs: what each CPU performs after its poll, the cycles the
master reports, SLAVE_ENABLED (R7: may change between system steps). -/
structure SystemStep where
  masterOps : List Instr
  cycles : Cycles
  slaveEnabled : Bool
  slaveOps : List Instr
  deriving DecidableEq, Repr

/-- One entry of the queue of issued operations (log entry 3). `systemStepEnd` is where a system step ends (R152);
`busStore` and `busLoad` are bus accesses of a master outside the block (R41, R66, log entry 7). -/
inductive Issue where
  | call (agent : Agent) (form : OpForm)
  | systemStep (round : SystemStep)
  | systemStepEnd
  | busStore (addr : Word) (bytes : List Byte)
  | busLoad (addr : Word) (bytes : Nat)
  deriving DecidableEq, Repr

/-- The state: the block (R13 to R33), the bus behind it (R41), the parameters (R7), the environment's inputs, whether a
system step is under way (R152), and the model's own `result` and `freeCount`. -/
structure State where
  sched : Sched
  intr : Intr
  dma : Vector DmaChannel 3
  dsp : Dsp
  audioQueue : List SourceLevel
  fault : Option ViolationReason
  traceLog : List TraceEvent
  mem : List Host.Cell
  cfg : Params
  issue : List Issue
  inSystemStep : Bool
  result : Result
  freeCount : Nat
  deriving DecidableEq, Repr

/-- The number of slots at reset (R7: OPEN; the conventions of 95_test_vectors.md use 4). DESIGN CHOICE, log entry 1. -/
def resetEvents : Nat := 4

/-- The machine right after power-on (R34, R201): every item of the block at its hard-reset value, nothing issued, nothing
in memory, the parameters at the spec's defaults (log entries 1, 7, 19). -/
def State.reset : State where
  sched := { currCycle := 0, ev := (List.range resetEvents).map EventSlot.reset }
  intr := Intr.reset
  dma := Vector.replicate 3 DmaChannel.reset
  dsp := Dsp.reset
  audioQueue := []
  fault := none
  traceLog := []
  mem := []
  cfg := Params.default
  issue := []
  inSystemStep := false
  result := .nothing
  freeCount := 0

end Sys2Proof.Machine
end

