-- ==== Sys2Proof/Machine/Ops.lean ====
section
/-! DEFINITION. The named operations over the state: sequencing of outcomes, one update per field, raising a contract
violation (R181), trace notifications (R156), free values, and the bus memory (R41, R44). -/

namespace Sys2Proof.Machine

open Host (Outcome)

/-- What a meaning answers with. -/
abbrev Run := Outcome State Fault Refusal

/-- Perform `f` after an outcome: a stop stays a stop. -/
def andThen {α β : Type} (o : Outcome α Fault Refusal) (f : α → Outcome β Fault Refusal) : Outcome β Fault Refusal :=
  match o with
  | .next a => f a
  | .fault r => .fault r
  | .refused r => .refused r

/-! ## Updates -/

/-- R82: write the cycle counter. -/
def State.setCurrCycle (s : State) (c : Cycles) : State := { s with sched := { s.sched with currCycle := c } }

/-- Write slot `id` of the event table (R14). -/
def State.setSlot (s : State) (id : Nat) (e : EventSlot) : State :=
  { s with sched := { s.sched with ev := s.sched.ev.set id e } }

/-- Write the interrupt registers (R16 to R18). -/
def State.setIntr (s : State) (i : Intr) : State := { s with intr := i }

/-- Write channel `ch` (R21). -/
def State.setChannel (s : State) (ch : Channel) (c : DmaChannel) : State := { s with dma := s.dma.set ch c }

/-- Write the DSP (R27). -/
def State.setDsp (s : State) (d : Dsp) : State := { s with dsp := d }

/-- Write the audio queue (R31). -/
def State.setAudioQueue (s : State) (q : List SourceLevel) : State := { s with audioQueue := q }

/-- Write the bus memory (R41). -/
def State.setMem (s : State) (m : List Host.Cell) : State := { s with mem := m }

/-- Write the queue of issued operations. -/
def State.setIssue (s : State) (q : List Issue) : State := { s with issue := q }

/-- Note that a system step begins or ends (R152). -/
def State.setInSystemStep (s : State) (b : Bool) : State := { s with inSystemStep := b }

/-- Write what the operation returns (R10). -/
def State.setResult (s : State) (r : Result) : State := { s with result := r }

/-- Take the next free value. -/
def State.takeFree (s : State) : State := { s with freeCount := s.freeCount + 1 }

/-- `trace(e)` (R9, R33): append the notification when a tracer is attached. -/
def State.trace (s : State) (e : TraceEvent) : State :=
  if s.cfg.tracer then { s with traceLog := s.traceLog ++ [e] } else s

/-! ## Contract violations (R181) -/

/-- The one exception of the block: `raise ContractViolation(reason)` sets the mark `fault` if it is not set and changes
nothing else (R32, R181). -/
def State.markFault (s : State) (r : ViolationReason) : State := { s with fault := s.fault <|> some r }

/-- End the operation with a contract violation (R9, R181). Nothing clears the mark: there is no return from it (R32). -/
def raiseViolation (r : ViolationReason) (s : State) : Run := .next (s.markFault r)

/-! ## Memory (R41, R44) -/

/-- What an address that is not listed reads as. DESIGN CHOICE, log entry 7. -/
def Memory.unlisted : Byte := 0

/-- The byte at an address. -/
def Memory.read (m : List Host.Cell) (a : Nat) : Byte :=
  match m with
  | [] => Memory.unlisted
  | (b, v) :: m => if a = b then v else Memory.read m a

/-- Write one byte and keep the form: addresses strictly rising, no entry equal to what an unlisted address reads as. -/
def Memory.write (m : List Host.Cell) (a : Nat) (v : Byte) : List Host.Cell :=
  match m with
  | [] => if v = Memory.unlisted then [] else [(a, v)]
  | (b, w) :: m =>
    if a < b then (if v = Memory.unlisted then (b, w) :: m else (a, v) :: (b, w) :: m)
    else if a = b then (if v = Memory.unlisted then m else (a, v) :: m)
    else (b, w) :: Memory.write m a v

/-- The canonical form: every address is on the 32-bit bus (R40), addresses strictly rise, no entry equals the unlisted
byte. -/
def Memory.wf : List Host.Cell → Bool
  | [] => true
  | [(a, v)] => decide (a < 2 ^ 32) && decide (v ≠ Memory.unlisted)
  | (a, v) :: (b, w) :: m => decide (a < b) && decide (v ≠ Memory.unlisted) && Memory.wf ((b, w) :: m)

/-- The address `k` bytes after `a`, modulo 2^32 (R46). -/
def busAddr (a : Word) (k : Nat) : Word := a + BitVec.ofNat 32 k

/-- Whether an address lies in a region. -/
def Region.contains (r : Region) (a : Word) : Bool := decide ((a - r.base).toNat < r.size)

/-- Whether a device answers at an address (R41). -/
def Params.isDevice (p : Params) (a : Word) : Bool := p.devices.any fun r => Region.contains r a

/-- One byte of the bus: a device's is free, plain memory's is what it holds (R41). -/
def readBusByte (a : Word) (s : State) : Byte × State :=
  if Params.isDevice s.cfg a then (Config.freeByte s.freeCount, s.takeFree) else (Memory.read s.mem a.toNat, s)

/-- `n` bytes of the bus at ascending addresses, in address order (R44). -/
def readBusBytes : Nat → Word → State → List Byte × State
  | 0, _, s => ([], s)
  | n + 1, a, s =>
    let (b, s) := readBusByte a s
    let (bs, s) := readBusBytes n (a + 1) s
    (b :: bs, s)

/-- Write one byte of the bus: a device takes it and shows nothing of it, plain memory holds it (R41). Plain memory changes by
the block's own writes and by the `busStore` entries of the queue outside the register window, and by nothing else. DESIGN
CHOICE, log entry 7. -/
def writeBusByte (a : Word) (b : Byte) (s : State) : State :=
  if Params.isDevice s.cfg a then s else s.setMem (Memory.write s.mem a.toNat b)

/-- Write bytes at ascending addresses (R44). -/
def writeBusBytes : Word → List Byte → State → State
  | _, [], s => s
  | a, b :: bs, s => writeBusBytes (a + 1) bs (writeBusByte a b s)

/-! ## The register window on the bus (R47, R55) -/

/-- The offset of a bus address from `SCU_BASE` (R66). -/
def Params.windowOffset (p : Params) (a : Word) : Word := a - p.scuBase

/-- Whether some byte of an access of `n` bytes falls in the block's register window (R55). -/
def Params.touchesWindow (p : Params) (a : Word) (n : Nat) : Bool :=
  (List.range n).any fun k => decide ((Params.windowOffset p (busAddr a k)).toNat < p.scuWindowBytes)

/-- A register access is 4 bytes at a multiple of 4 (R45, U7). -/
def registerAligned (offset : Word) : Bool := decide (offset.toNat % 4 = 0)

end Sys2Proof.Machine
end

