-- ==== Sys2Proof/Machine/Operands.lean ====
section
/-! DEFINITION. Operand forms: channel, source and event numbers (R58, R181), the tables of R7, the bit fields of the
register surface (R68), the sources and destinations of the DSP's slots (R165, R166). -/

namespace Sys2Proof.Machine

/-! ## Numbers that must be in range (R181) -/

/-- The channel of a number; `none` above 2 (R64). -/
def channelOf (n : Nat) : Option Channel := if h : n < 3 then some ⟨n, h⟩ else none

/-- The source of a number; `none` above 31 (R61). -/
def sourceOf (n : Nat) : Option SourceIndex := if h : n < 32 then some ⟨n, h⟩ else none

/-- `id < NUM_EVENTS and Registered(id)` (R78). -/
def State.knowsEvent (s : State) (id : Nat) : Bool :=
  decide (id < s.sched.ev.length) && s.cfg.registered[id]?.getD false

/-- The slot of an event; the reset slot outside the table. -/
def State.slot (s : State) (id : Nat) : EventSlot := s.sched.ev[id]?.getD (EventSlot.reset id)

/-! ## The tables of R7 -/

/-- `SignalTable(sig)`. -/
def State.signalEntry (s : State) (sig : Signal) : SourceLevel := s.cfg.signalTable[sig.row]

/-- `DmaEndTable(ch)`. -/
def State.dmaEnd (s : State) (ch : Channel) : SourceLevel := s.cfg.dmaEndTable[ch]

/-- `VectorOf(i)`. -/
def State.vectorOf (s : State) (i : SourceIndex) : Byte := s.cfg.vectorOf[i]

/-- The source whose vector is `v` (R100); the least one, should `VectorOf` not be injective. -/
def State.sourceOfVector (s : State) (v : Byte) : Option SourceIndex :=
  (List.finRange 32).find? fun i => decide (s.vectorOf i = v)

/-- The register at an offset (`RegMap`, R69). -/
def State.regAt (s : State) (offset : Word) : Option Reg := (s.cfg.regMap.find? fun e => decide (e.1 = offset)).map (·.2)

/-! ## Bit fields of the DMA registers (R68), by the layout of `RegMap` (R7) -/

/-- The three-bit code of a written value, as an index. -/
def codeField (v : Word) (low : Nat) : Fin 8 := ⟨(v.extractLsb' low 3).toNat, (v.extractLsb' low 3).isLt⟩

/-- `DnAD`: the source increment of a written value. -/
def RegLayout.srcInc (l : RegLayout) (v : Word) : Word := if v.getLsbD l.srcIncBit then l.srcIncs[1] else l.srcIncs[0]

/-- `DnAD`: the destination increment of a written value. -/
def RegLayout.dstInc (l : RegLayout) (v : Word) : Word := l.dstIncs[codeField v l.dstIncLow]

/-- `StartFactor` of R68, of a value written to `DnMD`. -/
def RegLayout.startFactor (l : RegLayout) (v : Word) : TriggerSource := l.startFactors[codeField v l.startFactorLow]

/-- The least code a table gives a value (DESIGN CHOICE where two codes mean it, log entry 10); `other` where it has none. -/
def codeOf {α : Type} [DecidableEq α] (table : Vector α 8) (x : α) (other : BitVec 3) : BitVec 3 :=
  match (List.finRange 8).find? fun k => decide (table[k] = x) with
  | some k => BitVec.ofNat 3 k.val
  | none => other

/-- The start-factor code of a trigger; free where the layout has none. -/
def RegLayout.startFactorCode (l : RegLayout) (t : TriggerSource) : BitVec 3 := codeOf l.startFactors t (Config.triggerCode t)

/-- The read-add bit of a source increment: the least code where both mean it (DESIGN CHOICE, log entry 10); free where the
layout has none. -/
def RegLayout.srcIncCode (l : RegLayout) (inc : Word) : Bool :=
  if l.srcIncs[0] = inc then false else if l.srcIncs[1] = inc then true else Config.readAddBit inc

/-- The write-add code of a destination increment; free where the layout has none. -/
def RegLayout.dstIncCode (l : RegLayout) (inc : Word) : BitVec 3 := codeOf l.dstIncs inc (Config.writeAddCode inc)

/-- A bool at bit `i` of a word. -/
def bitAt (b : Bool) (i : Nat) : Word := if b then BitVec.ofNat 32 (2 ^ i) else 0

/-- A code in the three bits from `low`. -/
def codeAt (code : BitVec 3) (low : Nat) : Word := code.setWidth 32 <<< low

/-- The configured fields of `DnAD` in their bit positions, and the bits they take. -/
def RegLayout.addressAddFields (l : RegLayout) (c : DmaChannel) : Word × Word :=
  (bitAt (RegLayout.srcIncCode l c.srcAddrInc) l.srcIncBit ||| codeAt (RegLayout.dstIncCode l c.dstAddrInc) l.dstIncLow,
    bitAt true l.srcIncBit ||| codeAt 7 l.dstIncLow)

/-- The configured fields of `DnMD` in their bit positions, and the bits they take. -/
def RegLayout.modeFields (l : RegLayout) (c : DmaChannel) : Word × Word :=
  (bitAt c.indirect l.indirectBit ||| bitAt c.updateSrcAddr l.updateSrcBit ||| bitAt c.updateDstAddr l.updateDstBit |||
      codeAt (RegLayout.startFactorCode l c.trigger) l.startFactorLow,
    bitAt true l.indirectBit ||| bitAt true l.updateSrcBit ||| bitAt true l.updateDstBit ||| codeAt 7 l.startFactorLow)

/-- The configured field of `DnEN` in its bit position, and the bit it takes. -/
def RegLayout.enableFields (l : RegLayout) (c : DmaChannel) : Word × Word :=
  (bitAt c.enabled l.enableBit, bitAt true l.enableBit)

/-- The fields of a register read, with `filler` in the bits that hold none. -/
def withFiller (fields : Word × Word) (filler : Word) : Word := fields.1 ||| (filler &&& ~~~fields.2)

/-! ## Sources and destinations of the DSP (R165, R166) -/

/-- The data RAM word a bank's cursor points at (R161: the cursor wraps modulo 64). -/
def Dsp.ramAt (d : Dsp) (bank : Fin 4) (index : Nat) : Word := d.dataRAM[bank][index % 64]

/-- The bank's cursor. -/
def Dsp.cursor (d : Dsp) (bank : Fin 4) : Nat := d.CT[bank]

/-- The value a source holds in the snapshot `S` (R165). How a cursor, LOP and TOP stand on a 32-bit bus is not in the source
(N10): CT and TOP are zero-extended, LOP is taken modulo 2^32. DESIGN CHOICE, log entry 11. -/
def dspSourceValue (src : DspSource) (S : Dsp) : Word :=
  match src with
  | .ram bank _ => Dsp.ramAt S bank (Dsp.cursor S bank)
  | .ct bank => BitVec.ofNat 32 (Dsp.cursor S bank)
  | .rx => S.RX
  | .ry => S.RY
  | .lop => BitVec.ofNat 32 S.LOP
  | .top => S.TOP.setWidth 32
  | .alu => Config.dspNarrow S.ALU
  | .ac => Config.dspNarrow S.AC
  | .p => Config.dspNarrow S.P
  | .other code => Config.dspSourceValue code S

/-- The 64 bits a move from a source to P or AC leaves there; the upper half of a 32-bit source's, and all of a 64-bit
register's, is free (log entry 11). -/
def dspWideValue (src : DspSource) (S : Dsp) : DWord :=
  match src with
  | .alu => Config.dspWideMove S.ALU
  | .ac => Config.dspWideMove S.AC
  | .p => Config.dspWideMove S.P
  | src => Config.dspWiden (dspSourceValue src S) ++ dspSourceValue src S

/-- The cursor a post-incrementing source advances (V32). -/
def dspSourceWrites (src : DspSource) (S : Dsp) : List DspWrite :=
  match src with
  | .ram bank true => [.ct bank (Dsp.cursor S bank + 1)]
  | .ram _ false => []
  | .ct _ => []
  | .rx => []
  | .ry => []
  | .lop => []
  | .top => []
  | .alu => []
  | .ac => []
  | .p => []
  | .other _ => []

/-- The writes of a 32-bit word to a destination, addresses taken from the snapshot `S`. The upper half of P and AC and the
width of LOP are free; the word is cut or zero-extended to LOP's width (DESIGN CHOICE, log entry 11). -/
def dspDestWrites (dst : DspDest) (v : Word) (S : Dsp) : List DspWrite :=
  match dst with
  | .ram bank true => [.ram bank (Dsp.cursor S bank) v, .ct bank (Dsp.cursor S bank + 1)]
  | .ram bank false => [.ram bank (Dsp.cursor S bank) v]
  | .ct bank => [.ct bank v.toNat]
  | .rx => [.rx v]
  | .ry => [.ry v]
  | .p => [.p (Config.dspWiden v ++ v)]
  | .ac => [.ac (Config.dspWiden v ++ v)]
  | .lop => [.lop (v.toNat % 2 ^ Config.dspLopBits)]
  | .top => [.top (v.setWidth 8)]
  | .readAddr => [.readAddr v]
  | .writeAddr => [.writeAddr v]
  | .other code => Config.dspDestWrites code v S

/-- `sext_n(v)` of R8 to the free width of LOP, as the natural LOP holds (R161, log entry 11). -/
def signExtendToLop (n : Nat) (v : Word) : Nat := ((v.setWidth n).signExtend Config.dspLopBits).toNat

/-- The exact signed product of RX and RY (R175). -/
def dspProduct (S : Dsp) : DWord := S.RX.signExtend 64 * S.RY.signExtend 64

/-- The writes of a move's destination. -/
def dspMoveWrites (src : DspSource) (dst : DspDest) (S : Dsp) : List DspWrite :=
  match dst with
  | .p => [.p (dspWideValue src S)]
  | .ac => [.ac (dspWideValue src S)]
  | dst => dspDestWrites dst (dspSourceValue src S) S

/-- The writes of one slot of an `Operation`, all computed from the snapshot `S` (R165). In a slot whose source advances the
cursor it also writes (`move (.ram b true) (.ct b)`) the destination's write comes after the increment and wins. DESIGN
CHOICE, log entry 33: U9 speaks of two slots. -/
def dspSlotWrites (bus : DspBus) (slot : DspSlot) (S : Dsp) : List DspWrite :=
  match slot with
  | .idle => []
  | .move src dst => dspSourceWrites src S ++ dspMoveWrites src dst S
  | .multiply => [.p (dspProduct S)]
  | .other code => Config.dspSlotWrites bus code S

/-- The writes of `MVI`: the immediate's low `width` bits sign-extended to the destination's width (R8, R166). LOP's width is
free (R161), and the sign is extended to that width, above 32 bits too; LOP, a natural, holds the bits as an unsigned number.
DESIGN CHOICE, log entry 11. -/
def dspImmediateWrites (dst : DspDest) (imm : Word) (width : Nat) (S : Dsp) : List DspWrite :=
  match dst with
  | .p => [.p (signExtendFrom64 width imm)]
  | .ac => [.ac (signExtendFrom64 width imm)]
  | .lop => [.lop (signExtendToLop width imm)]
  | dst => dspDestWrites dst (signExtendFrom width imm) S

/-- Apply one write. Cursors wrap modulo 64 (R161). -/
def Dsp.write (d : Dsp) (w : DspWrite) : Dsp :=
  match w with
  | .ram bank index v =>
    { d with dataRAM := d.dataRAM.set bank (d.dataRAM[bank].set (index % 64) v (Nat.mod_lt _ (by decide))) }
  | .ct bank v => { d with CT := d.CT.set bank (v % 64) }
  | .rx v => { d with RX := v }
  | .ry v => { d with RY := v }
  | .p v => { d with P := v }
  | .ac v => { d with AC := v }
  | .lop n => { d with LOP := n }
  | .top v => { d with TOP := v }
  | .readAddr v => { d with dmaReadAddr := v }
  | .writeAddr v => { d with dmaWriteAddr := v }

/-- Apply writes in order: a later write to the same place wins. -/
def Dsp.writes (d : Dsp) (ws : List DspWrite) : Dsp := ws.foldl Dsp.write d

/-- One of the six orders of three lists of writes (U9). -/
def inOrder (k : Fin 6) (x y d1 : List DspWrite) : List DspWrite :=
  match k.val with
  | 0 => x ++ y ++ d1
  | 1 => x ++ d1 ++ y
  | 2 => y ++ x ++ d1
  | 3 => y ++ d1 ++ x
  | 4 => d1 ++ x ++ y
  | _ => d1 ++ y ++ x

/-- The word of program RAM at an address (R163). -/
def Dsp.programAt (d : Dsp) (pc : Nat) : Word := d.programRAM[pc % 256]

/-- Replace a word of program RAM. -/
def Dsp.setProgram (d : Dsp) (k : Fin 256) (v : Word) : Dsp := { d with programRAM := d.programRAM.set k v }

/-- Apply what a window access does to the run state and the latch (R70). -/
def Dsp.windowEffect (d : Dsp) (e : DspWindowEffect) : Dsp :=
  { d with
    PC := (e.pc.map BitVec.toNat).getD d.PC
    programExecuting := e.executing.getD d.programExecuting
    programPaused := e.paused.getD d.programPaused
    programEnded := e.ended.getD d.programEnded
    programStep := e.step.getD d.programStep
    windowAddr := e.windowAddr.getD d.windowAddr }

end Sys2Proof.Machine
end

