-- ==== Sys2Proof/Machine/Flags.lean ====
section
/-! DEFINITION. Status computations: when a target is due and which is earliest (R77, R84), the pending pair (R105), the
DSP's conditions and flags (R175, R176), the validity of an image (R154). -/

namespace Sys2Proof.Machine

/-! ## Cycle comparison (R77) -/

/-- `age(t, c) = (c - t) mod 2^64`. -/
def age (t c : Cycles) : Nat := (c - t).toNat

/-- `t` is due at `c`: the formula of R77 and D8. DEDUCED, log entry 32: an event armed with a delay of exactly 2^63 has age
2^63 and is not due, where R79(c) and U4 say "2^63 or more". -/
def due (t c : Cycles) : Bool := decide (age t c < 2 ^ 63)

/-- A live slot whose target is due: a member of the set D of R82. -/
def EventSlot.isDue (e : EventSlot) (c : Cycles) : Bool := e.live && due e.target c

/-- The slot of the due set whose target is earliest (greatest age), the least id among equals (R82, R84); `i` is the id
of the first slot of the list. -/
def nextDue (c : Cycles) : Nat → List EventSlot → Option (Nat × EventSlot)
  | _, [] => none
  | i, e :: es =>
    match nextDue c (i + 1) es with
    | none => if EventSlot.isDue e c then some (i, e) else none
    | some (j, f) =>
      if EventSlot.isDue e c && decide (age f.target c ≤ age e.target c) then some (i, e) else some (j, f)

/-- What firing does to the slot before its handler runs (R82, R85): a periodic slot is rearmed with a carried remainder,
a one-shot slot is cleared. -/
def EventSlot.fired (e : EventSlot) : EventSlot :=
  if e.periodic then
    { e with
      target := e.target + BitVec.ofNat 64 ((e.countNumerator.toNat + e.remainder.toNat) / e.countDenominator.toNat)
      remainder := BitVec.ofNat 64 ((e.countNumerator.toNat + e.remainder.toNat) % e.countDenominator.toNat) }
  else { e with live := false }

/-! ## The pending pair (R105) -/

/-- `intr.status[i] = 1 and intr.mask[i] = 0` (R184: visible). -/
def Intr.visible (r : Intr) (i : SourceIndex) : Bool := r.status.getLsbD i && !r.mask.getLsbD i

/-- Among the visible sources of a list, the one with the greatest level, the earliest in the list among equals. -/
def Intr.highest (r : Intr) : List SourceIndex → Option SourceIndex
  | [] => none
  | i :: is =>
    match Intr.highest r is with
    | none => if Intr.visible r i then some i else none
    | some j => if Intr.visible r i && decide (r.level[j].toNat ≤ r.level[i].toNat) then some i else some j

/-- The source `Pending()` selects (R105). -/
def Intr.pendingSource (r : Intr) : Option SourceIndex := Intr.highest r (List.finRange 32)

/-- `Pending().level`: 0 when nothing is pending (R105). -/
def State.pendingLevel (s : State) : Level :=
  match Intr.pendingSource s.intr with
  | some i => s.intr.level[i]
  | none => 0

/-- `Pending().vector`: 0 when nothing is pending (R105). -/
def State.pendingVector (s : State) : Byte :=
  match Intr.pendingSource s.intr with
  | some i => s.vectorOf i
  | none => 0

/-! ## DSP conditions and flags (R175, R176) -/

/-- `CondHolds` (R176). PRESUMED: the spec's reading of the names. -/
def condHolds (cond : DspCond) (S : Dsp) : Bool :=
  match cond with
  | .nz => !S.zero
  | .ns => !S.sign
  | .nzs => !(S.zero || S.sign)
  | .nc => !S.carry
  | .nt0 => !S.dmaRun
  | .z => S.zero
  | .s => S.sign
  | .zs => S.zero || S.sign
  | .c => S.carry
  | .t0 => S.dmaRun
  | .none => true

/-- The 64-bit ALU result (R165, R175): the low half of AND, OR, XOR, ADD, SUB is that operation on the two 32-bit
operands; which operands, the upper half, AD2 and the shifts are free functions of the operation and the snapshot, as in R165's
`DspExec.Alu(aluop, S)`, and not of what stands in the slots. DESIGN CHOICE, log entry 11. -/
def aluValue (op : DspAluOp) (S : Dsp) : DWord :=
  match op with
  | .and => Config.dspAluHigh op S ++ ((Config.dspAluOperands op S).1 &&& (Config.dspAluOperands op S).2)
  | .or => Config.dspAluHigh op S ++ ((Config.dspAluOperands op S).1 ||| (Config.dspAluOperands op S).2)
  | .xor => Config.dspAluHigh op S ++ ((Config.dspAluOperands op S).1 ^^^ (Config.dspAluOperands op S).2)
  | .add => Config.dspAluHigh op S ++ ((Config.dspAluOperands op S).1 + (Config.dspAluOperands op S).2)
  | .sub => Config.dspAluHigh op S ++ ((Config.dspAluOperands op S).1 - (Config.dspAluOperands op S).2)
  | .ad2 => Config.dspAluValue op S
  | .shiftRotate _ => Config.dspAluValue op S

/-- Overflow (R175): ADD and SUB set it on signed overflow of the two operands; without overflow the flag is not set by
them, and whether it is cleared or kept is free; shifts never set it; the other operations leave it free. -/
def aluOverflow (op : DspAluOp) (S : Dsp) : Bool :=
  match op with
  | .add => BitVec.saddOverflow (Config.dspAluOperands op S).1 (Config.dspAluOperands op S).2 ||
      (S.overflow && Config.dspOverflow op S)
  | .sub => BitVec.ssubOverflow (Config.dspAluOperands op S).1 (Config.dspAluOperands op S).2 ||
      (S.overflow && Config.dspOverflow op S)
  | .shiftRotate _ => S.overflow && Config.dspOverflow op S
  | .and => Config.dspOverflow op S
  | .or => Config.dspOverflow op S
  | .xor => Config.dspOverflow op S
  | .ad2 => Config.dspOverflow op S

/-- The ALU result and the four flags (R165: flags written). -/
def Dsp.withAlu (d : Dsp) (op : DspAluOp) (S : Dsp) : Dsp :=
  { d with ALU := aluValue op S, sign := Config.dspSign op S, zero := Config.dspZero op S, carry := Config.dspCarry op S,
           overflow := aluOverflow op S }

/-! ## Validity (R15, R25, R154) -/

/-- A slot's part of `Valid(image)` (R154): the id is the index, the denominator is at least 1 and above the remainder, a
live periodic slot has a numerator. -/
def EventSlot.valid (i : Nat) (e : EventSlot) : Bool :=
  decide (e.id = i) && decide (1 ≤ e.countDenominator.toNat) && decide (e.remainder.toNat < e.countDenominator.toNat) &&
    (!(e.live && e.periodic) || decide (1 ≤ e.countNumerator.toNat))

/-- Every slot of a table, the first of which has id `i`. -/
def slotsValid : Nat → List EventSlot → Bool
  | _, [] => true
  | i, e :: es => EventSlot.valid i e && slotsValid (i + 1) es

/-- R25: `active` implies `enabled`. -/
def DmaChannel.valid (c : DmaChannel) : Bool := !c.active || c.enabled

/-- R27: `PC < 256`, every data-RAM cursor below 64. -/
def Dsp.valid (d : Dsp) : Bool := decide (d.PC < 256) && d.CT.toList.all fun k => decide (k < 64)

/-- `Valid(image)` of R154 for a block of `n` event slots. -/
def Image.valid (n : Nat) (i : Image) : Bool :=
  decide (i.sched.ev.length = n) && slotsValid 0 i.sched.ev && i.dma.toList.all DmaChannel.valid && Dsp.valid i.dsp

/-- The image of the present state (R36). -/
def State.toImage (s : State) : Image :=
  { version := s.cfg.imageVersion, sched := s.sched, intr := s.intr, dma := s.dma, dsp := s.dsp, audioQueue := s.audioQueue }

end Sys2Proof.Machine
end

