-- ==== Sys2Proof/Machine/Handler.lean ====
section
/-! DEFINITION. Handlers as functions of the state and the fired target (R7, D10, R86): which operations one performs. -/

namespace Sys2Proof

/-- Any function of the state a handler sees, its event and the fired target that the tree of questions does not express: free
(log entry 2). What it sees is the save-state image of the block and the bus memory: no operation depends on the trace, on
TRACER (R33, R156) or on an item outside the image (R154), so a handler sees none of them. -/
opaque Config.handlerOps : Nat → Image → List Host.Cell → Nat → Cycles → List Instr

end Sys2Proof

namespace Sys2Proof.Machine

/-- The answer to a handler's question. -/
def HandlerTest.holds (q : HandlerTest) (target : Cycles) (s : State) : Bool :=
  match q with
  | .firedBefore c => decide (target.toNat < c.toNat)
  | .armed id => (s.slot id).live
  | .pending source => s.intr.status.getLsbD source
  | .channelActive ch => s.dma[ch].active

/-- The operations a handler performs, in order: a function of the state it sees, its event and the fired target (D10). -/
def HandlerAction.ops (h : HandlerAction) (s : State) (id : Nat) (target : Cycles) : List Instr :=
  match h with
  | .done => []
  | .perform op next => op :: HandlerAction.ops next s id target
  | .choose test yes no =>
    if HandlerTest.holds test target s then HandlerAction.ops yes s id target else HandlerAction.ops no s id target
  | .other code => Config.handlerOps code s.toImage s.mem id target

/-- `Handler(id)` applied to the state and the fired target (R7); an event without an entry performs nothing. -/
def State.handlerOps (s : State) (id : Nat) (target : Cycles) : List Instr :=
  match s.cfg.handlers[id]? with
  | some h => HandlerAction.ops h s id target
  | none => []

end Sys2Proof.Machine
end

