-- ==== Sys2Proof/Machine/Interrupt.lean ====
section
/-! DEFINITION. The interrupt controller, 41_interrupt.md. -/

namespace Sys2Proof.Machine

/-! ## Shared operations -/

/-- `RaiseInterrupt` on a source in range (R97): set the status bit, record the level, notify. The mask is neither read
nor written. -/
def raise (i : SourceIndex) (level : Level) (s : State) : State :=
  (s.setIntr { s.intr with status := s.intr.status ||| BitVec.twoPow 32 i, level := s.intr.level.set i level }).trace
    (.raiseInterrupt i level)

/-- `AcknowledgeInterrupt` on a source in range (R99): clear the status bit, notify. The level stays. -/
def acknowledge (i : SourceIndex) (s : State) : State :=
  (s.setIntr { s.intr with status := s.intr.status &&& ~~~(BitVec.twoPow 32 i) }).trace (.acknowledgeInterrupt i)

/-- `SetInterruptMask` (R102): all 32 bits replaced. -/
def setMask (value : Word) (s : State) : State := s.setIntr { s.intr with mask := value }

/-! ## Meanings -/

/-- R97. -/
def execRaiseInterrupt (source : Nat) (level : Level) (s : State) : Run :=
  match sourceOf source with
  | some i => .next (raise i level s)
  | none => raiseViolation .badSourceIndex s

/-- R99. -/
def execAcknowledgeInterrupt (source : Nat) (s : State) : Run :=
  match sourceOf source with
  | some i => .next (acknowledge i s)
  | none => raiseViolation .badSourceIndex s

/-- R100: a vector that belongs to no source changes nothing. -/
def execAcknowledgeVector (vector : Byte) (s : State) : Run :=
  match s.sourceOfVector vector with
  | some i => .next (acknowledge i s)
  | none => .next s

/-- R101. -/
def execGetInterruptMask (s : State) : Run := .next (s.setResult (.word s.intr.mask))

/-- R102. -/
def execSetInterruptMask (value : Word) (s : State) : Run := .next (setMask value s)

/-- R103. -/
def execGetInterruptStatus (s : State) : Run := .next (s.setResult (.word s.intr.status))

/-- R104: no state change, whatever the value. -/
def execWriteInterruptStatus (_value : Word) (s : State) : Run := .next s

/-- R106. -/
def execGetPendingInterruptLevel (s : State) : Run := .next (s.setResult (.level s.pendingLevel))

/-- R107. -/
def execGetPendingInterruptVector (s : State) : Run := .next (s.setResult (.vector s.pendingVector))

/-- R72: the pair, read in one step. -/
def execGetPendingInterrupt (s : State) : Run := .next (s.setResult (.pair s.pendingLevel s.pendingVector))

end Sys2Proof.Machine
end

