-- ==== Sys2Proof/Machine/RegisterRead.lean ====
section
/-! DEFINITION. Reading: the register surface (R66 to R70) and `MemRead` (R41 to R44), which on an address in the block's own
window is a register read (R55). -/

namespace Sys2Proof.Machine

open Host (Outcome)

/-- A free word and the state after taking it (U6). -/
def takeFreeWord (s : State) : Word × State := (Config.freeWord s.freeCount, s.takeFree)

/-- The word a register holds and the state after the read (R67, R68, R70). A DMA register returns configured fields, never
a cursor; bits that hold no field are free (log entry 9). DnR, DnW and DnC as whole words: DESIGN CHOICE, log entry 1. -/
def readRegister (r : Reg) (s : State) : Word × State :=
  match r with
  | .readAddr ch => (s.dma[ch].srcAddr, s)
  | .writeAddr ch => (s.dma[ch].dstAddr, s)
  | .count ch => (s.dma[ch].xferCount, s)
  | .addressAdd ch => (withFiller (RegLayout.addressAddFields s.cfg.layout s.dma[ch]) (takeFreeWord s).1, (takeFreeWord s).2)
  | .enable ch => (withFiller (RegLayout.enableFields s.cfg.layout s.dma[ch]) (takeFreeWord s).1, (takeFreeWord s).2)
  | .mode ch => (withFiller (RegLayout.modeFields s.cfg.layout s.dma[ch]) (takeFreeWord s).1, (takeFreeWord s).2)
  | .window w => (Config.dspWindowValue w s.dsp, s.setDsp (Dsp.windowEffect s.dsp (Config.dspWindowReadEffect w s.dsp)))
  | .ims => (s.intr.mask, s)
  | .ist => (s.intr.status, s)

/-- `RegRead` (R66): an offset that is no multiple of 4 is refused (U7), an unnamed one gives a free word (U6), inside the
register window or beyond it. DEDUCED: D30 would refuse the latter, log entry 9. -/
def regRead (offset : Word) (s : State) : Outcome (Word × State) Fault Refusal :=
  if registerAligned offset then
    match s.regAt offset with
    | some r => .next (readRegister r s)
    | none => .next (takeFreeWord s)
  else .refused .misalignedRegisterAccess

/-- Whether the read of a register would start, tick or disable its performer (U8): a window register whose read changes a run
flag of the DSP that reads it. No register read touches a channel. -/
def readDisturbs (performer : Performer) (r : Reg) (s : State) : Bool :=
  match performer with
  | .channel _ => false
  | .otherMaster => false
  | .dsp =>
    match r with
    | .window w => DspWindowEffect.touchesRun (Config.dspWindowReadEffect w s.dsp)
    | .readAddr _ => false
    | .writeAddr _ => false
    | .count _ => false
    | .addressAdd _ => false
    | .enable _ => false
    | .mode _ => false
    | .ims => false
    | .ist => false

/-- Whether the register read at an offset must not be done by this performer (U8). -/
def selfDisturbingRead (performer : Performer) (offset : Word) (s : State) : Bool :=
  match s.regAt offset with
  | some r => readDisturbs performer r s
  | none => false

/-- `MemRead(addr, n)` (R9, R44), the bytes in address order: an access that falls in the register window is a register
read (R55), of 4 bytes or refused (U7), refused too where it would disturb its performer (U8); any other is the bus's. -/
def memRead (performer : Performer) (addr : Word) (n : Nat) (s : State) : Outcome (List Byte × State) Fault Refusal :=
  if Params.touchesWindow s.cfg addr n then
    if n = 4 then
      if selfDisturbingRead performer (Params.windowOffset s.cfg addr) s then .refused .selfDisturbingAccess
      else andThen (regRead (Params.windowOffset s.cfg addr) s) fun r => .next (wordBytes r.1, r.2)
    else .refused .misalignedRegisterAccess
  else .next (readBusBytes n addr s)

/-- `MemRead(addr, 4)` as a word (R44: big-endian). -/
def memReadWord (performer : Performer) (addr : Word) (s : State) : Outcome (Word × State) Fault Refusal :=
  andThen (memRead performer addr 4 s) fun r => .next (bytesWord r.1, r.2)

/-- R66. -/
def execRegRead (offset : Word) (s : State) : Run :=
  andThen (regRead offset s) fun r => .next (r.2.setResult (.word r.1))

/-- A load of another bus master between two operations (R41): 4 bytes at `SCU_BASE + offset` are `RegRead` (R66), which
returns its word; any other load returns nothing to the block. -/
def busLoad (addr : Word) (n : Nat) (s : State) : Run :=
  andThen (memRead .otherMaster addr n s) fun r =>
  .next (if Params.touchesWindow s.cfg addr n then r.2.setResult (.word (bytesWord r.1)) else r.2)

end Sys2Proof.Machine
end

