-- ==== Sys2Proof/Machine/Dma.lean ====
section
/-! DEFINITION. The DMA engine's set-up operations, descriptor fetch and trigger, 42_dma.md. Tick is in DmaTick.lean. -/

namespace Sys2Proof.Machine

/-! ## Shared operations -/

/-- Do `f` on the channel a number names; a number above 2 is a contract violation (R181, R21). -/
def onChannel (ch : Nat) (s : State) (f : Channel → Run) : Run :=
  match channelOf ch with
  | some c => f c
  | none => raiseViolation .badChannel s

/-- `Configure` (R118): the seven configured fields. -/
def DmaChannel.configure (c : DmaChannel) (src dst count srcInc dstInc : Word) (indirect : Bool)
    (trigger : TriggerSource) : DmaChannel :=
  { c with srcAddr := src, dstAddr := dst, xferCount := count, srcAddrInc := srcInc, dstAddrInc := dstInc,
           indirect := indirect, trigger := trigger }

/-- `SetAddressUpdate` (R119). -/
def DmaChannel.setAddressUpdate (c : DmaChannel) (updateSrc updateDst : Bool) : DmaChannel :=
  { c with updateSrcAddr := updateSrc, updateDstAddr := updateDst }

/-- `SetEnabled` (R120): a disable also ends the transfer in flight; no interrupt, the cursor stays. -/
def DmaChannel.setEnabled (c : DmaChannel) (enabled : Bool) : DmaChannel :=
  { c with enabled := enabled, active := enabled && c.active }

/-- The copy of the configured fields to the cursor and the latches (R122). -/
def DmaChannel.start (c : DmaChannel) : DmaChannel :=
  { c with currSrcAddr := c.srcAddr, currDstAddr := c.dstAddr, currXferCount := c.xferCount,
           currSrcAddrInc := c.srcAddrInc, currDstAddrInc := c.dstAddrInc, currIndirect := c.indirect,
           currUpdateSrc := c.updateSrcAddr, currUpdateDst := c.updateDstAddr, endIndirect := false, active := true }

/-- The word of a descriptor that `DescLayout` puts in a place (R65). -/
def descriptorWord (k : Fin 3) (w0 w1 w2 : Word) : Word :=
  match k.val with
  | 0 => w0
  | 1 => w1
  | _ => w2

/-- The cursor of a descriptor read at `a` (R125): the end-marker is bit 31 of the source word, its other bits the
address. -/
def DmaChannel.takeDescriptor (c : DmaChannel) (a w0 w1 w2 : Word) : DmaChannel :=
  let srcWord := descriptorWord Config.descLayout.srcWord w0 w1 w2
  { c with currXferCount := descriptorWord Config.descLayout.countWord w0 w1 w2
           currDstAddr := descriptorWord Config.descLayout.dstWord w0 w1 w2
           currSrcAddr := srcWord &&& ~~~(BitVec.twoPow 32 Config.descLayout.endBit)
           endIndirect := srcWord.getLsbD Config.descLayout.endBit
           currIndirectSrc := a + Config.descLayout.stride }

/-- `FetchDescriptor` (R125): three word reads in ascending order. -/
def fetchDescriptor (ch : Channel) (s : State) : Run :=
  let a := s.dma[ch].currIndirectSrc
  andThen (memReadWord (.channel ch) a s) fun r0 =>
  andThen (memReadWord (.channel ch) (a + 4) r0.2) fun r1 =>
  andThen (memReadWord (.channel ch) (a + 8) r1.2) fun r2 =>
  .next (r2.2.setChannel ch (DmaChannel.takeDescriptor r2.2.dma[ch] a r0.1 r1.1 r2.1))

/-- Whether `Trigger` starts the channel (R122, R123): enabled, not active, the same start factor. -/
def DmaChannel.starts (c : DmaChannel) (ts : TriggerSource) : Bool :=
  c.enabled && !c.active && decide (c.trigger = ts)

/-- `Trigger` on a channel in range (R122 to R124). -/
def startChannel (ch : Channel) (ts : TriggerSource) (s : State) : Run :=
  let c := s.dma[ch]
  if DmaChannel.starts c ts then
    if c.indirect then
      fetchDescriptor ch (s.setChannel ch { DmaChannel.start c with currIndirectSrc := c.dstAddr })
    else .next (s.setChannel ch (DmaChannel.start c))
  else .next s

/-! ## Meanings -/

/-- R118. -/
def execConfigure (ch : Nat) (src dst count srcInc dstInc : Word) (indirect : Bool) (trigger : TriggerSource)
    (s : State) : Run :=
  onChannel ch s fun c =>
    .next (s.setChannel c (DmaChannel.configure s.dma[c] src dst count srcInc dstInc indirect trigger))

/-- R119. -/
def execSetAddressUpdate (ch : Nat) (updateSrc updateDst : Bool) (s : State) : Run :=
  onChannel ch s fun c => .next (s.setChannel c (DmaChannel.setAddressUpdate s.dma[c] updateSrc updateDst))

/-- R120. -/
def execSetEnabled (ch : Nat) (enabled : Bool) (s : State) : Run :=
  onChannel ch s fun c => .next (s.setChannel c (DmaChannel.setEnabled s.dma[c] enabled))

/-- R122. -/
def execTrigger (ch : Nat) (triggerSource : TriggerSource) (s : State) : Run :=
  onChannel ch s fun c => startChannel c triggerSource s

/-- R72: `Trigger(ch, Software)`. -/
def execSoftwareStart (ch : Nat) (s : State) : Run :=
  onChannel ch s fun c => startChannel c .software s

end Sys2Proof.Machine
end

