-- ==== Sys2Proof/Machine/RegisterWrite.lean ====
section
/-! DEFINITION. Writing: the register surface (R66 to R70) and `MemWrite` (R41 to R44), which on an address in the block's own
window is a register write (R55, U8). -/

namespace Sys2Proof.Machine

/-- `Configure` with the operands the register does not mention taken from the present configuration (R68). -/
def reconfigure (ch : Channel) (f : DmaChannel → DmaChannel) (s : State) : Run := .next (s.setChannel ch (f s.dma[ch]))

/-- `DnMD` (R68): `Configure` with mode and start factor, then `SetAddressUpdate`. -/
def DmaChannel.writeMode (c : DmaChannel) (l : RegLayout) (v : Word) : DmaChannel :=
  DmaChannel.setAddressUpdate
    (DmaChannel.configure c c.srcAddr c.dstAddr c.xferCount c.srcAddrInc c.dstAddrInc (v.getLsbD l.indirectBit)
      (RegLayout.startFactor l v))
    (v.getLsbD l.updateSrcBit) (v.getLsbD l.updateDstBit)

/-- `DnEN` (R68): `SetEnabled`, then a software start when the start bit is set. -/
def writeEnable (ch : Channel) (v : Word) (s : State) : Run :=
  let s := s.setChannel ch (DmaChannel.setEnabled s.dma[ch] (v.getLsbD s.cfg.layout.enableBit))
  if v.getLsbD s.cfg.layout.startBit then startChannel ch .software s else .next s

/-- A write to a DSP window register (R70): PPD replaces a word of program RAM, PDD a word of data RAM; which word, and what
else the write does, is `DspExec`'s (log entry 16). -/
def writeWindow (w : DspWindow) (v : Word) (d : Dsp) : Dsp :=
  let d' := match w with
    | .ppaf => d
    | .ppd => Dsp.setProgram d (Config.dspWindowProgramIndex d) v
    | .pda => d
    | .pdd => Dsp.write d (.ram (Config.dspWindowDataIndex d).1 (Config.dspWindowDataIndex d).2 v)
  Dsp.windowEffect d' (Config.dspWindowWriteEffect w v d)

/-- The operation a register write performs (R67, R68, R70). That each DMA operand has the register R68 gives it, DnR, DnW and
DnC whole words, is DESIGN CHOICE, log entry 1. -/
def writeRegister (r : Reg) (v : Word) (s : State) : Run :=
  match r with
  | .readAddr ch => reconfigure ch (fun c => { c with srcAddr := v }) s
  | .writeAddr ch => reconfigure ch (fun c => { c with dstAddr := v }) s
  | .count ch => reconfigure ch (fun c => { c with xferCount := v }) s
  | .addressAdd ch =>
    reconfigure ch
      (fun c => { c with srcAddrInc := RegLayout.srcInc s.cfg.layout v, dstAddrInc := RegLayout.dstInc s.cfg.layout v }) s
  | .mode ch => reconfigure ch (fun c => DmaChannel.writeMode c s.cfg.layout v) s
  | .enable ch => writeEnable ch v s
  | .window w => .next (s.setDsp (writeWindow w v s.dsp))
  | .ims => .next (setMask v s)
  | .ist => .next s

/-- `RegWrite` (R66): an offset that is no multiple of 4 is refused (U7), an unnamed one has no effect (U6), inside the
register window or beyond it. DEDUCED: D30 would refuse the latter, log entry 9. -/
def regWrite (offset value : Word) (s : State) : Run :=
  if registerAligned offset then
    match s.regAt offset with
    | some r => writeRegister r value s
    | none => .next s
  else .refused .misalignedRegisterAccess

/-- Whether a register write would start or disable channel `ch` (U8). -/
def disturbsChannel (ch : Channel) (r : Reg) (v : Word) (l : RegLayout) : Bool :=
  match r with
  | .enable ch' => decide (ch' = ch) && (v.getLsbD l.startBit || !v.getLsbD l.enableBit)
  | .readAddr _ => false
  | .writeAddr _ => false
  | .count _ => false
  | .addressAdd _ => false
  | .mode _ => false
  | .window _ => false
  | .ims => false
  | .ist => false

/-- Whether a register write changes a run flag of the DSP, and so starts, ticks or disables the DSP's DMA (U8, log entry
29). -/
def disturbsDsp (r : Reg) (v : Word) (d : Dsp) : Bool :=
  match r with
  | .window w => DspWindowEffect.touchesRun (Config.dspWindowWriteEffect w v d)
  | .readAddr _ => false
  | .writeAddr _ => false
  | .count _ => false
  | .addressAdd _ => false
  | .enable _ => false
  | .mode _ => false
  | .ims => false
  | .ist => false

/-- Whether the register write at an offset must not be done by this performer (U8). -/
def selfDisturbing (performer : Performer) (offset value : Word) (s : State) : Bool :=
  match s.regAt offset with
  | some r =>
    match performer with
    | .channel ch => disturbsChannel ch r value s.cfg.layout
    | .dsp => disturbsDsp r value s.dsp
    | .otherMaster => false
  | none => false

/-- `MemWrite` of bytes in address order (R9, R44): an access that falls in the register window is a register write (R55),
of 4 bytes or refused (U7); one that would disturb its performer is refused (U8); any other is the bus's. -/
def memWrite (performer : Performer) (addr : Word) (bytes : List Byte) (s : State) : Run :=
  if Params.touchesWindow s.cfg addr bytes.length then
    if bytes.length = 4 then
      if selfDisturbing performer (Params.windowOffset s.cfg addr) (bytesWord bytes) s then .refused .selfDisturbingAccess
      else regWrite (Params.windowOffset s.cfg addr) (bytesWord bytes) s
    else .refused .misalignedRegisterAccess
  else .next (writeBusBytes addr bytes s)

/-- A store of another bus master between two operations (R41): 4 bytes at `SCU_BASE + offset` are `RegWrite` (R66). -/
def busStore (addr : Word) (bytes : List Byte) (s : State) : Run := memWrite .otherMaster addr bytes s

/-- R66. -/
def execRegWrite (offset value : Word) (s : State) : Run := regWrite offset value s

end Sys2Proof.Machine
end

