-- ==== Sys2Proof/Machine/DmaTick.lean ====
section
/-! DEFINITION. The DMA engine's Tick, 42_dma.md R126 to R133. -/

namespace Sys2Proof.Machine

/-- The cursor after one unit transfer (R126, R127): each side advances unless held, the count drops by 1. -/
def DmaChannel.advance (c : DmaChannel) : DmaChannel :=
  { c with currSrcAddr := if c.currUpdateSrc then c.currSrcAddr + c.currSrcAddrInc else c.currSrcAddr
           currDstAddr := if c.currUpdateDst then c.currDstAddr + c.currDstAddrInc else c.currDstAddr
           currXferCount := c.currXferCount - 1 }

/-- One unit transfer (R126, R50): the read, then the write, then the cursor. -/
def unitTransfer (ch : Channel) (s : State) : Run :=
  andThen (memRead (.channel ch) s.dma[ch].currSrcAddr s.cfg.dmaUnitBytes s) fun r =>
  andThen (memWrite (.channel ch) s.dma[ch].currDstAddr r.1 r.2) fun s =>
  .next (s.setChannel ch (DmaChannel.advance s.dma[ch]))

/-- `n` unit transfers. -/
def unitTransfers (ch : Channel) : Nat → State → Run
  | 0, s => .next s
  | n + 1, s => andThen (unitTransfer ch s) fun s => unitTransfers ch n s

/-- Completion (R128): the channel goes Idle and its DMA-complete interrupt is raised. -/
def completeTransfer (ch : Channel) (s : State) : State :=
  raise (s.dmaEnd ch).source (s.dmaEnd ch).level (s.setChannel ch { s.dma[ch] with active := false })

/-- The end of a tick (R126, R128, R129): at count 0 the next descriptor is fetched, or the transfer completes. -/
def finishTick (ch : Channel) (s : State) : Run :=
  let c := s.dma[ch]
  if c.currXferCount = 0 then
    if c.currIndirect && !c.endIndirect then fetchDescriptor ch s else .next (completeTransfer ch s)
  else .next s

/-- How many unit transfers a tick performs (R126, R133). -/
def batchOf (s : State) (ch : Channel) : Nat := min s.cfg.dmaBatch s.dma[ch].currXferCount.toNat

/-- `Tick` on a channel in range (R126). -/
def tickChannel (ch : Channel) (s : State) : Run :=
  if s.dma[ch].active then andThen (unitTransfers ch (batchOf s ch) s) fun s => finishTick ch s else .next s

/-- R126. -/
def execTick (ch : Nat) (s : State) : Run := onChannel ch s fun c => tickChannel c s

end Sys2Proof.Machine
end

