-- ==== Sys2Proof/Machine/Dsp.lean ====
section
/-! DEFINITION. The SCU DSP, 44_dsp.md. The meaning of a variant is what R162 does from "execute ins by its variant" on: its
effect, then the PC advance of R171. `DspStep` adds the gate and the fetch before it, the words of a running DMA (log entry
14) and the effect of `programStep` (log entry 17); a variant issued on its own has none of them. DESIGN CHOICE, log entry
22. -/

namespace Sys2Proof.Machine

open Host (Outcome)

/-! ## Sequencing (R171) -/

/-- `(PC + 1) mod 256`. -/
def Dsp.nextSequential (d : Dsp) : Nat := (d.PC + 1) % 256

/-- "advance PC" (R171); `looped`: BTM looped this step. -/
def Dsp.advancePC (d : Dsp) (looped : Bool) : Dsp :=
  if 0 < d.jmpCounter then
    { d with jmpCounter := d.jmpCounter - 1
             PC := if d.jmpCounter - 1 = 0 then d.nextPC.toNat else Dsp.nextSequential d }
  else if looped then { d with PC := d.TOP.toNat }
  else { d with PC := Dsp.nextSequential d }

/-- Finish a step that changed only the DSP. -/
def finishDsp (d : Dsp) (s : State) : Run := .next (s.setDsp (Dsp.advancePC d false))

/-! ## The embedded DMA (R167) -/

/-- The count operand's value (R167). -/
def dspCountValue (count : DspDmaCount) (S : Dsp) : Word :=
  match count with
  | .immediate n => n
  | .register src => dspSourceValue src S

/-- The cursor a count register in the post-incrementing form advances (V32's form). -/
def dspCountWrites (count : DspDmaCount) (S : Dsp) : List DspWrite :=
  match count with
  | .immediate _ => []
  | .register src => dspSourceWrites src S

/-- The sub-state a DMA instruction loads (R167): the direction, the hold flag, the count and the increment are its
operands'; what it loads into the other four words is free, and `dmaTarget` keeps the DSP side (log entry 14). A count operand
in the post-incrementing form is read from the snapshot, and its cursor advances here, before a word moves: of a DMA of that
bank the first word's index is the advanced cursor. DESIGN CHOICE, log entry 14. -/
def Dsp.loadDma (d : Dsp) (toD0 hold : Bool) (count : DspDmaCount) (ram : DspRam) (addrInc : Word) : Dsp :=
  { Dsp.writes d (dspCountWrites count d) with
    dmaRun := true
    dmaToD0 := toD0
    dmaHold := hold
    dmaCount := dspCountValue count d
    dmaSrc := (Config.dspDmaLoad (.dma toD0 hold count ram addrInc) d).src
    dmaDst := (Config.dspDmaLoad (.dma toD0 hold count ram addrInc) d).dst
    dmaReadAddr := (Config.dspDmaLoad (.dma toD0 hold count ram addrInc) d).readAddr
    dmaWriteAddr := (Config.dspDmaLoad (.dma toD0 hold count ram addrInc) d).writeAddr
    dmaAddrInc := addrInc
    dmaTarget := ram }

/-- The DSP-side word the next unit of the DMA reads. -/
def Dsp.dmaWord (d : Dsp) : Word :=
  match d.dmaTarget with
  | .data bank => Dsp.ramAt d bank (Dsp.cursor d bank)
  | .program => Dsp.programAt d (Config.dspDmaProgramIndex d)

/-- Store a word on the DSP side of the DMA. -/
def Dsp.dmaStore (d : Dsp) (v : Word) : Dsp :=
  match d.dmaTarget with
  | .data bank => Dsp.write d (.ram bank (Dsp.cursor d bank) v)
  | .program => Dsp.setProgram d (Config.dspDmaProgramIndex d) v

/-- Advance the DMA by one word: the bank's cursor modulo 64 (R161), the D0 address unless held, the count (R167). -/
def Dsp.dmaAdvance (d : Dsp) : Dsp :=
  let d1 := match d.dmaTarget with
    | .data bank => Dsp.write d (.ct bank (Dsp.cursor d bank + 1))
    | .program => d
  { d1 with
    dmaReadAddr := if d.dmaToD0 || d.dmaHold then d.dmaReadAddr else d.dmaReadAddr + d.dmaAddrInc
    dmaWriteAddr := if !d.dmaToD0 || d.dmaHold then d.dmaWriteAddr else d.dmaWriteAddr + d.dmaAddrInc
    dmaCount := d.dmaCount - 1 }

/-- Move one word (R167): one `MemWrite(addr, 4, v)` towards the D0 bus, one `MemRead(addr, 4)` from it. -/
def dspDmaUnit (s : State) : Run :=
  if s.dsp.dmaToD0 then
    andThen (memWrite .dsp s.dsp.dmaWriteAddr (wordBytes (Dsp.dmaWord s.dsp)) s) fun s =>
    .next (s.setDsp (Dsp.dmaAdvance s.dsp))
  else
    andThen (memReadWord .dsp s.dsp.dmaReadAddr s) fun r =>
    .next (r.2.setDsp (Dsp.dmaAdvance (Dsp.dmaStore r.2.dsp r.1)))

/-- Move `n` words. -/
def dspDmaUnits : Nat → State → Run
  | 0, s => .next s
  | n + 1, s => andThen (dspDmaUnit s) fun s => dspDmaUnits n s

/-- `dmaRun` marks a transfer in progress, `dmaCount` the words left (R167). -/
def Dsp.dmaSettle (d : Dsp) : Dsp := { d with dmaRun := decide (d.dmaCount ≠ 0) }

/-- Move at most `n` words of the running DMA and note whether it is over. -/
def dspDmaMove (n : Nat) (s : State) : Run :=
  andThen (dspDmaUnits (min n s.dsp.dmaCount.toNat) s) fun s => .next (s.setDsp (Dsp.dmaSettle s.dsp))

/-- The words a DMA that is running moves at a step (log entry 14). -/
def dspDmaProgress (s : State) : Run :=
  if s.dsp.dmaRun then dspDmaMove (Config.dspDmaWordsPerStep s.dsp) s else .next s

/-! ## Meanings of the variants -/

/-- The DSP after an `Operation`, before the PC advance (R165): every write is computed from the snapshot `S`. -/
def operate (alu : DspAluOp) (xbus ybus d1bus : DspSlot) (S : Dsp) : Dsp :=
  Dsp.withAlu
    (Dsp.writes S
      (inOrder (Config.dspSlotOrder (.operation alu xbus ybus d1bus) S)
        (dspSlotWrites .x xbus S) (dspSlotWrites .y ybus S) (dspSlotWrites .d1 d1bus S)))
    alu S

/-- R165. -/
def execDspOperation (alu : DspAluOp) (xbus ybus d1bus : DspSlot) (s : State) : Run :=
  finishDsp (operate alu xbus ybus d1bus s.dsp) s

/-- R166. -/
def execDspMVI (dest : DspDest) (imm : Word) (width : Nat) (cond : DspCond) (s : State) : Run :=
  finishDsp
    (if condHolds cond s.dsp then Dsp.writes s.dsp (dspImmediateWrites dest imm width s.dsp) else s.dsp) s

/-- R167. -/
def execDspDMA (toD0 hold : Bool) (count : DspDmaCount) (ram : DspRam) (addrInc : Word) (s : State) : Run :=
  let d := Dsp.loadDma s.dsp toD0 hold count ram addrInc
  andThen (dspDmaMove (Config.dspDmaWordsAtOnce d) ((s.setDsp d).trace (.dspDMA toD0 hold d.dmaCount))) fun s =>
  finishDsp s.dsp s

/-- R168. -/
def execDspJMP (cond : DspCond) (target : BitVec 8) (s : State) : Run :=
  finishDsp (if condHolds cond s.dsp then { s.dsp with nextPC := target, jmpCounter := 2 } else s.dsp) s

/-- R172: what LPS writes is free. -/
def execDspLPS (s : State) : Run := finishDsp (Dsp.writes s.dsp (Config.dspLpsWrites s.dsp)) s

/-- R173. -/
def execDspBTM (s : State) : Run :=
  if s.dsp.LOP = 0 then finishDsp s.dsp s
  else .next (s.setDsp (Dsp.advancePC { s.dsp with LOP := s.dsp.LOP - 1 } true))

/-- The program halts (R174). -/
def Dsp.halt (d : Dsp) : Dsp := { d with programEnded := true, programExecuting := false }

/-- R174. -/
def execDspEND (s : State) : Run := finishDsp (Dsp.halt s.dsp) s

/-- R169. -/
def execDspENDI (s : State) : Run :=
  finishDsp (Dsp.halt s.dsp) (raise s.cfg.dspEnd.source s.cfg.dspEnd.level s)

/-- R170: nothing but the PC advance. -/
def execDspInvalid (s : State) : Run := finishDsp s.dsp s

/-! ## The step (R162) -/

/-- Execute a decoded instruction by its variant (R162, R164). -/
def executeDsp (i : DspInstr) (s : State) : Run :=
  match i with
  | .operation alu x y d1 => execDspOperation alu x y d1 s
  | .mvi dest imm width cond => execDspMVI dest imm width cond s
  | .dma toD0 hold count ram inc => execDspDMA toD0 hold count ram inc s
  | .jmp cond target => execDspJMP cond target s
  | .lps => execDspLPS s
  | .btm => execDspBTM s
  | .programEnd => execDspEND s
  | .programEndi => execDspENDI s
  | .invalid => execDspInvalid s

/-- `programExecuting && !programPaused` (R162). -/
def Dsp.running (d : Dsp) : Bool := d.programExecuting && !d.programPaused

/-- What `programStep` does after a step: free (R162, log entry 17). -/
def Dsp.afterStep (d : Dsp) : Dsp :=
  if d.programStep then { d with programPaused := Config.dspStepPauses d, programStep := Config.dspStepAgain d } else d

/-- Fetch, decode, execute, advance (R162 to R164). -/
def runDspInstruction (s : State) : Run :=
  andThen (executeDsp (Config.dspDecode (Dsp.programAt s.dsp s.dsp.PC)) s) fun s => .next (s.setDsp (Dsp.afterStep s.dsp))

/-- `DspStep` (R162). A DMA in progress first moves its words. Whether the program stalls in that step is free, in the step that
moves the last words too; where it does not, the instruction runs on the DSP after the words have moved. DESIGN CHOICE, log
entry 14. -/
def dspStep (s : State) : Run :=
  if Dsp.running s.dsp then
    andThen (dspDmaProgress s) fun t =>
    if s.dsp.dmaRun && Config.dspDmaStalls t.dsp then .next t else runDspInstruction t
  else .next s

/-- R162. -/
def execDspStep (s : State) : Run := dspStep s

end Sys2Proof.Machine
end

