-- ==== Sys2Proof/Machine/System.lean ====
section
/-! DEFINITION. Signals, the SCU tick, the audio queue, reset and save states, 43_system.md. -/

namespace Sys2Proof.Machine

/-! ## Signals (R142) -/

/-- `Signal(sig)`: the interrupt, then the channels in ascending order. -/
def signal (sig : Signal) (s : State) : Run :=
  andThen (startChannel 0 (.onSignal sig) (raise (s.signalEntry sig).source (s.signalEntry sig).level s)) fun s =>
  andThen (startChannel 1 (.onSignal sig) s) fun s =>
  startChannel 2 (.onSignal sig) s

/-- R142. -/
def execSignal (sig : Signal) (s : State) : Run := signal sig s

/-- R72: `Signal(VBlankIN)`. -/
def execTriggerVBlankIN (s : State) : Run := signal .vBlankIN s

/-- R72: `Signal(VBlankOUT)`. -/
def execTriggerVBlankOUT (s : State) : Run := signal .vBlankOUT s

/-- R72: `Signal(HBlankIN)`. -/
def execTriggerHBlankIN (s : State) : Run := signal .hBlankIN s

/-- R72: `Signal(External(N))`. -/
def execCBTriggerExternalInterruptN (n : Fin 16) (s : State) : Run := signal (.external n) s

/-! ## The SCU tick (R147) -/

/-- R147: the channels in index order, then the DSP, which checks its own gate (R162). -/
def execScuTick (s : State) : Run :=
  andThen (tickChannel 0 s) fun s =>
  andThen (tickChannel 1 s) fun s =>
  andThen (tickChannel 2 s) fun s =>
  dspStep s

/-! ## Audio queue (R150) -/

/-- R150: enqueue a request. -/
def execPostAudioInterrupt (source : Nat) (level : Level) (s : State) : Run :=
  match sourceOf source with
  | some i => .next (s.setAudioQueue (s.audioQueue ++ [⟨i, level⟩]))
  | none => raiseViolation .badSourceIndex s

/-- Raise every request, oldest first. -/
def raiseAll (q : List SourceLevel) (s : State) : State := q.foldl (fun s e => raise e.source e.level s) s

/-- R150: raise the requests and empty the queue. -/
def execDrainAudioQueue (s : State) : Run := .next ((raiseAll s.audioQueue s).setAudioQueue [])

/-! ## Reset (R151) -/

/-- The reset values of R34. Memory, the parameters and the environment's inputs are not the block's. -/
def resetBlock (kind : ResetKind) (s : State) : State :=
  { s with
    sched := { currCycle := 0, ev := s.sched.ev.map fun e => EventSlot.reset e.id }
    intr := Intr.reset
    dma := Vector.replicate 3 DmaChannel.reset
    dsp := match kind with
      | .hard => Dsp.reset
      | .soft => Dsp.softReset s.dsp
    audioQueue := [] }

/-- R151. -/
def execReset (kind : ResetKind) (s : State) : Run := .next (resetBlock kind s)

/-! ## Save states (R153, R154) -/

/-- R153. -/
def execSaveState (s : State) : Run := .next (s.setResult (.image s.toImage))

/-- Whether `LoadState` accepts an image (R154). -/
def State.accepts (s : State) (i : Image) : Bool :=
  decide (i.version = s.cfg.imageVersion) && Image.valid s.sched.ev.length i

/-- Every item of the image takes its saved value (R154). -/
def State.restore (s : State) (i : Image) : State :=
  { s with sched := i.sched, intr := i.intr, dma := i.dma, dsp := i.dsp, audioQueue := i.audioQueue }

/-- R154: a rejected load changes nothing but the answer. -/
def execLoadState (image : Image) (s : State) : Run :=
  if s.accepts image then .next ((s.restore image).setResult .ok) else .next (s.setResult .rejected)

end Sys2Proof.Machine
end

