-- ==== Sys2Proof/Machine/Scheduler.lean ====
section
/-! DEFINITION. The event scheduler, 40_scheduler.md. AdvanceTo runs the handlers, so this file comes after the other
operations. -/

namespace Sys2Proof.Machine

/-! ## Schedule, SetEventPeriod, Cancel -/

/-- R78. -/
def execSchedule (id : Nat) (delayCycles : Cycles) (periodic : Bool) (s : State) : Run :=
  if s.knowsEvent id then
    let e := s.slot id
    if periodic && (decide (e.countNumerator = 0) || decide (e.countDenominator = 0)) then raiseViolation .badPeriod s
    else
      .next (s.setSlot id { e with target := s.sched.currCycle + delayCycles, periodic := periodic, remainder := 0,
                                   live := true })
  else raiseViolation .unknownEventId s

/-- R80. -/
def execSetEventPeriod (id : Nat) (num den : Cycles) (s : State) : Run :=
  if s.knowsEvent id then
    if num = 0 ∨ den = 0 then raiseViolation .badPeriod s
    else .next (s.setSlot id { s.slot id with countNumerator := num, countDenominator := den, remainder := 0 })
  else raiseViolation .unknownEventId s

/-- R81. -/
def execCancel (id : Nat) (s : State) : Run :=
  if s.knowsEvent id then .next (s.setSlot id { s.slot id with live := false })
  else raiseViolation .unknownEventId s

/-! ## Handlers (R86) -/

/-- An operation performed inside a handler (R86): `AdvanceTo`, `Reset` and `LoadState` are contract violations there. -/
def performNested (i : Instr) (s : State) : Run :=
  match i with
  | .schedule id delayCycles periodic => execSchedule id delayCycles periodic s
  | .setEventPeriod id num den => execSetEventPeriod id num den s
  | .cancel id => execCancel id s
  | .advanceTo _ => raiseViolation .reentrant s
  | .raiseInterrupt source level => execRaiseInterrupt source level s
  | .acknowledgeInterrupt source => execAcknowledgeInterrupt source s
  | .acknowledgeVector vector => execAcknowledgeVector vector s
  | .getInterruptMask => execGetInterruptMask s
  | .setInterruptMask value => execSetInterruptMask value s
  | .getInterruptStatus => execGetInterruptStatus s
  | .writeInterruptStatus value => execWriteInterruptStatus value s
  | .getPendingInterruptLevel => execGetPendingInterruptLevel s
  | .getPendingInterruptVector => execGetPendingInterruptVector s
  | .configure ch src dst count srcInc dstInc indirect ts => execConfigure ch src dst count srcInc dstInc indirect ts s
  | .setAddressUpdate ch updateSrc updateDst => execSetAddressUpdate ch updateSrc updateDst s
  | .setEnabled ch enabled => execSetEnabled ch enabled s
  | .trigger ch ts => execTrigger ch ts s
  | .tick ch => execTick ch s
  | .signal sig => execSignal sig s
  | .scuTick => execScuTick s
  | .reset _ => raiseViolation .reentrant s
  | .regRead offset => execRegRead offset s
  | .regWrite offset value => execRegWrite offset value s
  | .saveState => execSaveState s
  | .loadState _ => raiseViolation .reentrant s
  | .postAudioInterrupt source level => execPostAudioInterrupt source level s
  | .drainAudioQueue => execDrainAudioQueue s
  | .dspStep => execDspStep s
  | .triggerVBlankIN => execTriggerVBlankIN s
  | .triggerVBlankOUT => execTriggerVBlankOUT s
  | .triggerHBlankIN => execTriggerHBlankIN s
  | .cbTriggerExternalInterruptN n => execCBTriggerExternalInterruptN n s
  | .softwareStart ch => execSoftwareStart ch s
  | .getPendingInterrupt => execGetPendingInterrupt s
  | .dspOperation alu x y d1 => execDspOperation alu x y d1 s
  | .dspMVI dest imm width cond => execDspMVI dest imm width cond s
  | .dspDMA toD0 hold count ram inc => execDspDMA toD0 hold count ram inc s
  | .dspJMP cond target => execDspJMP cond target s
  | .dspLPS => execDspLPS s
  | .dspBTM => execDspBTM s
  | .dspEND => execDspEND s
  | .dspENDI => execDspENDI s
  | .dspInvalid => execDspInvalid s

/-- A handler's operations in order; a contract violation ends it (R181, log entry 4). -/
def performAll : List Instr → State → Run
  | [], s => .next s
  | i :: is, s =>
    andThen (performNested i s) fun s => if s.fault.isSome then .next s else performAll is s

/-- `perform Handler(e) with fired target t` (R82, R86): the operations it chooses from the state it sees and `t`. -/
def invokeHandler (id : Nat) (target : Cycles) (s : State) : Run := performAll (s.handlerOps id target) s

/-! ## AdvanceTo (R82) -/

/-- Fire one event: the slot is rearmed or cleared, then its handler runs with the target it had (R82, R86). -/
def fireEvent (id : Nat) (e : EventSlot) (s : State) : Run := invokeHandler id e.target (s.setSlot id (EventSlot.fired e))

/-- The loop of R82: the due set is computed again from the live table after every handler (R86). It ends when nothing is
due, or at a contract violation of a handler; out of fuel it is stuck (U2, log entry 5). -/
def dispatchDue : Nat → Cycles → State → Run
  | 0, _, _ => .fault .advanceToDoesNotReturn
  | fuel + 1, cycle, s =>
    if s.fault.isSome then .next s
    else
      match nextDue cycle 0 s.sched.ev with
      | none => .next s
      | some (id, e) => andThen (fireEvent id e s) fun s => dispatchDue fuel cycle s

/-- More firings than any table of periodic and one-shot events can make in one call when no handler re-arms an event:
each slot then fires at most 2^128 times (log entry 5). -/
def dispatchFuel (s : State) : Nat := 2 ^ 128 * (s.sched.ev.length + 1)

/-- R82, R83. -/
def execAdvanceTo (cycle : Cycles) (s : State) : Run :=
  if due s.sched.currCycle cycle then dispatchDue (dispatchFuel s) cycle (s.setCurrCycle cycle)
  else raiseViolation .timeBackwards s

end Sys2Proof.Machine
end

