-- ==== Sys2Proof/Machine/Fetch.lean ====
section
/-! DEFINITION. Where the operations come from (R11, R28): the queue of issued operations, in record or text form; which
agent may perform what (R86, R150, R152, R190); the composition SystemStep (R149). -/

namespace Sys2Proof.Machine

/-- What stands at the head of the queue. -/
inductive Fetched where
  /-- No agent has issued anything. -/
  | idle
  /-- The driver begins a system step. -/
  | round (r : SystemStep) (rest : List Issue)
  /-- The system step under way ends. -/
  | roundEnd (rest : List Issue)
  /-- Another bus master stores bytes. -/
  | busStore (addr : Word) (bytes : List Byte) (rest : List Issue)
  /-- Another bus master loads bytes. -/
  | busLoad (addr : Word) (bytes : Nat) (rest : List Issue)
  /-- An agent performs an operation. -/
  | operation (agent : Agent) (op : Instr) (rest : List Issue)
  /-- Bytes that spell no operation. -/
  | undecodable (reason : DecodeError)
  deriving DecidableEq, Repr

/-- Take the next operation from the queue. Records of one entry follow each other: what the first leaves stays. -/
def fetch (q : List Issue) : Fetched :=
  match q with
  | [] => .idle
  | .systemStep r :: q => .round r q
  | .systemStepEnd :: q => .roundEnd q
  | .busStore addr bytes :: q => .busStore addr bytes q
  | .busLoad addr bytes :: q => .busLoad addr bytes q
  | .call agent (.text op) :: q => .operation agent op q
  | .call agent (.record bytes) :: q =>
    match decode bytes with
    | .ok (op, []) => .operation agent op q
    | .ok (op, b :: bs) => .operation agent op (.call agent (.record (b :: bs)) :: q)
    | .error e => .undecodable e

/-- The operations that are contract violations inside a handler or a CPU step (R86, R152, R181 code 6). -/
def boundaryOnly (i : Instr) : Bool :=
  match i with
  | .advanceTo _ => true
  | .reset _ => true
  | .loadState _ => true
  | .schedule .. | .setEventPeriod .. | .cancel .. => false
  | .raiseInterrupt .. | .acknowledgeInterrupt .. | .acknowledgeVector .. | .getInterruptMask => false
  | .setInterruptMask .. | .getInterruptStatus | .writeInterruptStatus .. => false
  | .getPendingInterruptLevel | .getPendingInterruptVector | .getPendingInterrupt => false
  | .configure .. | .setAddressUpdate .. | .setEnabled .. | .trigger .. | .tick .. | .softwareStart .. => false
  | .signal .. | .scuTick | .regRead .. | .regWrite .. | .saveState => false
  | .postAudioInterrupt .. | .drainAudioQueue | .dspStep => false
  | .triggerVBlankIN | .triggerVBlankOUT | .triggerHBlankIN | .cbTriggerExternalInterruptN .. => false
  | .dspOperation .. | .dspMVI .. | .dspDMA .. | .dspJMP .. | .dspLPS | .dspBTM | .dspEND | .dspENDI | .dspInvalid => false

/-- `PostAudioInterrupt`, the only operation another thread may perform (R150). -/
def postsAudio (i : Instr) : Bool :=
  match i with
  | .postAudioInterrupt .. => true
  | .schedule .. | .setEventPeriod .. | .cancel .. | .advanceTo .. => false
  | .raiseInterrupt .. | .acknowledgeInterrupt .. | .acknowledgeVector .. | .getInterruptMask => false
  | .setInterruptMask .. | .getInterruptStatus | .writeInterruptStatus .. => false
  | .getPendingInterruptLevel | .getPendingInterruptVector | .getPendingInterrupt => false
  | .configure .. | .setAddressUpdate .. | .setEnabled .. | .trigger .. | .tick .. | .softwareStart .. => false
  | .signal .. | .scuTick | .reset .. | .regRead .. | .regWrite .. | .saveState | .loadState .. => false
  | .drainAudioQueue | .dspStep => false
  | .triggerVBlankIN | .triggerVBlankOUT | .triggerHBlankIN | .cbTriggerExternalInterruptN .. => false
  | .dspOperation .. | .dspMVI .. | .dspDMA .. | .dspJMP .. | .dspLPS | .dspBTM | .dspEND | .dspENDI | .dspInvalid => false

/-- The operations performed only between two system steps, the driver's too (R152). -/
def betweenStepsOnly (i : Instr) : Bool :=
  match i with
  | .advanceTo _ => false
  | i => boundaryOnly i

/-- What becomes of an operation an agent issues. -/
inductive Admission where
  | perform
  | violate (r : ViolationReason)
  | refuse (r : Refusal)
  deriving DecidableEq, Repr

/-- R152, R181 code 6: from a CPU step, or from a peripheral, whose calls are made inside one or inside `AdvanceTo` (R143),
`AdvanceTo`, `Reset` and `LoadState` are contract violations; so are the driver's `Reset` and `LoadState` while a system step
is under way. R150, R190: the audio thread may only post. Every other operation is any agent's (R190). -/
def admission (inSystemStep : Bool) (agent : Agent) (i : Instr) : Admission :=
  match agent with
  | .masterSH2 => if boundaryOnly i then .violate .reentrant else .perform
  | .slaveSH2 => if boundaryOnly i then .violate .reentrant else .perform
  | .audioThread => if postsAudio i then .perform else .refuse .offThreadOperation
  | .peripheral => if boundaryOnly i then .violate .reentrant else .perform
  | .systemDriver => if inSystemStep && betweenStepsOnly i then .violate .reentrant else .perform

/-- A CPU's step (R149): one poll of the pending pair, then what the CPU performs. -/
def cpuStep (agent : Agent) (ops : List Instr) : List Issue :=
  .call agent (.text .getPendingInterrupt) :: ops.map fun i => .call agent (.text i)

/-- `SystemStep` (R149) from a counter value: the master; drain, advance by the master's cycles, tick; the slave if it is
enabled; then the boundary to the next step (R152). -/
def expandRound (currCycle : Cycles) (r : SystemStep) : List Issue :=
  cpuStep .masterSH2 r.masterOps ++
    [.call .systemDriver (.text .drainAudioQueue),
     .call .systemDriver (.text (.advanceTo (currCycle + r.cycles))),
     .call .systemDriver (.text .scuTick)] ++
    (if r.slaveEnabled then cpuStep .slaveSH2 r.slaveOps else []) ++ [.systemStepEnd]

end Sys2Proof.Machine
end

