-- ==== Sys2Proof/Machine/Dispatch.lean ====
section
/-! DEFINITION. One arm for each operation. A DSP variant's arm is its effect and the PC advance alone, without what `DspStep`
adds around it: DESIGN CHOICE, log entry 22. -/

namespace Sys2Proof.Machine

def exec (i : Instr) (s : State) : Host.Outcome State Fault Refusal :=
  match i with
  | .schedule id delayCycles periodic => Sys2Proof.Machine.execSchedule id delayCycles periodic s
  | .setEventPeriod id num den => Sys2Proof.Machine.execSetEventPeriod id num den s
  | .cancel id => Sys2Proof.Machine.execCancel id s
  | .advanceTo cycle => Sys2Proof.Machine.execAdvanceTo cycle s
  | .raiseInterrupt source level => Sys2Proof.Machine.execRaiseInterrupt source level s
  | .acknowledgeInterrupt source => Sys2Proof.Machine.execAcknowledgeInterrupt source s
  | .acknowledgeVector vector => Sys2Proof.Machine.execAcknowledgeVector vector s
  | .getInterruptMask => Sys2Proof.Machine.execGetInterruptMask s
  | .setInterruptMask value => Sys2Proof.Machine.execSetInterruptMask value s
  | .getInterruptStatus => Sys2Proof.Machine.execGetInterruptStatus s
  | .writeInterruptStatus value => Sys2Proof.Machine.execWriteInterruptStatus value s
  | .getPendingInterruptLevel => Sys2Proof.Machine.execGetPendingInterruptLevel s
  | .getPendingInterruptVector => Sys2Proof.Machine.execGetPendingInterruptVector s
  | .configure ch src dst count srcInc dstInc indirect ts => Sys2Proof.Machine.execConfigure ch src dst count srcInc dstInc indirect ts s
  | .setAddressUpdate ch updateSrc updateDst => Sys2Proof.Machine.execSetAddressUpdate ch updateSrc updateDst s
  | .setEnabled ch enabled => Sys2Proof.Machine.execSetEnabled ch enabled s
  | .trigger ch ts => Sys2Proof.Machine.execTrigger ch ts s
  | .tick ch => Sys2Proof.Machine.execTick ch s
  | .signal sig => Sys2Proof.Machine.execSignal sig s
  | .scuTick => Sys2Proof.Machine.execScuTick s
  | .reset kind => Sys2Proof.Machine.execReset kind s
  | .regRead offset => Sys2Proof.Machine.execRegRead offset s
  | .regWrite offset value => Sys2Proof.Machine.execRegWrite offset value s
  | .saveState => Sys2Proof.Machine.execSaveState s
  | .loadState image => Sys2Proof.Machine.execLoadState image s
  | .postAudioInterrupt source level => Sys2Proof.Machine.execPostAudioInterrupt source level s
  | .drainAudioQueue => Sys2Proof.Machine.execDrainAudioQueue s
  | .dspStep => Sys2Proof.Machine.execDspStep s
  | .triggerVBlankIN => Sys2Proof.Machine.execTriggerVBlankIN s
  | .triggerVBlankOUT => Sys2Proof.Machine.execTriggerVBlankOUT s
  | .triggerHBlankIN => Sys2Proof.Machine.execTriggerHBlankIN s
  | .cbTriggerExternalInterruptN n => Sys2Proof.Machine.execCBTriggerExternalInterruptN n s
  | .softwareStart ch => Sys2Proof.Machine.execSoftwareStart ch s
  | .getPendingInterrupt => Sys2Proof.Machine.execGetPendingInterrupt s
  | .dspOperation alu x y d1 => Sys2Proof.Machine.execDspOperation alu x y d1 s
  | .dspMVI dest imm width cond => Sys2Proof.Machine.execDspMVI dest imm width cond s
  | .dspDMA toD0 hold count ram inc => Sys2Proof.Machine.execDspDMA toD0 hold count ram inc s
  | .dspJMP cond target => Sys2Proof.Machine.execDspJMP cond target s
  | .dspLPS => Sys2Proof.Machine.execDspLPS s
  | .dspBTM => Sys2Proof.Machine.execDspBTM s
  | .dspEND => Sys2Proof.Machine.execDspEND s
  | .dspENDI => Sys2Proof.Machine.execDspENDI s
  | .dspInvalid => Sys2Proof.Machine.execDspInvalid s

end Sys2Proof.Machine
end

