-- ==== Sys2Proof/Machine/Step.lean ====
section
/-! DEFINITION. One step of the machine: the next issued operation, performed atomically (R49). -/

namespace Sys2Proof.Machine

/-- One step. A state whose mark is set has no further meaning (R32, R181). With nothing issued the block is passive
(R201). -/
def step (s : State) : Host.Outcome State Fault Refusal :=
  match s.fault with
  | some r => .fault (.contractViolation r)
  | none =>
    match fetch s.issue with
    | .idle => .next s
    | .round r rest => .next ((s.setInSystemStep true).setIssue (expandRound s.sched.currCycle r ++ rest))
    | .roundEnd rest => .next ((s.setInSystemStep false).setIssue rest)
    | .busStore addr bytes rest => busStore addr bytes (s.setIssue rest)
    | .busLoad addr bytes rest => busLoad addr bytes (s.setIssue rest)
    | .undecodable e => .refused (.undecodable e)
    | .operation agent i rest =>
      match admission s.inSystemStep agent i with
      | .perform => exec i (s.setIssue rest)
      | .violate r => raiseViolation r (s.setIssue rest)
      | .refuse r => .refused r

/-- The state in which the system driver has issued, before everything else, the record an opcode-table word spells. -/
def State.withFetchWord (s : State) (nbits w : Nat) : State :=
  s.setIssue (.call .systemDriver (.record (tableRecord nbits w)) :: s.issue)

end Sys2Proof.Machine
end

