-- ==== Sys2Proof/Safety.lean ====
section
/-! DEFINITION. What counts as a well-formed state and a safe one, in the terms statements use. -/

namespace Sys2Proof.Machine

/-- The invariants of the document and the spec (R15, R25, R27, R154) and the canonical form of memory: the state's own image
is valid and its memory is in canonical form. -/
def State.Inv (s : State) : Prop :=
  slotsValid 0 s.sched.ev = true ∧ (∀ ch : Channel, DmaChannel.valid s.dma[ch] = true) ∧ Dsp.valid s.dsp = true ∧
    Memory.wf s.mem = true

/-- A state of which something may be claimed: the mark `fault` is not set (R32, R181). -/
def State.Safe (s : State) : Prop := s.fault = none

/-- No handler performs anything. -/
def State.QuietHandlers (s : State) : Prop := ∀ h ∈ s.cfg.handlers, h = .done

/-- No byte of an access lies in the block's own register window (R55). -/
def State.OffWindow (s : State) (addr : Word) (n : Nat) : Prop := Params.touchesWindow s.cfg addr n = false

end Sys2Proof.Machine
end

