-- ==== Sys2Proof/Certificates/Slice0/Obligations.lean ====
section
/-! DEFINITION. What is claimed of the model, from the numbered rules of spec/. First the vocabulary of the statements, in
`Sys2Proof.Claims`; then one definition for each statement. Where a statement rests on a choice of the model, its docstring
names the log entry (notes/assumptions/). -/

namespace Sys2Proof.Claims

open Sys2Proof.Machine

/-! ## Vocabulary -/

/-- `id < NUM_EVENTS and Registered(id)` (R78). -/
def Known (s : State) (id : Nat) : Prop := id < s.sched.ev.length ∧ s.cfg.registered[id]? = some true

/-- What a contract violation leaves (R181): the mark takes the reason if it is not set; no other state changes. -/
def faulted (s : State) (r : ViolationReason) : State := { s with fault := some (s.fault.getD r) }

/-- `AdvanceTo`, `Reset`, `LoadState` (R86, R181 code 6). -/
def Boundary (i : Instr) : Prop := (∃ c, i = .advanceTo c) ∨ (∃ k, i = .reset k) ∨ ∃ image, i = .loadState image

/-- `Reset`, `LoadState` (R152). -/
def BetweenSteps (i : Instr) : Prop := (∃ k, i = .reset k) ∨ ∃ image, i = .loadState image

/-- Which agent may perform which operation (R143, R150, R152, R190; log entry 26): the driver any, but `Reset` and `LoadState`
only between system steps; a CPU or a peripheral any that is no boundary operation; the audio thread only the post. -/
def Admitted (s : State) (agent : Agent) (i : Instr) : Prop :=
  match agent with
  | .systemDriver => s.inSystemStep = true → ¬ BetweenSteps i
  | .masterSH2 => ¬ Boundary i
  | .slaveSH2 => ¬ Boundary i
  | .peripheral => ¬ Boundary i
  | .audioThread => ∃ source level, i = .postAudioInterrupt source level

/-- The head of the queue is a call of `i` by the agent, in text form or as the first of some records, and `q` is the queue
after it: the records that follow stay issued. -/
def Calls (s : State) (agent : Agent) (i : Instr) (q : List Issue) : Prop :=
  s.issue = .call agent (.text i) :: q ∨
    ∃ bytes rest q', decode bytes = .ok (i, rest) ∧ s.issue = .call agent (.record bytes) :: q' ∧
      q = if rest = [] then q' else .call agent (.record rest) :: q'

/-- The state a handler sees (R82, R86): the counter at `cycle`, the fired slot rearmed or cleared. -/
def firing (s : State) (cycle : Cycles) (id : Nat) (e : EventSlot) : State :=
  { s with sched := { currCycle := cycle, ev := s.sched.ev.set id (EventSlot.fired e) } }

/-- The same block on another bus: other memory, other devices. -/
def onBus (s : State) (m : List Host.Cell) (devices : List Region) : State :=
  { s with mem := m, cfg := { s.cfg with devices := devices } }

/-- The trace after a notification (R33, R156). -/
def traced (s : State) (e : TraceEvent) : List TraceEvent := if s.cfg.tracer then s.traceLog ++ [e] else s.traceLog

/-- Status 1 and mask 0 (R105). -/
def Visible (s : State) (i : SourceIndex) : Prop := s.intr.status.getLsbD i = true ∧ s.intr.mask.getLsbD i = false

/-- The interrupt registers after `RaiseInterrupt(i, level)` (R97): bit `i` of the status, entry `i` of the levels. -/
def Raised (i : SourceIndex) (level : Level) (r r' : Intr) : Prop :=
  (∀ j : SourceIndex, r'.status.getLsbD j = (decide (j = i) || r.status.getLsbD j)) ∧
    (∀ j : SourceIndex, r'.level[j] = if j = i then level else r.level[j]) ∧ r'.mask = r.mask

/-- The configured fields of a channel (R22). -/
def configured (c : DmaChannel) : Word × Word × Word × Word × Word × Bool × Bool × Bool × Bool × TriggerSource :=
  (c.srcAddr, c.dstAddr, c.xferCount, c.srcAddrInc, c.dstAddrInc, c.updateSrcAddr, c.updateDstAddr, c.enabled, c.indirect,
    c.trigger)

/-- The copy `Trigger` makes (R122): the cursor, the latches, `endIndirect` cleared, `active` set. -/
def started (c : DmaChannel) : DmaChannel :=
  { c with
    currSrcAddr := c.srcAddr
    currDstAddr := c.dstAddr
    currXferCount := c.xferCount
    currSrcAddrInc := c.srcAddrInc
    currDstAddrInc := c.dstAddrInc
    currIndirect := c.indirect
    currUpdateSrc := c.updateSrcAddr
    currUpdateDst := c.updateDstAddr
    endIndirect := false
    active := true }

/-- The condition under which `Trigger(ch, ts)` starts a channel (R122). -/
def Startable (c : DmaChannel) (ts : TriggerSource) : Prop := c.enabled = true ∧ c.active = false ∧ c.trigger = ts

/-- The big-endian word at a bus address of plain memory (R44, R46). -/
def wordAt (m : List Host.Cell) (a : Word) : Word :=
  Memory.read m a.toNat ++ Memory.read m (a + 1).toNat ++ Memory.read m (a + 2).toNat ++ Memory.read m (a + 3).toNat

/-- A word access that does not stop: outside the register window, or at a multiple of 4 in it (U7, log entry 8). -/
def WordAccess (s : State) (a : Word) : Prop := s.OffWindow a 4 ∨ (a - s.cfg.scuBase).toNat % 4 = 0

/-- A register write that would start or disable the channel that performs it, or change a run flag of the DSP that performs it
(U8; what a window write changes is `DspExec`'s, log entry 16). -/
def Disturbs (s : State) (p : Performer) (offset v : Word) : Prop :=
  match p with
  | .channel ch => s.regAt offset = some (.enable ch) ∧
      (v.getLsbD s.cfg.layout.startBit = true ∨ v.getLsbD s.cfg.layout.enableBit = false)
  | .dsp => ∃ w, s.regAt offset = some (.window w) ∧ (Config.dspWindowWriteEffect w v s.dsp).touchesRun = true
  | .otherMaster => False

/-- A register read that changes a run flag of the DSP that performs it (U8). -/
def DisturbsRead (s : State) (p : Performer) (offset : Word) : Prop :=
  p = .dsp ∧ ∃ w, s.regAt offset = some (.window w) ∧ (Config.dspWindowReadEffect w s.dsp).touchesRun = true

/-- No device answers any of `n` bytes from `a` (R41, log entry 7). -/
def Plain (s : State) (a : Word) (n : Nat) : Prop := ∀ j < n, Params.isDevice s.cfg (busAddr a j) = false

/-- The three words of the descriptor at `a` (R65): count, destination, source with the end-marker in bit 31. -/
def Descriptor (m : List Host.Cell) (a : Word) (c : DmaChannel) : Prop :=
  c.currXferCount = wordAt m a ∧ c.currDstAddr = wordAt m (a + 4) ∧
    c.currSrcAddr = ((wordAt m (a + 8)).setWidth 31).setWidth 32 ∧ c.endIndirect = (wordAt m (a + 8)).getLsbD 31

/-- The address of unit `k` of a transfer on one side (R126, R127): base plus `k` increments modulo 2^32, or held. -/
def unitAddr (base inc : Word) (update : Bool) (k : Nat) : Word := if update then base + BitVec.ofNat 32 k * inc else base

/-- The source address of unit `k` from the cursor. -/
def srcOf (c : DmaChannel) (k : Nat) : Word := unitAddr c.currSrcAddr c.currSrcAddrInc c.currUpdateSrc k

/-- The destination address of unit `k` from the cursor. -/
def dstOf (c : DmaChannel) (k : Nat) : Word := unitAddr c.currDstAddr c.currDstAddrInc c.currUpdateDst k

/-- The cursor after `n` unit transfers (R126). -/
def moved (c : DmaChannel) (n : Nat) : DmaChannel :=
  { c with currSrcAddr := srcOf c n, currDstAddr := dstOf c n, currXferCount := c.currXferCount - BitVec.ofNat 32 n }

/-- No byte of the next `n` units lies in the register window, on either side (log entry 8). -/
def UnitsOffWindow (s : State) (ch : Channel) (n : Nat) : Prop :=
  ∀ k < n, s.OffWindow (srcOf s.dma[ch] k) s.cfg.dmaUnitBytes ∧ s.OffWindow (dstOf s.dma[ch] k) s.cfg.dmaUnitBytes

/-- Memory after one unit of `size` bytes, as a function of the address (R44, R50): byte `j` of the destination unit is byte
`j` of the source unit, every other byte is as before. -/
def copyUnit (size : Nat) (src dst : Word) (mem : Nat → Byte) (a : Nat) : Byte :=
  if a < 2 ^ 32 ∧ (BitVec.ofNat 32 a - dst).toNat < size then mem (src + (BitVec.ofNat 32 a - dst)).toNat else mem a

/-- Memory after `n` units in order, later units seeing earlier units' writes (R50). -/
def copyUnits (size : Nat) (c : DmaChannel) (n : Nat) (mem : Nat → Byte) : Nat → Byte :=
  (List.range n).foldl (fun m k => copyUnit size (srcOf c k) (dstOf c k) m) mem

/-- What `n` units of channel `ch` from state `s` leave in memory: every byte outside the destination units is as before;
and on plain memory in canonical form, with units that do not run into themselves, all of it is the forward copy. -/
def UnitsStored (s : State) (ch : Channel) (n : Nat) (m : List Host.Cell) : Prop :=
  (∀ a, (∀ k < n, ∀ j < s.cfg.dmaUnitBytes, a ≠ (busAddr (dstOf s.dma[ch] k) j).toNat) →
      Memory.read m a = Memory.read s.mem a) ∧
    ((∀ k < n, Plain s (srcOf s.dma[ch] k) s.cfg.dmaUnitBytes ∧ Plain s (dstOf s.dma[ch] k) s.cfg.dmaUnitBytes) →
      s.cfg.dmaUnitBytes ≤ 2 ^ 32 → Memory.wf s.mem = true →
      ∀ a, Memory.read m a = copyUnits s.cfg.dmaUnitBytes s.dma[ch] n (Memory.read s.mem) a)

/-- How many units one `Tick` moves (R126): `min(DMA_BATCH, currXferCount)`. -/
def batch (s : State) (ch : Channel) : Nat := min s.cfg.dmaBatch s.dma[ch].currXferCount.toNat

/-- `k` times `Tick(ch)`. -/
def ticks (ch : Channel) : Nat → State → Host.Outcome State Fault Refusal
  | 0, s => .next s
  | k + 1, s => andThen (exec (.tick ch) s) fun t => ticks ch k t

/-- The PC after "advance PC" when BTM did not loop (R171). -/
def pcAfter (d : Dsp) : Nat := if d.jmpCounter = 1 then d.nextPC.toNat else (d.PC + 1) % 256

/-- The DSP after "advance PC" when BTM did not loop (R171). -/
def advanced (d : Dsp) : Dsp := { d with PC := pcAfter d, jmpCounter := d.jmpCounter - 1 }

/-- What no bus slot, immediate or loop construct of the DSP writes: the program, the DMA sub-state but its two bus
addresses, the run flags, the pending jump target and the window latch. -/
def DspFrame (d d' : Dsp) : Prop :=
  d' = { d' with
         programRAM := d.programRAM, nextPC := d.nextPC, dmaRun := d.dmaRun, dmaToD0 := d.dmaToD0, dmaHold := d.dmaHold,
         dmaCount := d.dmaCount, dmaSrc := d.dmaSrc, dmaDst := d.dmaDst, dmaAddrInc := d.dmaAddrInc,
         dmaTarget := d.dmaTarget,
         programExecuting := d.programExecuting, programPaused := d.programPaused, programEnded := d.programEnded,
         programStep := d.programStep, windowAddr := d.windowAddr }

/-- The D0-bus address of word `k` of a DSP DMA: base plus `k` increments, or held (R167). -/
def dspAddr (base inc : Word) (hold : Bool) (k : Nat) : Word := unitAddr base inc (!hold) k

end Sys2Proof.Claims

open Sys2Proof Sys2Proof.Machine Sys2Proof.Claims

/-! ## Encoding (30_encoding.md) -/

/-- R57, R75, R72: the record of every well-formed operation, followed by anything, decodes to that operation (a
pseudo-operation's to its expansion) and leaves what follows; only LoadState, the pair read and the DSP variants have no
record. -/
def Obligations.DecodeOfEncodeIsTheOperation : Prop :=
  (∀ (i : Instr) (record rest : List Byte), i.wf = true → encode i = some record →
    decode (record ++ rest) = .ok (i.canonical, rest)) ∧
  ∀ i : Instr, encode i = none ↔
    i = .getPendingInterrupt ∨ (∃ image, i = .loadState image) ∨ ∃ d, i = Instr.ofDsp d

/-- R57, R75: what decodes is well formed, and the bytes it was read from are exactly its record, so each operation has one
record. -/
def Obligations.EncodeOfDecodeIsTheRecord : Prop :=
  ∀ (bytes rest : List Byte) (i : Instr), decode bytes = .ok (i, rest) →
    i.wf = true ∧ i.canonical = i ∧ ∃ record, encode i = some record ∧ bytes = record ++ rest

/-- R75's examples and records of programs P1 to P4: the bytes the spec prints decode to the operations it prints. -/
def Obligations.PrintedRecordsDecodeAsPrinted : Prop :=
  decode [0x00, 0x02, 0, 0, 0, 0, 0, 0, 0, 0x1C, 0x00] = .ok (.schedule 2 28 false, []) ∧
  decode [0x01, 0x00, 0, 0, 0, 0, 0, 0, 0, 7, 0, 0, 0, 0, 0, 0, 0, 3] = .ok (.setEventPeriod 0 7 3, []) ∧
  decode [0x03, 0, 0, 0, 0, 0, 0, 0, 0x0A] = .ok (.advanceTo 10, []) ∧
  decode [0x10, 0x02, 0x0D] = .ok (.raiseInterrupt 2 13, []) ∧
  decode [0x23, 0x00, 0xFF] = .ok (.trigger 0 .software, []) ∧
  decode [0x20, 1, 0, 0, 1, 0, 0, 0, 2, 0, 0, 0, 0, 2, 0, 0, 0, 1, 0, 0, 0, 1, 0, 0] =
    .ok (.configure 1 0x100 0x200 2 1 1 false (.onSignal .vBlankIN), []) ∧
  decode [0x35, 0, 0, 0, 0x0C, 0, 0, 1, 2] = .ok (.regWrite 0x0C 0x102, []) ∧
  decode [0x33, 0x01] = .ok (.reset .soft, [])

/-- R71: a header byte R59 does not list is refused, whatever follows; so are a signal number, a trigger number and a reset
kind that R62 to R64 do not list. -/
def Obligations.UnlistedNumbersAreRefused : Prop :=
  (∀ (op : Byte) (rest : List Byte),
    op ∉ ([0x00, 0x01, 0x02, 0x03, 0x10, 0x11, 0x12, 0x13, 0x14, 0x15, 0x16, 0x17, 0x18, 0x20, 0x21, 0x22, 0x23, 0x24,
      0x30, 0x31, 0x33, 0x34, 0x35, 0x36, 0x37, 0x38, 0x39, 0x40] : List Byte) →
    decode (op :: rest) = .error (.unknownOp op)) ∧
  (∀ (n : Byte) (rest : List Byte), 8 < n.toNat → (n.toNat < 16 ∨ 31 < n.toNat) →
    decode (0x30 :: n :: rest) = .error (.badSignal n)) ∧
  (∀ (ch n : Byte) (rest : List Byte), 8 < n.toNat → (n.toNat < 16 ∨ 31 < n.toNat) → n ≠ 0xFF →
    decode (0x23 :: ch :: n :: rest) = .error (.badTrigger n)) ∧
  ∀ (n : Byte) (rest : List Byte), 1 < n.toNat → decode (0x33 :: n :: rest) = .error (.badResetKind n)

/-! ## The step and its agents (00_scope.md R11, 43_system.md, 60_exceptions.md) -/

/-- R190, R57: one step performs the operation at the head of the queue, the one its record decodes to or the one written in
text form, for every agent that may perform it: the driver any operation (Reset and LoadState between system steps), the CPUs
and the peripherals any but AdvanceTo, Reset and LoadState. The queue is the model's (log entries 3, 26). -/
def Obligations.StepPerformsTheDecodedOperation : Prop :=
  ∀ (s : State) (agent : Agent) (i : Instr) (q : List Issue), s.fault = none → Admitted s agent i → Calls s agent i q →
    step s = exec i (s.setIssue q)

/-- What else a step does: a state whose mark is set has no further step (R32, R181; log entry 4), an idle block is passive
(R201), bytes that spell no operation are refused (R71), a system step becomes its operations in R149's order with its end
marked (R152; log entry 26). Another bus master's access (R41; log entry 7) outside the register window stores its bytes behind
the bus, or loads and changes nothing but the counter of free values; of 4 bytes in the window it is the register operation at
that offset (R66); any other in the window is refused (U7). -/
def Obligations.StepOnEveryOtherHead : Prop :=
  (∀ (s : State) (r : ViolationReason), s.fault = some r → step s = .fault (.contractViolation r)) ∧
  (∀ s : State, s.fault = none → s.issue = [] → step s = .next s) ∧
  (∀ (s : State) (agent : Agent) (bytes : List Byte) (q : List Issue) (e : DecodeError), s.fault = none →
    s.issue = .call agent (.record bytes) :: q → decode bytes = .error e → step s = .refused (.undecodable e)) ∧
  (∀ (s : State) (r : SystemStep) (q : List Issue), s.fault = none → s.issue = .systemStep r :: q →
    step s = .next { s with
      inSystemStep := true
      issue :=
        (.getPendingInterrupt :: r.masterOps).map (fun i => .call .masterSH2 (.text i)) ++
          [.drainAudioQueue, .advanceTo (s.sched.currCycle + r.cycles), .scuTick].map
            (fun i => .call .systemDriver (.text i)) ++
          (if r.slaveEnabled then (.getPendingInterrupt :: r.slaveOps).map (fun i => .call .slaveSH2 (.text i)) else []) ++
          [.systemStepEnd] ++ q }) ∧
  (∀ (s : State) (q : List Issue), s.fault = none → s.issue = .systemStepEnd :: q →
    step s = .next { s with inSystemStep := false, issue := q }) ∧
  (∀ (s : State) (a : Word) (bytes : List Byte) (q : List Issue), s.fault = none → s.issue = .busStore a bytes :: q →
    (s.OffWindow a bytes.length → ∃ t, step s = .next t ∧ t = { s with issue := q, mem := t.mem } ∧
      (∀ b, (∀ j < bytes.length, b ≠ (busAddr a j).toNat) → Memory.read t.mem b = Memory.read s.mem b) ∧
      (Plain s a bytes.length → bytes.length ≤ 2 ^ 32 → Memory.wf s.mem = true →
        ∀ j, (h : j < bytes.length) → Memory.read t.mem (busAddr a j).toNat = bytes[j])) ∧
    (¬ s.OffWindow a bytes.length →
      (bytes.length ≠ 4 → step s = .refused .misalignedRegisterAccess) ∧
      ∀ v, bytes = wordBytes v → step s = exec (.regWrite (a - s.cfg.scuBase) v) (s.setIssue q))) ∧
  ∀ (s : State) (a : Word) (n : Nat) (q : List Issue), s.fault = none → s.issue = .busLoad a n :: q →
    (s.OffWindow a n → ∃ t, step s = .next t ∧ t = { s with issue := q, freeCount := t.freeCount } ∧
      (Plain s a n → t.freeCount = s.freeCount)) ∧
    (¬ s.OffWindow a n →
      (n ≠ 4 → step s = .refused .misalignedRegisterAccess) ∧
      (n = 4 → step s = exec (.regRead (a - s.cfg.scuBase)) (s.setIssue q)))

/-- R86, R143, R152, R181 code 6: `AdvanceTo`, `Reset` and `LoadState` by a CPU, by a peripheral or anywhere in a handler, and
the driver's `Reset` and `LoadState` while a system step is under way, are the contract violation Reentrant with none of their
effect. In a handler it ends the handler and the `AdvanceTo`, whose later due events stay (log entry 4); handlers are log
entry 2, the step under way is log entry 26. -/
def Obligations.BoundaryOperationsAreReentrantInside : Prop :=
  ∀ (i : Instr), Boundary i →
    (∀ (s : State) (agent : Agent) (q : List Issue), s.fault = none →
      (agent = .masterSH2 ∨ agent = .slaveSH2 ∨ agent = .peripheral ∨
        (agent = .systemDriver ∧ s.inSystemStep = true ∧ BetweenSteps i)) →
      Calls s agent i q → step s = .next (faulted (s.setIssue q) .reentrant)) ∧
    (∀ (s u : State) (before after : List Instr), performAll before s = .next u → u.fault = none →
      performAll (before ++ i :: after) s = .next (faulted u .reentrant)) ∧
    ∀ (s u : State) (cycle : Cycles) (id : Nat) (e : EventSlot) (before after : List Instr), s.fault = none →
      age s.sched.currCycle cycle < 2 ^ 63 → nextDue cycle 0 s.sched.ev = some (id, e) →
      (firing s cycle id e).handlerOps id e.target = before ++ i :: after →
      performAll before (firing s cycle id e) = .next u → u.fault = none →
      exec (.advanceTo cycle) s = .next (faulted u .reentrant)

/-- R150: `PostAudioInterrupt` is the only operation the audio thread performs, in either form; the model refuses every other
one it issues (log entry 26). -/
def Obligations.AudioThreadOnlyPosts : Prop :=
  ∀ (s : State) (i : Instr) (q : List Issue), s.fault = none → Calls s .audioThread i q →
    (∀ source level, i = .postAudioInterrupt source level → step s = exec i (s.setIssue q)) ∧
    ((∀ source level, i ≠ .postAudioInterrupt source level) → step s = .refused .offThreadOperation)

/-! ## Rules of the whole machine -/

/-- Every step keeps the invariants: slot ids, denominators, remainders (R15), `active` implies `enabled` (R25), `PC < 256`
and cursors below 64 (R27), the canonical form of memory. -/
def Obligations.StepKeepsTheInvariants : Prop :=
  ∀ s t : State, s.Inv → step s = .next t → t.Inv

/-- The state after reset has the invariants. -/
def Obligations.ResetStateHasTheInvariants : Prop := State.reset.Inv

/-- R7: "A parameter is configuration, not state: no operation changes it"; the number of event slots does not change
either. -/
def Obligations.ParametersNeverChange : Prop :=
  ∀ s t : State, step s = .next t → t.cfg = s.cfg ∧ t.sched.ev.length = s.sched.ev.length

/-- R32, R181: once the mark is set no operation clears it or replaces the reason. -/
def Obligations.FaultMarkIsNeverClearedOrReplaced : Prop :=
  ∀ (i : Instr) (s t : State) (r : ViolationReason), exec i s = .next t → s.fault = some r → t.fault = some r

/-- R16, R184: a status bit falls only by an acknowledge, a reset or a load, and rises only by an operation that raises.
`AdvanceTo` is on both lists because its handlers may do either. -/
def Obligations.StatusBitsChangeOnlyByRaiseAndAcknowledge : Prop :=
  ∀ (i : Instr) (s t : State), exec i s = .next t →
    (match i with
      | .acknowledgeInterrupt .. | .acknowledgeVector .. | .reset .. | .loadState .. | .advanceTo .. => True
      | _ => ∀ k : SourceIndex, s.intr.status.getLsbD k = true → t.intr.status.getLsbD k = true) ∧
    (match i with
      | .raiseInterrupt .. | .signal .. | .triggerVBlankIN | .triggerVBlankOUT | .triggerHBlankIN
      | .cbTriggerExternalInterruptN .. | .tick .. | .scuTick | .drainAudioQueue | .dspStep | .dspENDI | .loadState ..
      | .advanceTo .. => True
      | _ => ∀ k : SourceIndex, t.intr.status.getLsbD k = true → s.intr.status.getLsbD k = true)

/-- R13, R76, R109: the scheduler's state is changed by its own four operations, `Reset` and `LoadState` only, and the cycle
counter by `AdvanceTo`, `Reset` and `LoadState` only. -/
def Obligations.SchedulerStateHasOneOwner : Prop :=
  ∀ (i : Instr) (s t : State), exec i s = .next t →
    match i with
    | .advanceTo .. | .reset .. | .loadState .. => True
    | .schedule .. | .setEventPeriod .. | .cancel .. => t.sched.currCycle = s.sched.currCycle
    | _ => t.sched = s.sched

/-- R42: memory is written by `Tick`, `ScuTick`, DSP steps and DSP DMA only (and by handlers inside `AdvanceTo`); and no
operation of the scheduler or of the interrupt controller reads or writes the bus: on another bus, with other memory and other
devices, it answers the same and leaves that bus as it is (`AdvanceTo` where its handlers perform nothing). The bus is a memory
with device regions (log entry 7). -/
def Obligations.OnlyBusOperationsReachMemory : Prop :=
  ∀ (i : Instr) (s t : State), exec i s = .next t →
    (match i with
      | .tick .. | .scuTick | .dspStep | .dspDMA .. | .advanceTo .. => True
      | _ => t.mem = s.mem) ∧
    (match i with
      | .schedule .. | .setEventPeriod .. | .cancel .. | .raiseInterrupt .. | .acknowledgeInterrupt ..
      | .acknowledgeVector .. | .getInterruptMask | .setInterruptMask .. | .getInterruptStatus | .writeInterruptStatus ..
      | .getPendingInterruptLevel | .getPendingInterruptVector | .getPendingInterrupt =>
        t.freeCount = s.freeCount ∧ ∀ m devices, exec i (onBus s m devices) = .next (onBus t m devices)
      | .advanceTo .. => s.QuietHandlers →
        t.mem = s.mem ∧ t.freeCount = s.freeCount ∧ ∀ m devices, exec i (onBus s m devices) = .next (onBus t m devices)
      | _ => True)

/-! ## Scheduler (40_scheduler.md) -/

/-- R78: `Schedule`, its two contract violations and its effect; nothing but the slot changes, no handler runs. -/
def Obligations.ScheduleArmsTheSlot : Prop :=
  ∀ (s : State) (id : Nat) (delayCycles : Cycles) (periodic : Bool),
    (¬ Known s id → exec (.schedule id delayCycles periodic) s = .next (faulted s .unknownEventId)) ∧
    ∀ e, Known s id → s.sched.ev[id]? = some e →
      (periodic = true ∧ (e.countNumerator = 0 ∨ e.countDenominator = 0) →
        exec (.schedule id delayCycles periodic) s = .next (faulted s .badPeriod)) ∧
      (¬ (periodic = true ∧ (e.countNumerator = 0 ∨ e.countDenominator = 0)) →
        ∃ t, exec (.schedule id delayCycles periodic) s = .next t ∧
          t.sched.ev[id]? = some { e with target := s.sched.currCycle + delayCycles, periodic := periodic,
                                          remainder := 0, live := true } ∧
          (∀ j, j ≠ id → t.sched.ev[j]? = s.sched.ev[j]?) ∧
          t = { s with sched := { s.sched with ev := t.sched.ev } })

/-- R80: `SetEventPeriod`, its two contract violations and its effect; `live`, `target` and `periodic` stay. -/
def Obligations.SetEventPeriodWritesThePeriod : Prop :=
  ∀ (s : State) (id : Nat) (num den : Cycles),
    (¬ Known s id → exec (.setEventPeriod id num den) s = .next (faulted s .unknownEventId)) ∧
    ∀ e, Known s id → s.sched.ev[id]? = some e →
      (num = 0 ∨ den = 0 → exec (.setEventPeriod id num den) s = .next (faulted s .badPeriod)) ∧
      (¬ (num = 0 ∨ den = 0) →
        ∃ t, exec (.setEventPeriod id num den) s = .next t ∧
          t.sched.ev[id]? = some { e with countNumerator := num, countDenominator := den, remainder := 0 } ∧
          (∀ j, j ≠ id → t.sched.ev[j]? = s.sched.ev[j]?) ∧
          t = { s with sched := { s.sched with ev := t.sched.ev } })

/-- R81: `Cancel`, its contract violation and its effect; only `live` changes, and a slot not armed stays as it is. -/
def Obligations.CancelClearsTheSlot : Prop :=
  ∀ (s : State) (id : Nat),
    (¬ Known s id → exec (.cancel id) s = .next (faulted s .unknownEventId)) ∧
    ∀ e, Known s id → s.sched.ev[id]? = some e →
      ∃ t, exec (.cancel id) s = .next t ∧
        t.sched.ev[id]? = some { e with live := false } ∧
        (∀ j, j ≠ id → t.sched.ev[j]? = s.sched.ev[j]?) ∧
        t = { s with sched := { s.sched with ev := t.sched.ev } }

/-- R77, R83: a backward `AdvanceTo` is a contract violation; one that finds nothing due moves the counter and nothing else,
and `AdvanceTo(sched.currCycle)` moves no time. -/
def Obligations.AdvanceToIsMonotonic : Prop :=
  ∀ (s : State) (cycle : Cycles),
    (2 ^ 63 ≤ (cycle - s.sched.currCycle).toNat →
      exec (.advanceTo cycle) s = .next (faulted s .timeBackwards)) ∧
    ((cycle - s.sched.currCycle).toNat < 2 ^ 63 →
      (∀ e ∈ s.sched.ev, e.live = true → 2 ^ 63 ≤ (cycle - e.target).toNat) →
      exec (.advanceTo cycle) s = .next { s with sched := { s.sched with currCycle := cycle } })

/-- R84: the event fired next is the live due one with the earliest target (greatest age), the least id among equals; none
is fired exactly when none is due. -/
def Obligations.EarliestTargetThenLeastIdFiresFirst : Prop :=
  ∀ (cycle : Cycles) (ev : List EventSlot),
    (∀ id e, nextDue cycle 0 ev = some (id, e) ↔
      ev[id]? = some e ∧ (e.live = true ∧ age e.target cycle < 2 ^ 63) ∧
        ∀ j f, ev[j]? = some f → f.live = true → age f.target cycle < 2 ^ 63 →
          age f.target cycle < age e.target cycle ∨ (age f.target cycle = age e.target cycle ∧ id ≤ j)) ∧
    (nextDue cycle 0 ev = none ↔ ∀ e ∈ ev, e.live = true → 2 ^ 63 ≤ age e.target cycle)

/-- R82, R86: `AdvanceTo` fires the event chosen by R84: it is rearmed or cleared, then its handler, a function of the state it
sees with the counter already at `cycle` and of the target fired, is performed; then `AdvanceTo` goes on from the state the
handler left, its event table included. A handler's contract violation ends it (log entry 4). Handlers are log entry 2. -/
def Obligations.AdvanceToFiresOneEventAndGoesOn : Prop :=
  ∀ (s u : State) (cycle : Cycles) (id : Nat) (e : EventSlot), s.fault = none → age s.sched.currCycle cycle < 2 ^ 63 →
    nextDue cycle 0 s.sched.ev = some (id, e) →
    performAll ((firing s cycle id e).handlerOps id e.target) (firing s cycle id e) = .next u →
    (u.fault = none → ∀ t, exec (.advanceTo cycle) s = .next t → exec (.advanceTo cycle) u = .next t) ∧
    (u.fault ≠ none → exec (.advanceTo cycle) s = .next u)

/-- R82, R85, R87, R88: with handlers that perform nothing and periods below 2^63 cycles (R211), `AdvanceTo` answers: the
counter is at `cycle`, every slot has been fired exactly as often as it was due (a one-shot once, a periodic one once for
each target that is due), nothing is left due, and nothing else changes. -/
def Obligations.AdvanceToFiresEveryDueTargetOnce : Prop :=
  ∀ (s : State) (cycle : Cycles), s.Inv → s.fault = none → s.QuietHandlers → age s.sched.currCycle cycle < 2 ^ 63 →
    (∀ e ∈ s.sched.ev, e.live = true → e.periodic = true →
      e.countNumerator.toNat < 2 ^ 63 * e.countDenominator.toNat) →
    ∃ t, exec (.advanceTo cycle) s = .next t ∧
      t = { s with sched := { currCycle := cycle, ev := t.sched.ev } } ∧ t.sched.ev.length = s.sched.ev.length ∧
      ∀ (id : Nat) (e : EventSlot), s.sched.ev[id]? = some e → ∃ k : Nat, t.sched.ev[id]? = some (EventSlot.fired^[k] e) ∧
        EventSlot.isDue (EventSlot.fired^[k] e) cycle = false ∧
        ∀ j < k, EventSlot.isDue (EventSlot.fired^[j] e) cycle = true

/-- R85: armed with remainder 0 and period `n/d`, the k-th firing has target `t0 + floor(k * n / d)` exactly, for every k; a
one-shot slot is cleared by firing. -/
def Obligations.PeriodicTargetsAreDriftFree : Prop :=
  ∀ e : EventSlot, 1 ≤ e.countDenominator.toNat →
    (e.periodic = true → e.remainder = 0 → ∀ k : Nat,
      EventSlot.fired^[k] e =
        { e with
          target := e.target + BitVec.ofNat 64 (k * e.countNumerator.toNat / e.countDenominator.toNat)
          remainder := BitVec.ofNat 64 (k * e.countNumerator.toNat % e.countDenominator.toNat) }) ∧
    (e.periodic = false → EventSlot.fired e = { e with live := false })

/-! ## Interrupt controller (41_interrupt.md) -/

/-- R97: `RaiseInterrupt` sets the status bit and records the level, masked or not, and notifies; a source above 31 is a
contract violation. -/
def Obligations.RaiseInterruptSetsStatusAndLevel : Prop :=
  ∀ (s : State) (level : Level),
    (∀ source : Nat, 31 < source → exec (.raiseInterrupt source level) s = .next (faulted s .badSourceIndex)) ∧
    ∀ source : SourceIndex, ∃ t, exec (.raiseInterrupt source level) s = .next t ∧
      Raised source level s.intr t.intr ∧
      t = { s with intr := t.intr, traceLog := traced s (.raiseInterrupt source level) }

/-- R99: `AcknowledgeInterrupt` clears the status bit, whatever the mask and whether or not the bit was set, leaves the level
and notifies; a source above 31 is a contract violation. -/
def Obligations.AcknowledgeInterruptClearsStatus : Prop :=
  ∀ s : State,
    (∀ source : Nat, 31 < source → exec (.acknowledgeInterrupt source) s = .next (faulted s .badSourceIndex)) ∧
    ∀ source : SourceIndex, ∃ t, exec (.acknowledgeInterrupt source) s = .next t ∧
      (∀ j : SourceIndex, t.intr.status.getLsbD j = (!decide (j = source) && s.intr.status.getLsbD j)) ∧
      t = { s with intr := { s.intr with status := t.intr.status }, traceLog := traced s (.acknowledgeInterrupt source) }

/-- R100: with `VectorOf` injective (R7), `AcknowledgeVector` of a source's vector is `AcknowledgeInterrupt` of that source; a
vector of no source changes nothing. -/
def Obligations.AcknowledgeVectorAcknowledgesItsSource : Prop :=
  ∀ (s : State) (vector : Byte), (∀ i j : SourceIndex, s.cfg.vectorOf[i] = s.cfg.vectorOf[j] → i = j) →
    (∀ i : SourceIndex, s.cfg.vectorOf[i] = vector →
      ∃ t, exec (.acknowledgeVector vector) s = .next t ∧ exec (.acknowledgeInterrupt i) s = .next t) ∧
    ((∀ i : SourceIndex, s.cfg.vectorOf[i] ≠ vector) → exec (.acknowledgeVector vector) s = .next s)

/-- R101 to R104: the accessors return the registers, the mask write replaces all 32 bits, the status write changes
nothing. -/
def Obligations.InterruptRegisterAccessors : Prop :=
  ∀ (s : State) (value : Word),
    exec .getInterruptMask s = .next { s with result := .word s.intr.mask } ∧
    exec (.setInterruptMask value) s = .next { s with intr := { s.intr with mask := value } } ∧
    exec .getInterruptStatus s = .next { s with result := .word s.intr.status } ∧
    exec (.writeInterruptStatus value) s = .next s

/-- R105 to R107, R72: the level, the vector and the pair returned are those of the visible source with the greatest level,
the least index among equals, or 0 when no source is visible. -/
def Obligations.PendingPairIsTheHighestVisibleSource : Prop :=
  ∀ s : State,
    ((∀ i, ¬ Visible s i) →
      exec .getPendingInterruptLevel s = .next { s with result := .level 0 } ∧
      exec .getPendingInterruptVector s = .next { s with result := .vector 0 } ∧
      exec .getPendingInterrupt s = .next { s with result := .pair 0 0 }) ∧
    ∀ i : SourceIndex, Visible s i →
      (∀ j : SourceIndex, Visible s j →
        s.intr.level[j].toNat < s.intr.level[i].toNat ∨ (s.intr.level[j] = s.intr.level[i] ∧ i ≤ j)) →
      exec .getPendingInterruptLevel s = .next { s with result := .level s.intr.level[i] } ∧
      exec .getPendingInterruptVector s = .next { s with result := .vector s.cfg.vectorOf[i] } ∧
      exec .getPendingInterrupt s = .next { s with result := .pair s.intr.level[i] s.cfg.vectorOf[i] }

/-- R108: after a raise, a mask write that sets the source's bit leaves the status and hides the source; clearing the bit
shows it again at the same level. -/
def Obligations.MaskingHidesAndReexposes : Prop :=
  ∀ (s : State) (i : SourceIndex) (level : Level) (m m' : Word), m.getLsbD i = true → m'.getLsbD i = false →
    ∃ a b c, exec (.raiseInterrupt i level) s = .next a ∧ exec (.setInterruptMask m) a = .next b ∧
      exec (.setInterruptMask m') b = .next c ∧
      b.intr.status = a.intr.status ∧ ¬ Visible b i ∧ Intr.pendingSource b.intr ≠ some i ∧
      c.intr.status = a.intr.status ∧ Visible c i ∧ c.intr.level[i] = level ∧ level.toNat ≤ c.pendingLevel.toNat ∧
      ((∀ j : SourceIndex, j ≠ i → Visible c j → c.intr.level[j].toNat < level.toNat) →
        c.pendingLevel = level ∧ c.pendingVector = s.cfg.vectorOf[i])

/-- R109, R110: every operation of the interrupt controller answers on in-range operands and changes nothing but the
interrupt registers, the trace and the returned value: no scheduler state, no channel, no memory. -/
def Obligations.InterruptOperationsLeaveTheRestAlone : Prop :=
  ∀ (s : State) (source : SourceIndex) (level : Level) (vector : Byte) (value : Word) (i : Instr),
    i ∈ ([.raiseInterrupt source level, .acknowledgeInterrupt source, .acknowledgeVector vector, .getInterruptMask,
      .setInterruptMask value, .getInterruptStatus, .writeInterruptStatus value, .getPendingInterruptLevel,
      .getPendingInterruptVector, .getPendingInterrupt] : List Instr) →
    ∃ t, exec i s = .next t ∧ t = { s with intr := t.intr, traceLog := t.traceLog, result := t.result }

/-! ## DMA engine (42_dma.md) -/

/-- R118, R121, R131: on any channel, Active or not, with any operands, `Configure` writes its seven configured fields and
nothing else: no in-flight field, no latch; a channel above 2 is a contract violation. -/
def Obligations.ConfigureWritesConfiguredFieldsOnly : Prop :=
  ∀ (s : State) (src dst count srcInc dstInc : Word) (indirect : Bool) (ts : TriggerSource),
    (∀ ch : Nat, 2 < ch →
      exec (.configure ch src dst count srcInc dstInc indirect ts) s = .next (faulted s .badChannel)) ∧
    ∀ ch : Channel, ∃ t, exec (.configure ch src dst count srcInc dstInc indirect ts) s = .next t ∧
      t.dma[ch] = { s.dma[ch] with srcAddr := src, dstAddr := dst, xferCount := count, srcAddrInc := srcInc,
                                   dstAddrInc := dstInc, indirect := indirect, trigger := ts } ∧
      (∀ c : Channel, c ≠ ch → t.dma[c] = s.dma[c]) ∧ t = { s with dma := t.dma }

/-- R119, R121, R131: `SetAddressUpdate` writes the two configured hold flags of any channel, Active or not, and nothing
else; a channel above 2 is a contract violation. -/
def Obligations.SetAddressUpdateWritesTheHoldFlags : Prop :=
  ∀ (s : State) (updateSrc updateDst : Bool),
    (∀ ch : Nat, 2 < ch → exec (.setAddressUpdate ch updateSrc updateDst) s = .next (faulted s .badChannel)) ∧
    ∀ ch : Channel, ∃ t, exec (.setAddressUpdate ch updateSrc updateDst) s = .next t ∧
      t.dma[ch] = { s.dma[ch] with updateSrcAddr := updateSrc, updateDstAddr := updateDst } ∧
      (∀ c : Channel, c ≠ ch → t.dma[c] = s.dma[c]) ∧ t = { s with dma := t.dma }

/-- R120: `SetEnabled` writes `enabled`; a disable also clears `active`, raises nothing and leaves the cursor; an enable
starts nothing; a channel above 2 is a contract violation. -/
def Obligations.SetEnabledEndsOnlyByDisable : Prop :=
  ∀ (s : State) (enabled : Bool),
    (∀ ch : Nat, 2 < ch → exec (.setEnabled ch enabled) s = .next (faulted s .badChannel)) ∧
    ∀ ch : Channel, ∃ t, exec (.setEnabled ch enabled) s = .next t ∧
      t.dma[ch] = { s.dma[ch] with enabled := enabled, active := if enabled then s.dma[ch].active else false } ∧
      (∀ c : Channel, c ≠ ch → t.dma[c] = s.dma[c]) ∧ t = { s with dma := t.dma }

/-- R123: `Trigger` on a channel that is Disabled, Active or configured with another trigger changes nothing, a software start
too. -/
def Obligations.TriggerIsIgnoredUnlessIdleAndMatching : Prop :=
  ∀ (s : State) (ch : Channel) (ts : TriggerSource),
    (s.dma[ch].enabled = false ∨ s.dma[ch].active = true ∨ s.dma[ch].trigger ≠ ts) →
    exec (.trigger ch ts) s = .next s ∧ (ts = .software → exec (.softwareStart ch) s = .next s)

/-- R122: `Trigger` on an enabled, Idle channel with that trigger in direct mode copies the configured fields to the cursor and
the latches and goes Active; it moves no data; a channel above 2 is a contract violation. -/
def Obligations.TriggerStartsADirectTransfer : Prop :=
  ∀ (s : State) (ts : TriggerSource),
    (∀ ch : Nat, 2 < ch → exec (.trigger ch ts) s = .next (faulted s .badChannel) ∧
      exec (.softwareStart ch) s = .next (faulted s .badChannel)) ∧
    ∀ ch : Channel, Startable s.dma[ch] ts → s.dma[ch].indirect = false →
      ∃ t, exec (.trigger ch ts) s = .next t ∧ (ts = .software → exec (.softwareStart ch) s = .next t) ∧
        t.dma[ch] = started s.dma[ch] ∧ (∀ c : Channel, c ≠ ch → t.dma[c] = s.dma[c]) ∧ t = { s with dma := t.dma }

/-- R122, R124, R125: in indirect mode the same copy is made and the first descriptor is read from `dstAddr`: the cursor is
that descriptor's, `currIndirectSrc` is 12 further, the increments and latches are the configured ones. The layout is
decided by the spec (R65, log entry 20). A descriptor word in the register window is a register read (log entry 8). -/
def Obligations.TriggerStartsAnIndirectTransfer : Prop :=
  ∀ (s : State) (ts : TriggerSource) (ch : Channel), Startable s.dma[ch] ts → s.dma[ch].indirect = true →
    WordAccess s s.dma[ch].dstAddr → WordAccess s (s.dma[ch].dstAddr + 4) → WordAccess s (s.dma[ch].dstAddr + 8) →
    ∃ t, exec (.trigger ch ts) s = .next t ∧ (ts = .software → exec (.softwareStart ch) s = .next t) ∧
      t.dma[ch] = { started s.dma[ch] with
        currSrcAddr := t.dma[ch].currSrcAddr, currDstAddr := t.dma[ch].currDstAddr,
        currXferCount := t.dma[ch].currXferCount, endIndirect := t.dma[ch].endIndirect,
        currIndirectSrc := s.dma[ch].dstAddr + 12 } ∧
      (∀ c : Channel, c ≠ ch → t.dma[c] = s.dma[c]) ∧
      t = { s with dma := t.dma, dsp := t.dsp, freeCount := t.freeCount } ∧
      ((∀ k : Fin 3, s.OffWindow (s.dma[ch].dstAddr + BitVec.ofNat 32 (4 * k.val)) 4) →
        Plain s s.dma[ch].dstAddr 12 → Descriptor s.mem s.dma[ch].dstAddr t.dma[ch] ∧ t = { s with dma := t.dma })

/-- R126: `Tick` of a channel that is not Active changes nothing; a channel above 2 is a contract violation. -/
def Obligations.TickOfAnInactiveChannelDoesNothing : Prop :=
  ∀ s : State,
    (∀ ch : Nat, 2 < ch → exec (.tick ch) s = .next (faulted s .badChannel)) ∧
    ∀ ch : Channel, s.dma[ch].active = false → exec (.tick ch) s = .next s

/-- R126, R127, R132, R133: a `Tick` with work left moves `DMA_BATCH` units: the cursor and the count move on by that many,
each side by its increment or held, the bytes go from source to destination in order, every other byte, channel and register
stays. For units outside the register window (log entry 8). -/
def Obligations.TickMovesABatchOfUnits : Prop :=
  ∀ (s : State) (ch : Channel), s.dma[ch].active = true → s.cfg.dmaBatch < s.dma[ch].currXferCount.toNat →
    UnitsOffWindow s ch s.cfg.dmaBatch →
    ∃ t, exec (.tick ch) s = .next t ∧ t.dma[ch] = moved s.dma[ch] s.cfg.dmaBatch ∧
      (∀ c : Channel, c ≠ ch → t.dma[c] = s.dma[c]) ∧ UnitsStored s ch s.cfg.dmaBatch t.mem ∧
      t = { s with dma := t.dma, mem := t.mem, freeCount := t.freeCount }

/-- R126, R128, R130: a `Tick` in which the count reaches 0, or finds it 0, of a direct transfer or of a chain's marked
descriptor moves the units left, goes Idle with the cursor where it stands and raises the channel's DMA-complete interrupt
once, masked or not; with count 0 it touches no memory. -/
def Obligations.TickCompletesTheTransfer : Prop :=
  ∀ (s : State) (ch : Channel) (n : Nat), s.dma[ch].active = true → n = s.dma[ch].currXferCount.toNat →
    n ≤ s.cfg.dmaBatch → (s.dma[ch].currIndirect = false ∨ s.dma[ch].endIndirect = true) → UnitsOffWindow s ch n →
    ∃ t, exec (.tick ch) s = .next t ∧ t.dma[ch] = { moved s.dma[ch] n with active := false } ∧
      t.dma[ch].currXferCount = 0 ∧ (∀ c : Channel, c ≠ ch → t.dma[c] = s.dma[c]) ∧ UnitsStored s ch n t.mem ∧
      (n = 0 → t.mem = s.mem ∧ t.freeCount = s.freeCount) ∧
      Raised s.cfg.dmaEndTable[ch].source s.cfg.dmaEndTable[ch].level s.intr t.intr ∧
      t = { s with
        dma := t.dma, mem := t.mem, freeCount := t.freeCount, intr := t.intr,
        traceLog := traced s (.raiseInterrupt s.cfg.dmaEndTable[ch].source s.cfg.dmaEndTable[ch].level) }

/-- R126, R129: a `Tick` that exhausts a descriptor without the end-marker moves its units, then fetches the next descriptor
and stays Active; it moves no unit of the new one and raises nothing. -/
def Obligations.TickFetchesTheNextDescriptor : Prop :=
  ∀ (s : State) (ch : Channel) (n : Nat), s.dma[ch].active = true → n = s.dma[ch].currXferCount.toNat →
    n ≤ s.cfg.dmaBatch → s.dma[ch].currIndirect = true → s.dma[ch].endIndirect = false → UnitsOffWindow s ch n →
    (∀ k : Fin 3, s.OffWindow (s.dma[ch].currIndirectSrc + BitVec.ofNat 32 (4 * k.val)) 4) →
    ∃ t, exec (.tick ch) s = .next t ∧
      t.dma[ch] = { s.dma[ch] with
        currSrcAddr := t.dma[ch].currSrcAddr, currDstAddr := t.dma[ch].currDstAddr,
        currXferCount := t.dma[ch].currXferCount, endIndirect := t.dma[ch].endIndirect,
        currIndirectSrc := s.dma[ch].currIndirectSrc + 12 } ∧
      (∀ c : Channel, c ≠ ch → t.dma[c] = s.dma[c]) ∧ UnitsStored s ch n t.mem ∧
      t = { s with dma := t.dma, mem := t.mem, freeCount := t.freeCount } ∧
      (Plain s s.dma[ch].currIndirectSrc 12 → Descriptor t.mem s.dma[ch].currIndirectSrc t.dma[ch])

/-- R134, R135: an operation on one channel changes no field of another, and neither `Trigger` nor `Tick` writes a configured
field. For ticks whose units lie outside the register window (log entry 8). -/
def Obligations.ChannelsAreIndependentAndKeepTheirConfiguration : Prop :=
  ∀ (s t : State) (ch : Channel) (i : Instr), exec i s = .next t →
    ((∃ src dst count srcInc dstInc indirect ts, i = .configure ch src dst count srcInc dstInc indirect ts) ∨
      (∃ updateSrc updateDst, i = .setAddressUpdate ch updateSrc updateDst) ∨ (∃ enabled, i = .setEnabled ch enabled) ∨
      (∃ ts, i = .trigger ch ts) ∨ i = .softwareStart ch ∨ (i = .tick ch ∧ UnitsOffWindow s ch (batch s ch))) →
    (∀ c : Channel, c ≠ ch → t.dma[c] = s.dma[c]) ∧
    (((∃ ts, i = .trigger ch ts) ∨ i = .softwareStart ch ∨ i = .tick ch) →
      configured t.dma[ch] = configured s.dma[ch])

/-- R128, R133, R136: a direct transfer of N units takes `ceil(N / DMA_BATCH)` ticks, at least one; before the last the channel
is Active and nothing is raised; after it `currXferCount = 0`, `active = false`, the data has moved and exactly one
DMA-complete interrupt of the channel was raised. For units outside the register window (log entry 8). -/
def Obligations.DirectTransferRunsToCompletion : Prop :=
  ∀ (s : State) (ch : Channel) (n total : Nat), n = s.dma[ch].currXferCount.toNat → 1 ≤ s.cfg.dmaBatch →
    total = max 1 ((n + s.cfg.dmaBatch - 1) / s.cfg.dmaBatch) → s.dma[ch].active = true →
    s.dma[ch].currIndirect = false → UnitsOffWindow s ch n →
    (∀ k < total, ∃ t, ticks ch k s = .next t ∧ t.dma[ch] = moved s.dma[ch] (k * s.cfg.dmaBatch) ∧
      t.dma[ch].active = true ∧ t.intr = s.intr ∧ t.traceLog = s.traceLog) ∧
    ∃ t, ticks ch total s = .next t ∧ t.dma[ch] = { moved s.dma[ch] n with active := false } ∧
      t.dma[ch].currXferCount = 0 ∧ (∀ c : Channel, c ≠ ch → t.dma[c] = s.dma[c]) ∧ UnitsStored s ch n t.mem ∧
      Raised s.cfg.dmaEndTable[ch].source s.cfg.dmaEndTable[ch].level s.intr t.intr ∧
      t = { s with
        dma := t.dma, mem := t.mem, freeCount := t.freeCount, intr := t.intr,
        traceLog := traced s (.raiseInterrupt s.cfg.dmaEndTable[ch].source s.cfg.dmaEndTable[ch].level) }

/-! ## Signals, tick, audio queue, reset, save states (43_system.md) -/

/-- R142: `Signal` is `RaiseInterrupt` with the signal's row of `SignalTable`, then `Trigger(ch, OnSignal(sig))` for channels 0,
1, 2; when no channel it starts is in indirect mode it answers, the interrupt raised and exactly the enabled, Idle, matching
channels started. -/
def Obligations.SignalRaisesThenTriggersTheChannels : Prop :=
  ∀ (s : State) (sig : Signal) (row : SourceLevel), row = s.cfg.signalTable[sig.row] →
    exec (.signal sig) s =
      andThen (exec (.raiseInterrupt row.source row.level) s) (fun a =>
      andThen (exec (.trigger 0 (.onSignal sig)) a) fun b =>
      andThen (exec (.trigger 1 (.onSignal sig)) b) fun c =>
      exec (.trigger 2 (.onSignal sig)) c) ∧
    ((∀ ch : Channel, Startable s.dma[ch] (.onSignal sig) → s.dma[ch].indirect = false) →
      ∃ t, exec (.signal sig) s = .next t ∧ Raised row.source row.level s.intr t.intr ∧
        (∀ ch : Channel, (Startable s.dma[ch] (.onSignal sig) → t.dma[ch] = started s.dma[ch]) ∧
          (¬ Startable s.dma[ch] (.onSignal sig) → t.dma[ch] = s.dma[ch])) ∧
        t = { s with
          dma := t.dma, intr := t.intr, traceLog := traced s (.raiseInterrupt row.source row.level) })

/-- R72: each pseudo-operation is its expansion, and answers where the expansion answers: a signal that starts no channel in
indirect mode; the pair read returns the level and the vector the two reads return. (`SoftwareStart` completes as
`Trigger(ch, Software)` does: see the statements about Trigger.) -/
def Obligations.PseudoOperationsAreTheirExpansions : Prop :=
  ∀ (s : State),
    (∀ (p : Instr) (sig : Signal),
      ((p = .triggerVBlankIN ∧ sig = .vBlankIN) ∨ (p = .triggerVBlankOUT ∧ sig = .vBlankOUT) ∨
        (p = .triggerHBlankIN ∧ sig = .hBlankIN) ∨
        ∃ n, p = .cbTriggerExternalInterruptN n ∧ sig = .external n) →
      exec p s = exec (.signal sig) s ∧
      ((∀ ch : Channel, Startable s.dma[ch] (.onSignal sig) → s.dma[ch].indirect = false) →
        ∃ t, exec p s = .next t ∧ exec (.signal sig) s = .next t)) ∧
    (∀ ch : Nat, exec (.softwareStart ch) s = exec (.trigger ch .software) s) ∧
    ∃ level vector, exec .getPendingInterruptLevel s = .next { s with result := .level level } ∧
      exec .getPendingInterruptVector s = .next { s with result := .vector vector } ∧
      exec .getPendingInterrupt s = .next { s with result := .pair level vector }

/-- R147, R50: `ScuTick` ticks channels 0, 1, 2 in that order and then steps the DSP, whose step does nothing unless it is
executing and not paused; with the DSP not running and every Active channel having work left outside the register window
(log entry 8), it answers with every Active channel moved on by a batch. -/
def Obligations.ScuTickTicksTheChannelsThenTheDsp : Prop :=
  ∀ s : State,
    exec .scuTick s =
      andThen (exec (.tick 0) s) (fun a =>
      andThen (exec (.tick 1) a) fun b =>
      andThen (exec (.tick 2) b) fun c =>
      exec .dspStep c) ∧
    ((∀ ch : Channel, s.dma[ch].active = true →
        s.cfg.dmaBatch < s.dma[ch].currXferCount.toNat ∧ UnitsOffWindow s ch s.cfg.dmaBatch) →
      (s.dsp.programExecuting = false ∨ s.dsp.programPaused = true) →
      ∃ t, exec .scuTick s = .next t ∧
        (∀ ch : Channel, t.dma[ch] = if s.dma[ch].active then moved s.dma[ch] s.cfg.dmaBatch else s.dma[ch]) ∧
        (∀ a, (∀ ch : Channel, s.dma[ch].active = true → ∀ k < s.cfg.dmaBatch, ∀ j < s.cfg.dmaUnitBytes,
            a ≠ (busAddr (dstOf s.dma[ch] k) j).toNat) → Memory.read t.mem a = Memory.read s.mem a) ∧
        t = { s with dma := t.dma, mem := t.mem, freeCount := t.freeCount })

/-- R150: a post only enqueues (a source above 31 is a contract violation); a drain raises every request, oldest first, and
empties the queue: a source's level is its last request's. -/
def Obligations.AudioQueueIsDrainedInOrder : Prop :=
  ∀ s : State,
    (∀ (source : Nat) (level : Level), 31 < source →
      exec (.postAudioInterrupt source level) s = .next (faulted s .badSourceIndex)) ∧
    (∀ (source : SourceIndex) (level : Level),
      exec (.postAudioInterrupt source level) s = .next { s with audioQueue := s.audioQueue ++ [⟨source, level⟩] }) ∧
    ∃ t, exec .drainAudioQueue s = .next t ∧
      (∀ i : SourceIndex, t.intr.status.getLsbD i = (s.intr.status.getLsbD i || s.audioQueue.any fun e => e.source = i)) ∧
      (∀ i : SourceIndex, t.intr.level[i] =
        (((s.audioQueue.filter fun e => e.source = i).getLast?).map SourceLevel.level).getD s.intr.level[i]) ∧
      t = { s with
        audioQueue := []
        intr := { t.intr with mask := s.intr.mask }
        traceLog :=
          if s.cfg.tracer then s.traceLog ++ s.audioQueue.map (fun e => .raiseInterrupt e.source e.level)
          else s.traceLog }

/-- R34, R151: what `Reset` leaves, in both columns of the table; memory, the trace, the mark and the parameters stay. The
values the table marks D are the spec's decision, those of `windowAddr` and `dmaTarget` the model's (log entries 16, 14). -/
def Obligations.ResetLeavesTheTableOfResetValues : Prop :=
  ∀ (s : State) (kind : ResetKind), ∃ t, exec (.reset kind) s = .next t ∧
    t.intr.status = 0 ∧ t.intr.mask = 0 ∧ (∀ i : SourceIndex, t.intr.level[i] = 0) ∧
    t.sched.currCycle = 0 ∧ t.sched.ev.length = s.sched.ev.length ∧
    (∀ (id : Nat) (e : EventSlot), s.sched.ev[id]? = some e → t.sched.ev[id]? = some
      { id := e.id, target := 0, countNumerator := 0, countDenominator := 1, live := false, periodic := false,
        remainder := 0 }) ∧
    (∀ ch : Channel, t.dma[ch] =
      { srcAddr := 0, dstAddr := 0, xferCount := 0, srcAddrInc := 0, dstAddrInc := 0, updateSrcAddr := false,
        updateDstAddr := false, enabled := false, indirect := false, trigger := .software, active := false,
        currSrcAddr := 0, currDstAddr := 0, currXferCount := 0, currSrcAddrInc := 0, currDstAddrInc := 0,
        currIndirectSrc := 0, endIndirect := false, currIndirect := false, currUpdateSrc := false,
        currUpdateDst := false }) ∧
    t.dsp.programExecuting = false ∧ t.dsp.programPaused = false ∧ t.dsp.programEnded = false ∧
    t.dsp.programStep = false ∧ t.dsp.dmaRun = false ∧ t.dsp.dmaHold = false ∧ t.dsp.dmaToD0 = false ∧
    t.dsp.jmpCounter = 0 ∧ t.audioQueue = [] ∧
    (kind = .hard → (∀ k : Fin 256, t.dsp.programRAM[k] = 0) ∧ (∀ (b : Fin 4) (k : Fin 64), t.dsp.dataRAM[b][k] = 0) ∧
      (∀ b : Fin 4, t.dsp.CT[b] = 0) ∧ t.dsp.PC = 0 ∧ t.dsp.nextPC = 0 ∧ t.dsp.sign = false ∧ t.dsp.zero = false ∧
      t.dsp.carry = false ∧ t.dsp.overflow = false ∧ t.dsp.ALU = 0 ∧ t.dsp.AC = 0 ∧ t.dsp.P = 0 ∧ t.dsp.RX = 0 ∧
      t.dsp.RY = 0 ∧ t.dsp.LOP = 0 ∧ t.dsp.TOP = 0 ∧ t.dsp.dmaCount = 0 ∧ t.dsp.dmaSrc = 0 ∧ t.dsp.dmaDst = 0 ∧
      t.dsp.dmaReadAddr = 0 ∧ t.dsp.dmaWriteAddr = 0 ∧ t.dsp.dmaAddrInc = 0 ∧ t.dsp.dmaTarget = .data 0 ∧
      t.dsp.windowAddr = 0) ∧
    (kind = .soft → t.dsp = { s.dsp with
      nextPC := BitVec.ofNat 8 s.dsp.PC, jmpCounter := 0, dmaRun := false, dmaToD0 := false, dmaHold := false,
      programExecuting := false, programPaused := false, programEnded := false, programStep := false }) ∧
    t = { s with sched := t.sched, intr := t.intr, dma := t.dma, dsp := t.dsp, audioQueue := t.audioQueue }

/-- R36, R153, R154: `SaveState` changes nothing and returns an image; from a state with the invariants, loading that image
into any state with as many event slots and the same version answers ok and gives every item its saved value, the latches,
remainders and audio queue included, and leaves `fault`, the trace and the parameters. -/
def Obligations.SavedStateLoadsBackWhole : Prop :=
  ∀ s : State, ∃ image, exec .saveState s = .next { s with result := .image image } ∧
    ∀ u : State, s.Inv → u.cfg.imageVersion = s.cfg.imageVersion → u.sched.ev.length = s.sched.ev.length →
      exec (.loadState image) u = .next { u with
        sched := s.sched, intr := s.intr, dma := s.dma, dsp := s.dsp, audioQueue := s.audioQueue, result := .ok }

/-- R154: `LoadState` takes exactly the images of its version that are valid, each clause of `Valid` apart, and every item of
the image then has its saved value; any other is rejected and changes nothing. The version and the number of slots are the
model's part of `Valid` (log entry 25). -/
def Obligations.LoadStateTakesExactlyTheValidImages : Prop :=
  ∀ (s : State) (image : Image),
    let good : Prop :=
      image.version = s.cfg.imageVersion ∧ image.sched.ev.length = s.sched.ev.length ∧ image.dsp.PC < 256 ∧
      (∀ b : Fin 4, image.dsp.CT[b] < 64) ∧ (∀ ch : Channel, image.dma[ch].active = true → image.dma[ch].enabled = true) ∧
      ∀ (id : Nat) (e : EventSlot), image.sched.ev[id]? = some e →
        e.id = id ∧ 1 ≤ e.countDenominator.toNat ∧ e.remainder.toNat < e.countDenominator.toNat ∧
        (e.live = true → e.periodic = true → 1 ≤ e.countNumerator.toNat)
    (good → exec (.loadState image) s = .next { s with
      sched := image.sched, intr := image.intr, dma := image.dma, dsp := image.dsp, audioQueue := image.audioQueue,
      result := .ok }) ∧
    (¬ good → exec (.loadState image) s = .next { s with result := .rejected })

/-! ## Register surface and bus (30_encoding.md, 20_memory.md) -/

/-- R66 to R68, R48: what `RegRead` returns at an aligned offset: the interrupt registers, the configured fields of a channel,
with the default layout in the bit positions of R68 (an increment or trigger that has no code reads as a free code, log entry
10; other bits are free, log entry 9), never a cursor; nothing of the block changes. An unnamed offset returns a free word
(U6, log entry 9), a window register what `DspExec` gives (log entry 16). -/
def Obligations.RegReadReturnsTheConfiguredFields : Prop :=
  ∀ (s : State) (offset : Word), offset.toNat % 4 = 0 →
    (∃ t w, exec (.regRead offset) s = .next t ∧ t.result = .word w ∧
      t = { s with dsp := t.dsp, freeCount := t.freeCount, result := t.result } ∧
      ((∀ r, s.regAt offset ≠ some (.window r)) → t.dsp = s.dsp) ∧
      (s.regAt offset = some .ims → w = s.intr.mask) ∧
      (s.regAt offset = some .ist → w = s.intr.status) ∧
      ∀ ch : Channel,
        (s.regAt offset = some (.readAddr ch) → w = s.dma[ch].srcAddr) ∧
        (s.regAt offset = some (.writeAddr ch) → w = s.dma[ch].dstAddr) ∧
        (s.regAt offset = some (.count ch) → w = s.dma[ch].xferCount) ∧
        (s.cfg.layout = RegLayout.default → s.regAt offset = some (.addressAdd ch) →
          (s.dma[ch].srcAddrInc = 4 → w.getLsbD 8 = true) ∧ (s.dma[ch].srcAddrInc = 0 → w.getLsbD 8 = false) ∧
          (s.dma[ch].dstAddrInc = 0 → w.extractLsb' 0 3 = 0) ∧
          ∀ code : BitVec 3, code ≠ 0 → s.dma[ch].dstAddrInc = BitVec.ofNat 32 (2 ^ code.toNat) →
            w.extractLsb' 0 3 = code) ∧
        (s.cfg.layout = RegLayout.default → s.regAt offset = some (.enable ch) → w.getLsbD 8 = s.dma[ch].enabled) ∧
        (s.cfg.layout = RegLayout.default → s.regAt offset = some (.mode ch) →
          w.getLsbD 24 = s.dma[ch].indirect ∧ w.getLsbD 16 = s.dma[ch].updateSrcAddr ∧
          w.getLsbD 8 = s.dma[ch].updateDstAddr ∧
          ∀ code : Fin 8, s.dma[ch].trigger = RegLayout.default.startFactors[code] →
            w.extractLsb' 0 3 = BitVec.ofNat 3 code.val))

/-- R66 to R68: the write to an aligned offset performs the named operations, its fields where the layout has them (the
default's are R68's), with the operands the register does not mention taken from the present configuration; a status write and
an unnamed offset (U6, log entry 9) change nothing. R70: a window write changes only the DSP; through PPD and PDD it replaces a
word of program or data RAM, at an index that is `DspExec`'s (log entry 16). It answers unless it starts a channel in indirect
mode, whose descriptor read may stop. -/
def Obligations.RegWritePerformsTheNamedOperation : Prop :=
  (RegLayout.default.srcIncBit = 8 ∧ (∀ b : Fin 2, RegLayout.default.srcIncs[b] = BitVec.ofNat 32 (4 * b.val)) ∧
    RegLayout.default.dstIncLow = 0 ∧
    (∀ k : Fin 8, RegLayout.default.dstIncs[k] = if k = 0 then 0 else BitVec.ofNat 32 (2 ^ k.val)) ∧
    RegLayout.default.indirectBit = 24 ∧ RegLayout.default.updateSrcBit = 16 ∧ RegLayout.default.updateDstBit = 8 ∧
    RegLayout.default.startFactorLow = 0 ∧
    RegLayout.default.startFactors.toList = [.onSignal .vBlankIN, .onSignal .vBlankOUT, .onSignal .hBlankIN,
      .onSignal .timer0, .onSignal .timer1, .onSignal .soundRequest, .spriteDrawEnd, .software] ∧
    RegLayout.default.enableBit = 8 ∧ RegLayout.default.startBit = 0) ∧
  ∀ (s : State) (offset v : Word) (l : RegLayout), offset.toNat % 4 = 0 → l = s.cfg.layout →
    (s.regAt offset = some .ims → exec (.regWrite offset v) s = exec (.setInterruptMask v) s) ∧
    (s.regAt offset = some .ist → exec (.regWrite offset v) s = exec (.writeInterruptStatus v) s) ∧
    (s.regAt offset = none → exec (.regWrite offset v) s = .next s) ∧
    (∀ r, s.regAt offset = some (.window r) → ∃ d, exec (.regWrite offset v) s = .next { s with dsp := d } ∧
      (∀ k : Fin 256, d.programRAM[k] =
        if r = .ppd ∧ k = Config.dspWindowProgramIndex s.dsp then v else s.dsp.programRAM[k]) ∧
      ∀ (b : Fin 4) (k : Fin 64), d.dataRAM[b][k] =
        if r = .pdd ∧ (b, k) = Config.dspWindowDataIndex s.dsp then v else s.dsp.dataRAM[b][k]) ∧
    ((∀ ch : Channel, s.regAt offset = some (.enable ch) → v.getLsbD l.startBit = false ∨ s.dma[ch].indirect = false) →
      ∃ t, exec (.regWrite offset v) s = .next t ∧ t = { s with dma := t.dma, intr := t.intr, dsp := t.dsp }) ∧
    ∀ (ch : Channel) (c : DmaChannel), c = s.dma[ch] →
      (s.regAt offset = some (.readAddr ch) → exec (.regWrite offset v) s =
        exec (.configure ch v c.dstAddr c.xferCount c.srcAddrInc c.dstAddrInc c.indirect c.trigger) s) ∧
      (s.regAt offset = some (.writeAddr ch) → exec (.regWrite offset v) s =
        exec (.configure ch c.srcAddr v c.xferCount c.srcAddrInc c.dstAddrInc c.indirect c.trigger) s) ∧
      (s.regAt offset = some (.count ch) → exec (.regWrite offset v) s =
        exec (.configure ch c.srcAddr c.dstAddr v c.srcAddrInc c.dstAddrInc c.indirect c.trigger) s) ∧
      (s.regAt offset = some (.addressAdd ch) → ∀ code : Fin 8, code.val = (v.extractLsb' l.dstIncLow 3).toNat →
        exec (.regWrite offset v) s =
          exec (.configure ch c.srcAddr c.dstAddr c.xferCount (if v.getLsbD l.srcIncBit then l.srcIncs[1] else l.srcIncs[0])
            l.dstIncs[code] c.indirect c.trigger) s) ∧
      (s.regAt offset = some (.mode ch) → ∀ code : Fin 8, code.val = (v.extractLsb' l.startFactorLow 3).toNat →
        exec (.regWrite offset v) s =
          andThen (exec (.configure ch c.srcAddr c.dstAddr c.xferCount c.srcAddrInc c.dstAddrInc (v.getLsbD l.indirectBit)
            l.startFactors[code]) s) fun t =>
          exec (.setAddressUpdate ch (v.getLsbD l.updateSrcBit) (v.getLsbD l.updateDstBit)) t) ∧
      (s.regAt offset = some (.enable ch) → exec (.regWrite offset v) s =
        andThen (exec (.setEnabled ch (v.getLsbD l.enableBit)) s) fun t =>
        if v.getLsbD l.startBit then exec (.trigger ch .software) t else .next t)

/-- R45, R55, R66, U7, U8: an offset that is no multiple of 4 is refused. A bus access of a channel, of the DSP's DMA or of
another bus master outside the register window is the bus's; a word at a multiple of 4 in it is the register access at its offset, a channel's own write that
does not disturb it too; any other access that touches it is refused, and so is one that would start or disable its performer
(for the DSP: change a run flag). The window's size is log entry 8; that any other nested access is performed, and what U8
means for the DSP, is log entry 29. -/
def Obligations.RegisterWindowOnTheBus : Prop :=
  (∀ (s : State) (offset v : Word), offset.toNat % 4 ≠ 0 →
    exec (.regRead offset) s = .refused .misalignedRegisterAccess ∧
    exec (.regWrite offset v) s = .refused .misalignedRegisterAccess) ∧
  (∀ (s : State) (p : Performer) (a : Word) (n : Nat), s.OffWindow a n → ∃ bytes t, memRead p a n s = .next (bytes, t) ∧
    bytes.length = n ∧ t = { s with freeCount := t.freeCount } ∧
    (Plain s a n → t = s ∧ ∀ j < n, bytes[j]? = some (Memory.read s.mem (busAddr a j).toNat))) ∧
  (∀ (s : State) (p : Performer) (a : Word) (n : Nat), ¬ s.OffWindow a n →
    (n ≠ 4 → memRead p a n s = .refused .misalignedRegisterAccess ∧
      ∀ bytes : List Byte, bytes.length = n → memWrite p a bytes s = .refused .misalignedRegisterAccess) ∧
    (n = 4 → (a - s.cfg.scuBase).toNat % 4 ≠ 0 →
      (¬ DisturbsRead s p (a - s.cfg.scuBase) → memRead p a n s = .refused .misalignedRegisterAccess) ∧
      ∀ v, ¬ Disturbs s p (a - s.cfg.scuBase) v → memWrite p a (wordBytes v) s = .refused .misalignedRegisterAccess)) ∧
  (∀ (s : State) (p : Performer) (a v : Word), ¬ s.OffWindow a 4 →
    (DisturbsRead s p (a - s.cfg.scuBase) → memReadWord p a s = .refused .selfDisturbingAccess) ∧
    (Disturbs s p (a - s.cfg.scuBase) v → memWrite p a (wordBytes v) s = .refused .selfDisturbingAccess) ∧
    ((a - s.cfg.scuBase).toNat % 4 = 0 →
      (¬ DisturbsRead s p (a - s.cfg.scuBase) → ∀ t w, exec (.regRead (a - s.cfg.scuBase)) s = .next t → t.result = .word w →
        ∃ u, memReadWord p a s = .next (w, u) ∧ t = { u with result := .word w }) ∧
      (¬ Disturbs s p (a - s.cfg.scuBase) v →
        memWrite p a (wordBytes v) s = exec (.regWrite (a - s.cfg.scuBase) v) s)))

/-- R44, R46: on plain memory in canonical form a write of bytes reads back byte for byte at ascending addresses modulo 2^32,
a word is stored most significant byte first (log entry 20), and every byte outside the write is as before. -/
def Obligations.BusWritesReadBackBigEndian : Prop :=
  (∀ (s : State) (p q : Performer) (a : Word) (bytes : List Byte), s.OffWindow a bytes.length →
    Plain s a bytes.length → bytes.length ≤ 2 ^ 32 → Memory.wf s.mem = true →
    ∃ t, memWrite p a bytes s = .next t ∧ t = { s with mem := t.mem } ∧ memRead q a bytes.length t = .next (bytes, t) ∧
      ∀ b, (∀ j < bytes.length, b ≠ (busAddr a j).toNat) → Memory.read t.mem b = Memory.read s.mem b) ∧
  (∀ v : Word, wordBytes v =
    [v.extractLsb' 24 8, v.extractLsb' 16 8, v.extractLsb' 8 8, v.extractLsb' 0 8] ∧ bytesWord (wordBytes v) = v)

/-! ## DSP (44_dsp.md) -/

/-- R162 to R164: a step of a DSP that is not executing, or paused, changes nothing; otherwise, with no DSP DMA in progress (log
entry 14), it executes the instruction the fetched word decodes to, by its variant, with what `programStep` then does left
free (log entry 17); it answers for every word when the bus has no register window (with one, a DSP DMA into it may stop). -/
def Obligations.DspStepExecutesTheDecodedWord : Prop :=
  ∀ (s : State),
    ((s.dsp.programExecuting = false ∨ s.dsp.programPaused = true) → exec .dspStep s = .next s) ∧
    (s.dsp.programExecuting = true → s.dsp.programPaused = false →
      (s.dsp.dmaRun = false → ∀ (pc : Fin 256), s.dsp.PC = pc.val →
        ∀ t, exec (Instr.ofDsp (Config.dspDecode s.dsp.programRAM[pc])) s = .next t →
          ∃ u, exec .dspStep s = .next u ∧
            u = { t with dsp := { t.dsp with programPaused := u.dsp.programPaused, programStep := u.dsp.programStep } } ∧
            (t.dsp.programStep = false → u = t)) ∧
      (s.cfg.scuWindowBytes = 0 → ∃ t, exec .dspStep s = .next t ∧
        t = { s with dsp := t.dsp, mem := t.mem, intr := t.intr, traceLog := t.traceLog, freeCount := t.freeCount }))

/-- R165, R175: an `Operation` answers; its three slots read the state before the instruction: X and D1 moves of one source,
and a Y or D1 move of any source beside an X move that advances a cursor, write the value the source held before; a
multiply writes the exact signed product; the low half of the ALU result is the operation on two 32-bit operands (which ones
is free, log entry 11); ADD and SUB set overflow on signed overflow of them, shifts never set it; program, DMA sub-state and
run flags stay, for unlisted slot forms too (log entry 11), and PC advances. -/
def Obligations.DspOperationReadsThePreInstructionState : Prop :=
  ∀ (s : State) (alu : DspAluOp) (x y d1 : DspSlot),
    ∃ t, exec (.dspOperation alu x y d1) s = .next t ∧ t = { s with dsp := t.dsp } ∧
      t.dsp.PC = pcAfter s.dsp ∧ t.dsp.jmpCounter = s.dsp.jmpCounter - 1 ∧ DspFrame s.dsp t.dsp ∧
      (∀ (src : DspSource) (bank : Fin 4), x = .move src .rx → y = .idle → d1 = .move src (.ram bank false) →
        t.dsp.RX = dspSourceValue src s.dsp ∧
        Dsp.ramAt t.dsp bank (Dsp.cursor s.dsp bank) = dspSourceValue src s.dsp) ∧
      (∀ (bank : Fin 4), x = .move (.ram bank true) .rx → y = .idle → d1 = .idle →
        t.dsp.RX = Dsp.ramAt s.dsp bank (Dsp.cursor s.dsp bank) ∧ t.dsp.CT[bank] = (s.dsp.CT[bank] + 1) % 64) ∧
      (∀ (src : DspSource) (bank bank' : Fin 4), x = .move (.ram bank true) .rx → y = .move src .ry →
        d1 = .move src (.ram bank' false) →
        t.dsp.RX = Dsp.ramAt s.dsp bank (Dsp.cursor s.dsp bank) ∧ t.dsp.RY = dspSourceValue src s.dsp ∧
        Dsp.ramAt t.dsp bank' (Dsp.cursor s.dsp bank') = dspSourceValue src s.dsp) ∧
      (∀ bank : Fin 4, x = .move .ry .rx → y = .move .rx .ry → d1 = .move .rx (.ram bank false) →
        t.dsp.RX = s.dsp.RY ∧ t.dsp.RY = s.dsp.RX ∧ Dsp.ramAt t.dsp bank (Dsp.cursor s.dsp bank) = s.dsp.RX) ∧
      (x = .multiply → y = .idle → d1 = .idle → t.dsp.P.toInt = s.dsp.RX.toInt * s.dsp.RY.toInt) ∧
      (∀ a b : Word, Config.dspAluOperands alu s.dsp = (a, b) →
        (alu = .and → t.dsp.ALU.setWidth 32 = a &&& b) ∧ (alu = .or → t.dsp.ALU.setWidth 32 = a ||| b) ∧
        (alu = .xor → t.dsp.ALU.setWidth 32 = a ^^^ b) ∧ (alu = .add → t.dsp.ALU.setWidth 32 = a + b) ∧
        (alu = .sub → t.dsp.ALU.setWidth 32 = a - b) ∧
        (alu = .add → (a.toInt + b.toInt < -2 ^ 31 ∨ 2 ^ 31 ≤ a.toInt + b.toInt) → t.dsp.overflow = true) ∧
        (alu = .sub → (a.toInt - b.toInt < -2 ^ 31 ∨ 2 ^ 31 ≤ a.toInt - b.toInt) → t.dsp.overflow = true) ∧
        (alu = .add → -2 ^ 31 ≤ a.toInt + b.toInt → a.toInt + b.toInt < 2 ^ 31 → t.dsp.overflow = true →
          s.dsp.overflow = true) ∧
        (alu = .sub → -2 ^ 31 ≤ a.toInt - b.toInt → a.toInt - b.toInt < 2 ^ 31 → t.dsp.overflow = true →
          s.dsp.overflow = true)) ∧
      (∀ form, alu = .shiftRotate form → t.dsp.overflow = true → s.dsp.overflow = true)

/-- R166, R176: `MVI` answers; when its condition holds on the state before, the destination gets the immediate's low `width`
bits sign-extended to its width (LOP's is free, log entry 11), a post-incrementing RAM destination advances its cursor, and
nothing else but the PC changes (a destination the document does not list writes slot registers only, log entry 11); when not,
only the PC advances. What the condition names test is R176's reading, the spec's general knowledge
(log entry 13). -/
def Obligations.DspMoveImmediateIsConditional : Prop :=
  ∀ (s : State) (dest : DspDest) (imm : Word) (width : Nat) (cond : DspCond), width ≤ 32 →
    (condHolds .none s.dsp = true ∧ condHolds .z s.dsp = s.dsp.zero ∧ condHolds .s s.dsp = s.dsp.sign ∧
      condHolds .c s.dsp = s.dsp.carry ∧ condHolds .t0 s.dsp = s.dsp.dmaRun ∧
      condHolds .zs s.dsp = (s.dsp.zero || s.dsp.sign) ∧ condHolds .nz s.dsp = !s.dsp.zero ∧
      condHolds .ns s.dsp = !s.dsp.sign ∧ condHolds .nc s.dsp = !s.dsp.carry ∧ condHolds .nt0 s.dsp = !s.dsp.dmaRun ∧
      condHolds .nzs s.dsp = !(s.dsp.zero || s.dsp.sign)) ∧
    (condHolds cond s.dsp = false →
      exec (.dspMVI dest imm width cond) s = .next { s with dsp := advanced s.dsp }) ∧
    (condHolds cond s.dsp = true →
      ∃ t, exec (.dspMVI dest imm width cond) s = .next t ∧ t = { s with dsp := t.dsp } ∧
        t.dsp.PC = pcAfter s.dsp ∧ t.dsp.jmpCounter = s.dsp.jmpCounter - 1 ∧ DspFrame s.dsp t.dsp ∧
        ∀ v : Word, v.toInt = (imm.setWidth width).toInt →
          (dest = .rx → t.dsp = { advanced s.dsp with RX := v }) ∧
          (dest = .ry → t.dsp = { advanced s.dsp with RY := v }) ∧
          (dest = .readAddr → t.dsp = { advanced s.dsp with dmaReadAddr := v }) ∧
          (dest = .writeAddr → t.dsp = { advanced s.dsp with dmaWriteAddr := v }) ∧
          (dest = .p → t.dsp = { advanced s.dsp with P := t.dsp.P } ∧ t.dsp.P.toInt = v.toInt) ∧
          (dest = .ac → t.dsp = { advanced s.dsp with AC := t.dsp.AC } ∧ t.dsp.AC.toInt = v.toInt) ∧
          (dest = .top → t.dsp = { advanced s.dsp with TOP := v.setWidth 8 }) ∧
          (dest = .lop → ∃ n : BitVec Config.dspLopBits, t.dsp = { advanced s.dsp with LOP := n.toNat } ∧
            (Config.dspLopBits ≤ 32 → n = v.setWidth Config.dspLopBits) ∧ (32 ≤ Config.dspLopBits → n.toInt = v.toInt)) ∧
          (∀ bank : Fin 4, dest = .ct bank → t.dsp = { advanced s.dsp with CT := s.dsp.CT.set bank (v.toNat % 64) }) ∧
          ∀ (bank : Fin 4) (postInc : Bool), dest = .ram bank postInc →
            Dsp.ramAt t.dsp bank (Dsp.cursor s.dsp bank) = v ∧
            t.dsp = { advanced s.dsp with
              dataRAM := t.dsp.dataRAM
              CT := if postInc then s.dsp.CT.set bank ((Dsp.cursor s.dsp bank + 1) % 64) else s.dsp.CT } ∧
            ∀ (b : Fin 4) (k : Fin 64), (b ≠ bank ∨ k.val ≠ Dsp.cursor s.dsp bank % 64) →
              t.dsp.dataRAM[b][k] = s.dsp.dataRAM[b][k])

/-- R168, R171: a taken `JMP` writes `nextPC` and leaves one instruction to run: the step ends at the next address, and the one
after it, whatever it is that does not jump itself (here `Invalid` and an untaken `MVI`), ends at the target; with a
condition that fails only the PC advances. A `JMP` in a delay slot, which R171 does not address, does the same (log entry 18);
the conditions are log entry 13. -/
def Obligations.DspJumpHasOneDelaySlot : Prop :=
  ∀ (s : State) (cond : DspCond) (target : BitVec 8),
    (condHolds cond s.dsp = true →
      ∃ t, exec (.dspJMP cond target) s = .next t ∧
        t = { s with dsp := { s.dsp with nextPC := target, jmpCounter := 1, PC := (s.dsp.PC + 1) % 256 } } ∧
        exec .dspInvalid t = .next { t with dsp := { t.dsp with jmpCounter := 0, PC := target.toNat } } ∧
        ∀ dest imm width cond', condHolds cond' t.dsp = false →
          exec (.dspMVI dest imm width cond') t = .next { t with dsp := { t.dsp with jmpCounter := 0, PC := target.toNat } }) ∧
    (condHolds cond s.dsp = false → exec (.dspJMP cond target) s = .next { s with dsp := advanced s.dsp })

/-- R169 to R174: `BTM` counts `LOP` down and goes to `TOP` until it is 0, then falls through; `END` halts the program, `ENDI`
also raises `DspEnd`; `Invalid` changes nothing but the PC; `LPS` answers, and what it writes is free (log entry 15). The
loop's target is taken when no jump is pending (log entry 18). -/
def Obligations.DspLoopEndAndInvalid : Prop :=
  ∀ s : State,
    exec .dspInvalid s = .next { s with dsp := advanced s.dsp } ∧
    (s.dsp.LOP = 0 → exec .dspBTM s = .next { s with dsp := advanced s.dsp }) ∧
    (s.dsp.LOP ≠ 0 → s.dsp.jmpCounter = 0 →
      exec .dspBTM s = .next { s with dsp := { s.dsp with LOP := s.dsp.LOP - 1, PC := s.dsp.TOP.toNat } }) ∧
    (s.dsp.LOP ≠ 0 → s.dsp.jmpCounter ≠ 0 →
      exec .dspBTM s = .next { s with dsp := { advanced s.dsp with LOP := s.dsp.LOP - 1 } }) ∧
    exec .dspEND s = .next { s with dsp := { advanced s.dsp with programEnded := true, programExecuting := false } } ∧
    (∃ t, exec .dspENDI s = .next t ∧ Raised s.cfg.dspEnd.source s.cfg.dspEnd.level s.intr t.intr ∧
      t = { s with
        dsp := { advanced s.dsp with programEnded := true, programExecuting := false }, intr := t.intr,
        traceLog := traced s (.raiseInterrupt s.cfg.dspEnd.source s.cfg.dspEnd.level) }) ∧
    ∃ t, exec .dspLPS s = .next t ∧ t = { s with dsp := t.dsp } ∧ t.dsp.PC = pcAfter s.dsp ∧
      t.dsp.jmpCounter = s.dsp.jmpCounter - 1 ∧ DspFrame s.dsp t.dsp

/-- R167: a DSP `DMA` whose D0 addresses lie outside the register window answers: it loads the sub-state, notifies (with these
arguments: log entry 24), and has moved the first m of its words, for some m (how many at once is free), `dmaCount` being the
words left and `dmaRun` whether any are; towards the D0 bus the words of the bank from its cursor on, modulo 64, go to the bus
and no other byte changes; from it nothing in memory changes and the words go to the bank. What it loads into the four words no
operand gives is free; that `dmaReadAddr` and `dmaWriteAddr` are the D0 addresses, stepped in bytes, and the bank's cursor the
index, is log entry 14. `first` is the cursor after a count operand that advances it. The data clauses are for plain memory
(in canonical form) and, towards the bus, an increment of 4. -/
def Obligations.DspDmaMovesWordsBetweenBusAndRam : Prop :=
  ∀ (s : State) (toD0 hold : Bool) (count : DspDmaCount) (n : Word) (ram : DspRam) (inc base : Word) (first : Fin 4 → Nat)
    (l : DspDmaLoad),
    n = (match count with | .immediate v => v | .register src => dspSourceValue src s.dsp) →
    l = Config.dspDmaLoad (.dma toD0 hold count ram inc) s.dsp → base = (if toD0 then l.writeAddr else l.readAddr) →
    (∀ b : Fin 4, first b = if count = .register (.ram b true) then (s.dsp.CT[b] + 1) % 64 else s.dsp.CT[b]) →
    (∀ k < n.toNat, s.OffWindow (dspAddr base inc hold k) 4) →
    ∃ t, exec (.dspDMA toD0 hold count ram inc) s = .next t ∧
      t = { s with dsp := t.dsp, mem := t.mem, freeCount := t.freeCount, traceLog := traced s (.dspDMA toD0 hold n) } ∧
      t.dsp.dmaToD0 = toD0 ∧ t.dsp.dmaHold = hold ∧ t.dsp.dmaAddrInc = inc ∧ t.dsp.dmaTarget = ram ∧
      t.dsp.dmaSrc = l.src ∧ t.dsp.dmaDst = l.dst ∧
      t.dsp.dmaRun = decide (t.dsp.dmaCount ≠ 0) ∧ t.dsp.PC = pcAfter s.dsp ∧
      t.dsp.jmpCounter = s.dsp.jmpCounter - 1 ∧
      t.dsp = { t.dsp with
        nextPC := s.dsp.nextPC, sign := s.dsp.sign, zero := s.dsp.zero, carry := s.dsp.carry,
        overflow := s.dsp.overflow, ALU := s.dsp.ALU, AC := s.dsp.AC, P := s.dsp.P, RX := s.dsp.RX, RY := s.dsp.RY,
        LOP := s.dsp.LOP, TOP := s.dsp.TOP, programExecuting := s.dsp.programExecuting,
        programPaused := s.dsp.programPaused, programEnded := s.dsp.programEnded, programStep := s.dsp.programStep,
        windowAddr := s.dsp.windowAddr } ∧
      ∃ m : Nat, m ≤ n.toNat ∧ t.dsp.dmaCount = n - BitVec.ofNat 32 m ∧
        (∀ b : Fin 4, ram ≠ .data b → t.dsp.dataRAM[b] = s.dsp.dataRAM[b] ∧ t.dsp.CT[b] = first b) ∧
        (∀ b : Fin 4, ram = .data b → t.dsp.CT[b] % 64 = (first b + m) % 64 ∧ t.dsp.programRAM = s.dsp.programRAM) ∧
        (toD0 = true → t.dsp.dmaWriteAddr = dspAddr base inc hold m ∧ t.dsp.dmaReadAddr = l.readAddr ∧
          t.dsp.programRAM = s.dsp.programRAM ∧ t.dsp.dataRAM = s.dsp.dataRAM ∧
          (∀ a, (∀ k < m, ∀ j < 4, a ≠ (busAddr (dspAddr base inc hold k) j).toNat) →
            Memory.read t.mem a = Memory.read s.mem a) ∧
          ∀ bank : Fin 4, ram = .data bank → inc = 4 → hold = false → m ≤ 2 ^ 30 → Memory.wf s.mem = true →
            ∀ k < m, Plain s (dspAddr base inc hold k) 4 →
              wordAt t.mem (dspAddr base inc hold k) = Dsp.ramAt s.dsp bank (first bank + k)) ∧
        (toD0 = false → t.mem = s.mem ∧ t.dsp.dmaReadAddr = dspAddr base inc hold m ∧
          t.dsp.dmaWriteAddr = l.writeAddr ∧
          ∀ bank : Fin 4, ram = .data bank → m ≤ 64 → ∀ k < m, Plain s (dspAddr base inc hold k) 4 →
            Dsp.ramAt t.dsp bank (first bank + k) = wordAt s.mem (dspAddr base inc hold k))

/-! ## Handlers (40_scheduler.md R86) -/

/-- R86, D10: a handler's operations are chosen from the state it sees, its event and the target fired, by its tree of questions,
and performed in order, each as outside a handler (the boundary operations excepted), until a contract violation ends it. An
event without an entry performs nothing. The choice depends on nothing but the save-state image and the bus memory (R154), so
not on TRACER, the trace (R33, R156) or what the last operation returned. The tree and the free function beside it are the model's form (log entry 2), the end
at a violation is log entry 4. -/
def Obligations.HandlersChooseAndPerformTheirOperations : Prop :=
  (∀ (s : State) (id : Nat) (target : Cycles),
    (s.cfg.handlers[id]? = none → s.handlerOps id target = []) ∧
    ∀ h, s.cfg.handlers[id]? = some h → s.handlerOps id target = HandlerAction.ops h s id target) ∧
  (∀ (s s' : State) (id : Nat) (target : Cycles), s'.cfg.handlers = s.cfg.handlers → s'.toImage = s.toImage → s'.mem = s.mem →
    s'.handlerOps id target = s.handlerOps id target) ∧
  (∀ (s : State) (id : Nat) (target c : Cycles) (op : Instr) (yes no : HandlerAction),
    HandlerAction.ops (.perform op yes) s id target = op :: HandlerAction.ops yes s id target ∧
    HandlerAction.ops (.choose (.firedBefore c) yes no) s id target =
      (if target.toNat < c.toNat then HandlerAction.ops yes s id target else HandlerAction.ops no s id target) ∧
    (∀ i : SourceIndex, HandlerAction.ops (.choose (.pending i) yes no) s id target =
      if s.intr.status.getLsbD i then HandlerAction.ops yes s id target else HandlerAction.ops no s id target) ∧
    (∀ ch : Channel, HandlerAction.ops (.choose (.channelActive ch) yes no) s id target =
      if s.dma[ch].active then HandlerAction.ops yes s id target else HandlerAction.ops no s id target) ∧
    ∀ j e, s.sched.ev[j]? = some e → HandlerAction.ops (.choose (.armed j) yes no) s id target =
      if e.live then HandlerAction.ops yes s id target else HandlerAction.ops no s id target) ∧
  ∀ (s u : State) (i : Instr) (is : List Instr), performAll [] s = .next s ∧
    (¬ Boundary i → exec i s = .next u →
      (u.fault = none → performAll (i :: is) s = performAll is u) ∧
      (u.fault ≠ none → performAll (i :: is) s = .next u))
end

