-- ==== Sys2Proof/Laws/Bytes.lean ====
section
/-! SUPPORT. Byte order: laying a number out and reading it back. -/

namespace Sys2Proof

@[simp] theorem beBytes_length (n v : Nat) : (beBytes n v).length = n := by
  induction n generalizing v with
  | zero => rfl
  | succ n ih => simp [beBytes, ih]

@[simp] theorem beNat_nil : beNat [] = 0 := rfl

theorem beNat_lt (bs : List Byte) : beNat bs < 256 ^ bs.length := by
  induction bs with
  | nil => simp
  | cons b bs ih =>
    have hb : b.toNat < 256 := b.isLt
    have : b.toNat * 256 ^ bs.length + beNat bs < 256 * 256 ^ bs.length := by nlinarith
    simpa [beNat, Nat.pow_succ, Nat.mul_comm] using this

/-- Reading back the low `n` bytes gives the number modulo their range. -/
theorem beNat_beBytes (n v : Nat) : beNat (beBytes n v) = v % 256 ^ n := by
  induction n generalizing v with
  | zero => simp [beBytes, Nat.mod_one]
  | succ n ih =>
    simp only [beBytes, beNat, beBytes_length, ih, BitVec.toNat_ofNat]
    have h : v % 256 ^ (n + 1) = v % 256 ^ n + 256 ^ n * (v / 256 ^ n % 256) := Nat.mod_pow_succ
    rw [h, Nat.mul_comm]
    norm_num
    omega

/-- Laying out what was read gives the bytes again. -/
theorem beBytes_beNat (bs : List Byte) : beBytes bs.length (beNat bs) = bs := by
  suffices h : ∀ (bs : List Byte) (hi : Nat), beBytes bs.length (hi * 256 ^ bs.length + beNat bs) = bs by
    simpa using h bs 0
  intro bs
  induction bs with
  | nil => intro hi; rfl
  | cons b bs ih =>
    intro hi
    have hlt := beNat_lt bs
    have hpos : 0 < 256 ^ bs.length := Nat.pow_pos (by decide)
    have e : hi * 256 ^ (b :: bs).length + beNat (b :: bs) = (hi * 256 + b.toNat) * 256 ^ bs.length + beNat bs := by
      simp only [List.length_cons, Nat.pow_succ, beNat]; ring
    rw [e, List.length_cons, beBytes, ih]
    congr 1
    have hd : ((hi * 256 + b.toNat) * 256 ^ bs.length + beNat bs) / 256 ^ bs.length = hi * 256 + b.toNat := by
      rw [Nat.add_comm, Nat.add_mul_div_right _ _ hpos, Nat.div_eq_of_lt hlt, Nat.zero_add]
    rw [hd]
    apply BitVec.eq_of_toNat_eq
    have hb : b.toNat < 256 := b.isLt
    simp only [BitVec.toNat_ofNat]
    omega

@[simp] theorem wordBytes_length (w : Word) : (wordBytes w).length = 4 := by simp [wordBytes]

/-- R44: the four bytes of a word assemble to the word. -/
@[simp] theorem bytesWord_wordBytes (w : Word) : bytesWord (wordBytes w) = w := by
  apply BitVec.eq_of_toNat_eq
  have := w.isLt
  simp only [bytesWord, wordBytes, beNat_beBytes, BitVec.toNat_ofNat]
  omega

end Sys2Proof
end

