-- ==== Sys2Proof/Laws/State.lean ====
section
/-! SUPPORT. One lemma per field per update of State: what the update leaves and what it writes. -/

namespace Sys2Proof.Machine

variable (s : State)

/-! ## setCurrCycle -/

@[simp] theorem State.setCurrCycle_sched (c : Cycles) : (s.setCurrCycle c).sched = { s.sched with currCycle := c } := rfl
@[simp] theorem State.setCurrCycle_intr (c : Cycles) : (s.setCurrCycle c).intr = s.intr := rfl
@[simp] theorem State.setCurrCycle_dma (c : Cycles) : (s.setCurrCycle c).dma = s.dma := rfl
@[simp] theorem State.setCurrCycle_dsp (c : Cycles) : (s.setCurrCycle c).dsp = s.dsp := rfl
@[simp] theorem State.setCurrCycle_audioQueue (c : Cycles) : (s.setCurrCycle c).audioQueue = s.audioQueue := rfl
@[simp] theorem State.setCurrCycle_fault (c : Cycles) : (s.setCurrCycle c).fault = s.fault := rfl
@[simp] theorem State.setCurrCycle_traceLog (c : Cycles) : (s.setCurrCycle c).traceLog = s.traceLog := rfl
@[simp] theorem State.setCurrCycle_mem (c : Cycles) : (s.setCurrCycle c).mem = s.mem := rfl
@[simp] theorem State.setCurrCycle_cfg (c : Cycles) : (s.setCurrCycle c).cfg = s.cfg := rfl
@[simp] theorem State.setCurrCycle_issue (c : Cycles) : (s.setCurrCycle c).issue = s.issue := rfl
@[simp] theorem State.setCurrCycle_inSystemStep (c : Cycles) : (s.setCurrCycle c).inSystemStep = s.inSystemStep := rfl
@[simp] theorem State.setCurrCycle_result (c : Cycles) : (s.setCurrCycle c).result = s.result := rfl
@[simp] theorem State.setCurrCycle_freeCount (c : Cycles) : (s.setCurrCycle c).freeCount = s.freeCount := rfl

/-! ## setSlot -/

@[simp] theorem State.setSlot_sched (id : Nat) (e : EventSlot) : (s.setSlot id e).sched = { s.sched with ev := s.sched.ev.set id e } := rfl
@[simp] theorem State.setSlot_intr (id : Nat) (e : EventSlot) : (s.setSlot id e).intr = s.intr := rfl
@[simp] theorem State.setSlot_dma (id : Nat) (e : EventSlot) : (s.setSlot id e).dma = s.dma := rfl
@[simp] theorem State.setSlot_dsp (id : Nat) (e : EventSlot) : (s.setSlot id e).dsp = s.dsp := rfl
@[simp] theorem State.setSlot_audioQueue (id : Nat) (e : EventSlot) : (s.setSlot id e).audioQueue = s.audioQueue := rfl
@[simp] theorem State.setSlot_fault (id : Nat) (e : EventSlot) : (s.setSlot id e).fault = s.fault := rfl
@[simp] theorem State.setSlot_traceLog (id : Nat) (e : EventSlot) : (s.setSlot id e).traceLog = s.traceLog := rfl
@[simp] theorem State.setSlot_mem (id : Nat) (e : EventSlot) : (s.setSlot id e).mem = s.mem := rfl
@[simp] theorem State.setSlot_cfg (id : Nat) (e : EventSlot) : (s.setSlot id e).cfg = s.cfg := rfl
@[simp] theorem State.setSlot_issue (id : Nat) (e : EventSlot) : (s.setSlot id e).issue = s.issue := rfl
@[simp] theorem State.setSlot_inSystemStep (id : Nat) (e : EventSlot) : (s.setSlot id e).inSystemStep = s.inSystemStep := rfl
@[simp] theorem State.setSlot_result (id : Nat) (e : EventSlot) : (s.setSlot id e).result = s.result := rfl
@[simp] theorem State.setSlot_freeCount (id : Nat) (e : EventSlot) : (s.setSlot id e).freeCount = s.freeCount := rfl

/-! ## setIntr -/

@[simp] theorem State.setIntr_sched (i : Intr) : (s.setIntr i).sched = s.sched := rfl
@[simp] theorem State.setIntr_intr (i : Intr) : (s.setIntr i).intr = i := rfl
@[simp] theorem State.setIntr_dma (i : Intr) : (s.setIntr i).dma = s.dma := rfl
@[simp] theorem State.setIntr_dsp (i : Intr) : (s.setIntr i).dsp = s.dsp := rfl
@[simp] theorem State.setIntr_audioQueue (i : Intr) : (s.setIntr i).audioQueue = s.audioQueue := rfl
@[simp] theorem State.setIntr_fault (i : Intr) : (s.setIntr i).fault = s.fault := rfl
@[simp] theorem State.setIntr_traceLog (i : Intr) : (s.setIntr i).traceLog = s.traceLog := rfl
@[simp] theorem State.setIntr_mem (i : Intr) : (s.setIntr i).mem = s.mem := rfl
@[simp] theorem State.setIntr_cfg (i : Intr) : (s.setIntr i).cfg = s.cfg := rfl
@[simp] theorem State.setIntr_issue (i : Intr) : (s.setIntr i).issue = s.issue := rfl
@[simp] theorem State.setIntr_inSystemStep (i : Intr) : (s.setIntr i).inSystemStep = s.inSystemStep := rfl
@[simp] theorem State.setIntr_result (i : Intr) : (s.setIntr i).result = s.result := rfl
@[simp] theorem State.setIntr_freeCount (i : Intr) : (s.setIntr i).freeCount = s.freeCount := rfl

/-! ## setChannel -/

@[simp] theorem State.setChannel_sched (ch : Channel) (c : DmaChannel) : (s.setChannel ch c).sched = s.sched := rfl
@[simp] theorem State.setChannel_intr (ch : Channel) (c : DmaChannel) : (s.setChannel ch c).intr = s.intr := rfl
@[simp] theorem State.setChannel_dma (ch : Channel) (c : DmaChannel) : (s.setChannel ch c).dma = s.dma.set ch c := rfl
@[simp] theorem State.setChannel_dsp (ch : Channel) (c : DmaChannel) : (s.setChannel ch c).dsp = s.dsp := rfl
@[simp] theorem State.setChannel_audioQueue (ch : Channel) (c : DmaChannel) : (s.setChannel ch c).audioQueue = s.audioQueue := rfl
@[simp] theorem State.setChannel_fault (ch : Channel) (c : DmaChannel) : (s.setChannel ch c).fault = s.fault := rfl
@[simp] theorem State.setChannel_traceLog (ch : Channel) (c : DmaChannel) : (s.setChannel ch c).traceLog = s.traceLog := rfl
@[simp] theorem State.setChannel_mem (ch : Channel) (c : DmaChannel) : (s.setChannel ch c).mem = s.mem := rfl
@[simp] theorem State.setChannel_cfg (ch : Channel) (c : DmaChannel) : (s.setChannel ch c).cfg = s.cfg := rfl
@[simp] theorem State.setChannel_issue (ch : Channel) (c : DmaChannel) : (s.setChannel ch c).issue = s.issue := rfl
@[simp] theorem State.setChannel_inSystemStep (ch : Channel) (c : DmaChannel) : (s.setChannel ch c).inSystemStep = s.inSystemStep := rfl
@[simp] theorem State.setChannel_result (ch : Channel) (c : DmaChannel) : (s.setChannel ch c).result = s.result := rfl
@[simp] theorem State.setChannel_freeCount (ch : Channel) (c : DmaChannel) : (s.setChannel ch c).freeCount = s.freeCount := rfl

/-! ## setDsp -/

@[simp] theorem State.setDsp_sched (d : Dsp) : (s.setDsp d).sched = s.sched := rfl
@[simp] theorem State.setDsp_intr (d : Dsp) : (s.setDsp d).intr = s.intr := rfl
@[simp] theorem State.setDsp_dma (d : Dsp) : (s.setDsp d).dma = s.dma := rfl
@[simp] theorem State.setDsp_dsp (d : Dsp) : (s.setDsp d).dsp = d := rfl
@[simp] theorem State.setDsp_audioQueue (d : Dsp) : (s.setDsp d).audioQueue = s.audioQueue := rfl
@[simp] theorem State.setDsp_fault (d : Dsp) : (s.setDsp d).fault = s.fault := rfl
@[simp] theorem State.setDsp_traceLog (d : Dsp) : (s.setDsp d).traceLog = s.traceLog := rfl
@[simp] theorem State.setDsp_mem (d : Dsp) : (s.setDsp d).mem = s.mem := rfl
@[simp] theorem State.setDsp_cfg (d : Dsp) : (s.setDsp d).cfg = s.cfg := rfl
@[simp] theorem State.setDsp_issue (d : Dsp) : (s.setDsp d).issue = s.issue := rfl
@[simp] theorem State.setDsp_inSystemStep (d : Dsp) : (s.setDsp d).inSystemStep = s.inSystemStep := rfl
@[simp] theorem State.setDsp_result (d : Dsp) : (s.setDsp d).result = s.result := rfl
@[simp] theorem State.setDsp_freeCount (d : Dsp) : (s.setDsp d).freeCount = s.freeCount := rfl

/-! ## setAudioQueue -/

@[simp] theorem State.setAudioQueue_sched (q : List SourceLevel) : (s.setAudioQueue q).sched = s.sched := rfl
@[simp] theorem State.setAudioQueue_intr (q : List SourceLevel) : (s.setAudioQueue q).intr = s.intr := rfl
@[simp] theorem State.setAudioQueue_dma (q : List SourceLevel) : (s.setAudioQueue q).dma = s.dma := rfl
@[simp] theorem State.setAudioQueue_dsp (q : List SourceLevel) : (s.setAudioQueue q).dsp = s.dsp := rfl
@[simp] theorem State.setAudioQueue_audioQueue (q : List SourceLevel) : (s.setAudioQueue q).audioQueue = q := rfl
@[simp] theorem State.setAudioQueue_fault (q : List SourceLevel) : (s.setAudioQueue q).fault = s.fault := rfl
@[simp] theorem State.setAudioQueue_traceLog (q : List SourceLevel) : (s.setAudioQueue q).traceLog = s.traceLog := rfl
@[simp] theorem State.setAudioQueue_mem (q : List SourceLevel) : (s.setAudioQueue q).mem = s.mem := rfl
@[simp] theorem State.setAudioQueue_cfg (q : List SourceLevel) : (s.setAudioQueue q).cfg = s.cfg := rfl
@[simp] theorem State.setAudioQueue_issue (q : List SourceLevel) : (s.setAudioQueue q).issue = s.issue := rfl
@[simp] theorem State.setAudioQueue_inSystemStep (q : List SourceLevel) : (s.setAudioQueue q).inSystemStep = s.inSystemStep := rfl
@[simp] theorem State.setAudioQueue_result (q : List SourceLevel) : (s.setAudioQueue q).result = s.result := rfl
@[simp] theorem State.setAudioQueue_freeCount (q : List SourceLevel) : (s.setAudioQueue q).freeCount = s.freeCount := rfl

/-! ## setMem -/

@[simp] theorem State.setMem_sched (m : List Host.Cell) : (s.setMem m).sched = s.sched := rfl
@[simp] theorem State.setMem_intr (m : List Host.Cell) : (s.setMem m).intr = s.intr := rfl
@[simp] theorem State.setMem_dma (m : List Host.Cell) : (s.setMem m).dma = s.dma := rfl
@[simp] theorem State.setMem_dsp (m : List Host.Cell) : (s.setMem m).dsp = s.dsp := rfl
@[simp] theorem State.setMem_audioQueue (m : List Host.Cell) : (s.setMem m).audioQueue = s.audioQueue := rfl
@[simp] theorem State.setMem_fault (m : List Host.Cell) : (s.setMem m).fault = s.fault := rfl
@[simp] theorem State.setMem_traceLog (m : List Host.Cell) : (s.setMem m).traceLog = s.traceLog := rfl
@[simp] theorem State.setMem_mem (m : List Host.Cell) : (s.setMem m).mem = m := rfl
@[simp] theorem State.setMem_cfg (m : List Host.Cell) : (s.setMem m).cfg = s.cfg := rfl
@[simp] theorem State.setMem_issue (m : List Host.Cell) : (s.setMem m).issue = s.issue := rfl
@[simp] theorem State.setMem_inSystemStep (m : List Host.Cell) : (s.setMem m).inSystemStep = s.inSystemStep := rfl
@[simp] theorem State.setMem_result (m : List Host.Cell) : (s.setMem m).result = s.result := rfl
@[simp] theorem State.setMem_freeCount (m : List Host.Cell) : (s.setMem m).freeCount = s.freeCount := rfl

/-! ## setIssue -/

@[simp] theorem State.setIssue_sched (q : List Issue) : (s.setIssue q).sched = s.sched := rfl
@[simp] theorem State.setIssue_intr (q : List Issue) : (s.setIssue q).intr = s.intr := rfl
@[simp] theorem State.setIssue_dma (q : List Issue) : (s.setIssue q).dma = s.dma := rfl
@[simp] theorem State.setIssue_dsp (q : List Issue) : (s.setIssue q).dsp = s.dsp := rfl
@[simp] theorem State.setIssue_audioQueue (q : List Issue) : (s.setIssue q).audioQueue = s.audioQueue := rfl
@[simp] theorem State.setIssue_fault (q : List Issue) : (s.setIssue q).fault = s.fault := rfl
@[simp] theorem State.setIssue_traceLog (q : List Issue) : (s.setIssue q).traceLog = s.traceLog := rfl
@[simp] theorem State.setIssue_mem (q : List Issue) : (s.setIssue q).mem = s.mem := rfl
@[simp] theorem State.setIssue_cfg (q : List Issue) : (s.setIssue q).cfg = s.cfg := rfl
@[simp] theorem State.setIssue_issue (q : List Issue) : (s.setIssue q).issue = q := rfl
@[simp] theorem State.setIssue_inSystemStep (q : List Issue) : (s.setIssue q).inSystemStep = s.inSystemStep := rfl
@[simp] theorem State.setIssue_result (q : List Issue) : (s.setIssue q).result = s.result := rfl
@[simp] theorem State.setIssue_freeCount (q : List Issue) : (s.setIssue q).freeCount = s.freeCount := rfl

/-! ## setInSystemStep -/

@[simp] theorem State.setInSystemStep_sched (b : Bool) : (s.setInSystemStep b).sched = s.sched := rfl
@[simp] theorem State.setInSystemStep_intr (b : Bool) : (s.setInSystemStep b).intr = s.intr := rfl
@[simp] theorem State.setInSystemStep_dma (b : Bool) : (s.setInSystemStep b).dma = s.dma := rfl
@[simp] theorem State.setInSystemStep_dsp (b : Bool) : (s.setInSystemStep b).dsp = s.dsp := rfl
@[simp] theorem State.setInSystemStep_audioQueue (b : Bool) : (s.setInSystemStep b).audioQueue = s.audioQueue := rfl
@[simp] theorem State.setInSystemStep_fault (b : Bool) : (s.setInSystemStep b).fault = s.fault := rfl
@[simp] theorem State.setInSystemStep_traceLog (b : Bool) : (s.setInSystemStep b).traceLog = s.traceLog := rfl
@[simp] theorem State.setInSystemStep_mem (b : Bool) : (s.setInSystemStep b).mem = s.mem := rfl
@[simp] theorem State.setInSystemStep_cfg (b : Bool) : (s.setInSystemStep b).cfg = s.cfg := rfl
@[simp] theorem State.setInSystemStep_issue (b : Bool) : (s.setInSystemStep b).issue = s.issue := rfl
@[simp] theorem State.setInSystemStep_inSystemStep (b : Bool) : (s.setInSystemStep b).inSystemStep = b := rfl
@[simp] theorem State.setInSystemStep_result (b : Bool) : (s.setInSystemStep b).result = s.result := rfl
@[simp] theorem State.setInSystemStep_freeCount (b : Bool) : (s.setInSystemStep b).freeCount = s.freeCount := rfl

/-! ## setResult -/

@[simp] theorem State.setResult_sched (r : Result) : (s.setResult r).sched = s.sched := rfl
@[simp] theorem State.setResult_intr (r : Result) : (s.setResult r).intr = s.intr := rfl
@[simp] theorem State.setResult_dma (r : Result) : (s.setResult r).dma = s.dma := rfl
@[simp] theorem State.setResult_dsp (r : Result) : (s.setResult r).dsp = s.dsp := rfl
@[simp] theorem State.setResult_audioQueue (r : Result) : (s.setResult r).audioQueue = s.audioQueue := rfl
@[simp] theorem State.setResult_fault (r : Result) : (s.setResult r).fault = s.fault := rfl
@[simp] theorem State.setResult_traceLog (r : Result) : (s.setResult r).traceLog = s.traceLog := rfl
@[simp] theorem State.setResult_mem (r : Result) : (s.setResult r).mem = s.mem := rfl
@[simp] theorem State.setResult_cfg (r : Result) : (s.setResult r).cfg = s.cfg := rfl
@[simp] theorem State.setResult_issue (r : Result) : (s.setResult r).issue = s.issue := rfl
@[simp] theorem State.setResult_inSystemStep (r : Result) : (s.setResult r).inSystemStep = s.inSystemStep := rfl
@[simp] theorem State.setResult_result (r : Result) : (s.setResult r).result = r := rfl
@[simp] theorem State.setResult_freeCount (r : Result) : (s.setResult r).freeCount = s.freeCount := rfl

/-! ## takeFree -/

@[simp] theorem State.takeFree_sched : s.takeFree.sched = s.sched := rfl
@[simp] theorem State.takeFree_intr : s.takeFree.intr = s.intr := rfl
@[simp] theorem State.takeFree_dma : s.takeFree.dma = s.dma := rfl
@[simp] theorem State.takeFree_dsp : s.takeFree.dsp = s.dsp := rfl
@[simp] theorem State.takeFree_audioQueue : s.takeFree.audioQueue = s.audioQueue := rfl
@[simp] theorem State.takeFree_fault : s.takeFree.fault = s.fault := rfl
@[simp] theorem State.takeFree_traceLog : s.takeFree.traceLog = s.traceLog := rfl
@[simp] theorem State.takeFree_mem : s.takeFree.mem = s.mem := rfl
@[simp] theorem State.takeFree_cfg : s.takeFree.cfg = s.cfg := rfl
@[simp] theorem State.takeFree_issue : s.takeFree.issue = s.issue := rfl
@[simp] theorem State.takeFree_inSystemStep : s.takeFree.inSystemStep = s.inSystemStep := rfl
@[simp] theorem State.takeFree_result : s.takeFree.result = s.result := rfl
@[simp] theorem State.takeFree_freeCount : s.takeFree.freeCount = s.freeCount + 1 := rfl

/-! ## markFault -/

@[simp] theorem State.markFault_sched (r : ViolationReason) : (s.markFault r).sched = s.sched := rfl
@[simp] theorem State.markFault_intr (r : ViolationReason) : (s.markFault r).intr = s.intr := rfl
@[simp] theorem State.markFault_dma (r : ViolationReason) : (s.markFault r).dma = s.dma := rfl
@[simp] theorem State.markFault_dsp (r : ViolationReason) : (s.markFault r).dsp = s.dsp := rfl
@[simp] theorem State.markFault_audioQueue (r : ViolationReason) : (s.markFault r).audioQueue = s.audioQueue := rfl
@[simp] theorem State.markFault_fault (r : ViolationReason) : (s.markFault r).fault = (s.fault <|> some r) := rfl
@[simp] theorem State.markFault_traceLog (r : ViolationReason) : (s.markFault r).traceLog = s.traceLog := rfl
@[simp] theorem State.markFault_mem (r : ViolationReason) : (s.markFault r).mem = s.mem := rfl
@[simp] theorem State.markFault_cfg (r : ViolationReason) : (s.markFault r).cfg = s.cfg := rfl
@[simp] theorem State.markFault_issue (r : ViolationReason) : (s.markFault r).issue = s.issue := rfl
@[simp] theorem State.markFault_inSystemStep (r : ViolationReason) : (s.markFault r).inSystemStep = s.inSystemStep := rfl
@[simp] theorem State.markFault_result (r : ViolationReason) : (s.markFault r).result = s.result := rfl
@[simp] theorem State.markFault_freeCount (r : ViolationReason) : (s.markFault r).freeCount = s.freeCount := rfl

/-! ## trace -/

@[simp] theorem State.trace_sched (e : TraceEvent) : (s.trace e).sched = s.sched := by unfold State.trace; split <;> rfl
@[simp] theorem State.trace_intr (e : TraceEvent) : (s.trace e).intr = s.intr := by unfold State.trace; split <;> rfl
@[simp] theorem State.trace_dma (e : TraceEvent) : (s.trace e).dma = s.dma := by unfold State.trace; split <;> rfl
@[simp] theorem State.trace_dsp (e : TraceEvent) : (s.trace e).dsp = s.dsp := by unfold State.trace; split <;> rfl
@[simp] theorem State.trace_audioQueue (e : TraceEvent) : (s.trace e).audioQueue = s.audioQueue := by unfold State.trace; split <;> rfl
@[simp] theorem State.trace_fault (e : TraceEvent) : (s.trace e).fault = s.fault := by unfold State.trace; split <;> rfl
theorem State.trace_traceLog (e : TraceEvent) : (s.trace e).traceLog = if s.cfg.tracer then s.traceLog ++ [e] else s.traceLog := by
  unfold State.trace; split <;> rfl
@[simp] theorem State.trace_mem (e : TraceEvent) : (s.trace e).mem = s.mem := by unfold State.trace; split <;> rfl
@[simp] theorem State.trace_cfg (e : TraceEvent) : (s.trace e).cfg = s.cfg := by unfold State.trace; split <;> rfl
@[simp] theorem State.trace_issue (e : TraceEvent) : (s.trace e).issue = s.issue := by unfold State.trace; split <;> rfl
@[simp] theorem State.trace_inSystemStep (e : TraceEvent) : (s.trace e).inSystemStep = s.inSystemStep := by unfold State.trace; split <;> rfl
@[simp] theorem State.trace_result (e : TraceEvent) : (s.trace e).result = s.result := by unfold State.trace; split <;> rfl
@[simp] theorem State.trace_freeCount (e : TraceEvent) : (s.trace e).freeCount = s.freeCount := by unfold State.trace; split <;> rfl

/-! ## A channel and a slot after a write -/

theorem State.setChannel_get (ch ch' : Channel) (c : DmaChannel) :
    (s.setChannel ch c).dma[ch'] = if ch = ch' then c else s.dma[ch'] := by
  simp only [State.setChannel_dma, Fin.getElem_fin, Vector.getElem_set, Fin.ext_iff]

@[simp] theorem State.setChannel_get_self (ch : Channel) (c : DmaChannel) : (s.setChannel ch c).dma[ch] = c := by
  simp

@[simp] theorem State.setSlot_length (id : Nat) (e : EventSlot) :
    (s.setSlot id e).sched.ev.length = s.sched.ev.length := by simp

@[simp] theorem State.setSlot_currCycle (id : Nat) (e : EventSlot) :
    (s.setSlot id e).sched.currCycle = s.sched.currCycle := rfl

end Sys2Proof.Machine
end

