-- ==== Sys2Proof/Laws/Ops.lean ====
section
/-! SUPPORT. The shared operations of Machine/Ops.lean: outcomes in sequence, violations, memory. -/

namespace Sys2Proof.Machine

open Host (Outcome)

/-! ## Outcomes in sequence -/

section
variable {α β : Type} {a : α} {b : β} {f : α → Outcome β Fault Refusal} {o : Outcome α Fault Refusal}

@[simp] theorem andThen_next : andThen (.next a) f = f a := rfl
@[simp] theorem andThen_fault (r : Fault) : andThen (.fault r) f = .fault r := rfl
@[simp] theorem andThen_refused (r : Refusal) : andThen (.refused r) f = .refused r := rfl

/-- A sequence answers a next state exactly when both parts do. -/
theorem andThen_eq_next : andThen o f = .next b ↔ ∃ a, o = .next a ∧ f a = .next b := by
  cases o <;> simp

theorem andThen_assoc {γ : Type} (g : β → Outcome γ Fault Refusal) :
    andThen (andThen o f) g = andThen o fun a => andThen (f a) g := by
  cases o <;> simp

end

/-! ## Contract violations (R181) -/

/-- A violation changes the mark alone. -/
theorem raiseViolation_eq (r : ViolationReason) (s : State) : raiseViolation r s = .next (s.markFault r) := rfl

/-- The mark is sticky: a second violation does not replace the reason. -/
theorem State.markFault_fault_of_some {s : State} {r : ViolationReason} (h : s.fault = some r) (r' : ViolationReason) :
    (s.markFault r').fault = some r := by simp [h]

theorem State.markFault_fault_of_none {s : State} (h : s.fault = none) (r : ViolationReason) :
    (s.markFault r).fault = some r := by simp [h]

/-! ## Memory (R41) -/

/-- The byte written is the byte read. -/
theorem Memory.read_write_self (m : List Host.Cell) (a : Nat) (v : Byte) (h : Memory.wf m = true) :
    Memory.read (Memory.write m a v) a = v := by
  induction m with
  | nil =>
    unfold Memory.write
    split <;> simp_all [Memory.read]
  | cons c m ih =>
    obtain ⟨b, w⟩ := c
    have hm : Memory.wf m = true := by
      cases m with
      | nil => rfl
      | cons => simp_all [Memory.wf]
    have hgt : ∀ e ∈ m, b < e.1 := by
      clear ih hm
      induction m generalizing b w with
      | nil => simp
      | cons d m ih2 =>
        obtain ⟨b', w'⟩ := d
        simp only [Memory.wf, Bool.and_eq_true, decide_eq_true_eq] at h
        intro e he
        rcases List.mem_cons.1 he with rfl | he
        · exact h.1.1
        · exact Nat.lt_trans h.1.1 (ih2 _ _ h.2 e he)
    have hmiss : ∀ (m : List Host.Cell), (∀ e ∈ m, a ≠ e.1) → Memory.read m a = Memory.unlisted := by
      intro m
      induction m with
      | nil => intro _; rfl
      | cons d m ih3 =>
        intro hne
        obtain ⟨b', w'⟩ := d
        have h1 := hne _ (List.mem_cons_self)
        simp only [Memory.read, if_neg h1]
        exact ih3 fun e he => hne e (List.mem_cons_of_mem _ he)
    unfold Memory.write
    split
    · split
      · rename_i hlt hv
        subst hv
        apply hmiss
        intro e he
        rcases List.mem_cons.1 he with rfl | he
        · exact Nat.ne_of_lt hlt
        · exact Nat.ne_of_lt (Nat.lt_trans hlt (hgt e he))
      · simp [Memory.read]
    · split
      · split
        · rename_i heq hv
          subst hv heq
          exact hmiss _ fun e he => Nat.ne_of_lt (hgt e he)
        · simp [Memory.read]
      · rename_i hne
        simp [Memory.read, hne, ih hm]

/-- A write leaves every other address alone. -/
theorem Memory.read_write_of_ne (m : List Host.Cell) {a a' : Nat} (v : Byte) (h : a' ≠ a) :
    Memory.read (Memory.write m a v) a' = Memory.read m a' := by
  induction m with
  | nil =>
    unfold Memory.write
    split <;> simp [Memory.read, h]
  | cons c m ih =>
    obtain ⟨b, w⟩ := c
    unfold Memory.write
    split
    · split <;> simp [Memory.read, h]
    · split
      · split <;> simp_all [Memory.read]
      · simp only [Memory.read]
        split
        · rfl
        · exact ih

/-- The first address of a list of cells. -/
theorem Memory.wf_cons {a : Nat} {v : Byte} {m : List Host.Cell} :
    Memory.wf ((a, v) :: m) = true ↔
      v ≠ Memory.unlisted ∧ a < 2 ^ 32 ∧ (∀ e, m.head? = some e → a < e.1) ∧ Memory.wf m = true := by
  induction m generalizing a v with
  | nil => simp [Memory.wf]; tauto
  | cons e m ih =>
    obtain ⟨b, w⟩ := e
    have := ih (a := b) (v := w)
    simp only [Memory.wf, Bool.and_eq_true, decide_eq_true_eq, List.head?_cons, Option.some.injEq] at *
    constructor
    · rintro ⟨⟨hab, hv⟩, hm⟩
      have hb := (this.1 hm).2.1
      exact ⟨hv, by omega, fun e he => by subst he; exact hab, hm⟩
    · rintro ⟨hv, ha, hlt, hm⟩
      exact ⟨⟨hlt _ rfl, hv⟩, hm⟩

/-- The head after a write is the old head or the written address. -/
theorem Memory.write_head {m : List Host.Cell} {a : Nat} {v : Byte} {e : Host.Cell} (c : Nat)
    (hc : c < a) (hm : ∀ e, m.head? = some e → c < e.1) (hwf : Memory.wf m = true)
    (h : (Memory.write m a v).head? = some e) : c < e.1 := by
  cases m with
  | nil =>
    unfold Memory.write at h
    split at h <;> simp at h
    subst h; exact hc
  | cons d m =>
    obtain ⟨b, w⟩ := d
    have hb : c < b := hm (b, w) rfl
    unfold Memory.write at h
    split at h
    · split at h <;> simp at h <;> subst h
      · exact hb
      · exact hc
    · split at h
      · split at h
        · have := (Memory.wf_cons.1 hwf).2.2.1 e h
          omega
        · simp at h; subst h; exact hc
      · simp at h; subst h; exact hb

/-- A write at a bus address keeps the canonical form. -/
theorem Memory.write_wf {m : List Host.Cell} {a : Nat} (v : Byte) (ha : a < 2 ^ 32) (h : Memory.wf m = true) :
    Memory.wf (Memory.write m a v) = true := by
  induction m with
  | nil =>
    unfold Memory.write
    split
    · rfl
    · simp only [Memory.wf, Bool.and_eq_true, decide_eq_true_eq]
      exact ⟨ha, by assumption⟩
  | cons c m ih =>
    obtain ⟨b, w⟩ := c
    obtain ⟨hw, hb, hlt, hm⟩ := Memory.wf_cons.1 h
    unfold Memory.write
    split
    · split
      · exact h
      · rename_i hab hv
        exact Memory.wf_cons.2 ⟨hv, ha, fun e he => by simp at he; subst he; exact hab, h⟩
    · split
      · split
        · exact hm
        · rename_i hab hv
          subst hab
          exact Memory.wf_cons.2 ⟨hv, ha, hlt, hm⟩
      · refine Memory.wf_cons.2 ⟨hw, hb, fun e he => ?_, ih hm⟩
        exact Memory.write_head b (by omega) hlt hm he

/-! ## Bytes of the bus -/

/-- The address after the first byte's, and so on (R46). -/
theorem busAddr_succ (a : Word) (k : Nat) : busAddr (a + 1) k = busAddr a (k + 1) := by
  simp only [busAddr, BitVec.add_assoc]
  congr 1
  apply BitVec.eq_of_toNat_eq
  simp [Nat.add_comm]

@[simp] theorem busAddr_zero (a : Word) : busAddr a 0 = a := by simp [busAddr]

@[simp] theorem readBusBytes_length (n : Nat) (a : Word) (s : State) : (readBusBytes n a s).1.length = n := by
  induction n generalizing a s with
  | zero => rfl
  | succ n ih => simp [readBusBytes, ih]

/-- A read of plain memory changes nothing and gives what the addresses hold. -/
theorem readBusBytes_plain (n : Nat) (a : Word) (s : State) (h : s.cfg.devices = []) :
    readBusBytes n a s = ((List.range n).map fun k => Memory.read s.mem (busAddr a k).toNat, s) := by
  induction n generalizing a with
  | zero => rfl
  | succ n ih =>
    have hd : ∀ x, Params.isDevice s.cfg x = false := by simp [Params.isDevice, h]
    simp only [readBusBytes, readBusByte, hd, Bool.false_eq_true, if_false, ih, List.range_succ_eq_map, List.map_cons,
      List.map_map, busAddr_zero, Function.comp_def, busAddr_succ, Nat.succ_eq_add_one]

/-- Writing bytes changes memory alone, and memory only at the addresses written. -/
theorem writeBusBytes_spec (a : Word) (bs : List Byte) (s : State) :
    ∃ m, writeBusBytes a bs s = s.setMem m ∧
      (∀ x, (∀ k < bs.length, x ≠ (busAddr a k).toNat) → Memory.read m x = Memory.read s.mem x) ∧
      (Memory.wf s.mem = true → Memory.wf m = true) := by
  induction bs generalizing a s with
  | nil => exact ⟨s.mem, rfl, fun _ _ => rfl, id⟩
  | cons b bs ih =>
    obtain ⟨m, hm, hread, hwf⟩ := ih (a + 1) (writeBusByte a b s)
    refine ⟨m, ?_, ?_, ?_⟩
    · simp only [writeBusBytes, hm]
      unfold writeBusByte; split <;> rfl
    · intro x hx
      have h0 := hx 0 (by simp)
      rw [hread x (fun k hk => by rw [busAddr_succ]; exact hx (k + 1) (by simpa using hk))]
      unfold writeBusByte
      split
      · rfl
      · simpa using Memory.read_write_of_ne s.mem b (by simpa [busAddr] using h0)
    · intro h
      apply hwf
      unfold writeBusByte
      split
      · exact h
      · simpa using Memory.write_wf b a.isLt h

end Sys2Proof.Machine
end

