-- ==== Sys2Proof/Laws/Bus.lean ====
section
/-! SUPPORT. The bus away from the register window: what a read and a write of bytes can do, said once. -/

namespace Sys2Proof.Machine

/-- A read of the bus changes nothing but the counter of free values. -/
theorem readBusBytes_state (n : Nat) (a : Word) (s : State) :
    (readBusBytes n a s).2 = { s with freeCount := (readBusBytes n a s).2.freeCount } := by
  induction n generalizing a s with
  | zero => rfl
  | succ n ih =>
    simp only [readBusBytes]
    rw [ih]
    simp only [readBusByte]
    split <;> rfl

/-- A read of addresses no device answers changes nothing and gives what they hold. -/
theorem readBusBytes_of_plain (n : Nat) (a : Word) (s : State)
    (h : ∀ j < n, Params.isDevice s.cfg (busAddr a j) = false) :
    readBusBytes n a s = ((List.range n).map fun k => Memory.read s.mem (busAddr a k).toNat, s) := by
  induction n generalizing a with
  | zero => rfl
  | succ n ih =>
    have h0 : Params.isDevice s.cfg a = false := by simpa using h 0 (Nat.succ_pos n)
    have hn := ih (a + 1) fun j hj => by rw [busAddr_succ]; exact h (j + 1) (by omega)
    simp only [readBusBytes, readBusByte, h0, Bool.false_eq_true, if_false, hn, List.range_succ_eq_map, List.map_cons,
      busAddr_zero, List.map_map, Function.comp_def, busAddr_succ, Nat.succ_eq_add_one]

/-- Addresses fewer than 2^32 apart are different (R46). -/
theorem busAddr_ne (a : Word) {i j : Nat} (hi : i < 2 ^ 32) (hj : j < 2 ^ 32) (h : i ≠ j) :
    (busAddr a i).toNat ≠ (busAddr a j).toNat := by
  intro he
  have he := BitVec.eq_of_toNat_eq he
  simp only [busAddr, BitVec.add_right_inj] at he
  have := congrArg BitVec.toNat he
  simp only [BitVec.toNat_ofNat] at this
  omega

/-- On canonical memory, the bytes written to addresses no device answers are the bytes they then hold. -/
theorem writeBusBytes_read (a : Word) (bs : List Byte) (s : State) (hwf : Memory.wf s.mem = true)
    (hd : ∀ j < bs.length, Params.isDevice s.cfg (busAddr a j) = false) (hl : bs.length ≤ 2 ^ 32) :
    ∀ j b, bs[j]? = some b → Memory.read (writeBusBytes a bs s).mem (busAddr a j).toNat = b := by
  induction bs generalizing a s with
  | nil => simp
  | cons c bs ih =>
    have h0 : Params.isDevice s.cfg a = false := by simpa using hd 0 (by simp)
    have hm : Memory.wf (Memory.write s.mem a.toNat c) = true := Memory.write_wf c a.isLt hwf
    simp only [List.length_cons] at hl
    intro j b hj
    simp only [writeBusBytes, writeBusByte, h0, Bool.false_eq_true, if_false]
    cases j with
    | zero =>
      obtain ⟨m, hm', hframe, -⟩ := writeBusBytes_spec (a + 1) bs (s.setMem (Memory.write s.mem a.toNat c))
      rw [hm', State.setMem_mem, hframe, State.setMem_mem, busAddr_zero, Memory.read_write_self _ _ _ hwf]
      · simpa using hj
      · intro k hk
        rw [busAddr_succ]
        exact busAddr_ne a (by decide) (by omega) (by omega)
    | succ j =>
      rw [← busAddr_succ]
      refine ih (a + 1) _ hm (fun k hk => ?_) (by omega) j b (by simpa using hj)
      rw [busAddr_succ]
      exact hd (k + 1) (by simpa using hk)

/-- An access outside the register window is the bus's. -/
theorem memRead_offWindow {p : Performer} {a : Word} {n : Nat} {s : State} (h : Params.touchesWindow s.cfg a n = false) :
    memRead p a n s = .next (readBusBytes n a s) := by simp [memRead, h]

theorem memWrite_offWindow {p : Performer} {a : Word} {bs : List Byte} {s : State}
    (h : Params.touchesWindow s.cfg a bs.length = false) : memWrite p a bs s = .next (writeBusBytes a bs s) := by
  simp [memWrite, h]

theorem memReadWord_offWindow {p : Performer} {a : Word} {s : State} (h : Params.touchesWindow s.cfg a 4 = false) :
    memReadWord p a s = .next (bytesWord (readBusBytes 4 a s).1, (readBusBytes 4 a s).2) := by
  simp [memReadWord, memRead_offWindow h]

/-- A register read at a multiple of 4 answers, and changes at most the DSP and the counter of free values. -/
theorem regRead_aligned {s : State} {off : Word} (h : off.toNat % 4 = 0) :
    ∃ w d f, regRead off s = .next (w, { s with dsp := d, freeCount := f }) := by
  simp only [regRead, registerAligned, h, decide_true, if_true]
  split
  · rename_i r _
    cases r <;> exact ⟨_, _, _, rfl⟩
  · exact ⟨_, _, _, rfl⟩

/-- No register read disturbs a channel (U8). -/
@[simp] theorem selfDisturbingRead_channel (ch : Channel) (offset : Word) (s : State) :
    selfDisturbingRead (.channel ch) offset s = false := by
  unfold selfDisturbingRead readDisturbs
  split <;> rfl

/-- A channel's word read outside the register window, or at a multiple of 4 in it, answers. -/
theorem memReadWord_answers {s : State} {ch : Channel} {a : Word}
    (h : Params.touchesWindow s.cfg a 4 = false ∨ (a - s.cfg.scuBase).toNat % 4 = 0) :
    ∃ w d f, memReadWord (.channel ch) a s = .next (w, { s with dsp := d, freeCount := f }) := by
  by_cases ho : Params.touchesWindow s.cfg a 4 = false
  · rw [memReadWord_offWindow ho, readBusBytes_state]; exact ⟨_, s.dsp, _, rfl⟩
  · have ho : Params.touchesWindow s.cfg a 4 = true := by simpa using ho
    have h : (a - s.cfg.scuBase).toNat % 4 = 0 := by
      rcases h with h | h
      · rw [ho] at h; cases h
      · exact h
    obtain ⟨w, d, f, hr⟩ := regRead_aligned (s := s) h
    have hr : regRead (Params.windowOffset s.cfg a) s = _ := hr
    simp only [memReadWord, memRead, ho, if_true, selfDisturbingRead_channel, Bool.false_eq_true, if_false, hr, andThen_next]
    exact ⟨_, _, _, rfl⟩

/-! ## Other bus masters (R41, R66) -/

/-- No access of a master outside the block disturbs it (U8). -/
@[simp] theorem selfDisturbingRead_otherMaster (offset : Word) (s : State) :
    selfDisturbingRead .otherMaster offset s = false := by
  unfold selfDisturbingRead readDisturbs
  split <;> rfl

@[simp] theorem selfDisturbing_otherMaster (offset v : Word) (s : State) :
    selfDisturbing .otherMaster offset v s = false := by
  unfold selfDisturbing
  split <;> rfl

/-- Outside the register window a store is the bus's. -/
theorem busStore_offWindow {a : Word} {bs : List Byte} {s : State} (h : Params.touchesWindow s.cfg a bs.length = false) :
    busStore a bs s = .next (writeBusBytes a bs s) := memWrite_offWindow h

/-- A word stored in the register window is the register write at its offset. -/
theorem busStore_window {a v : Word} {s : State} (h : Params.touchesWindow s.cfg a 4 = true) :
    busStore a (wordBytes v) s = execRegWrite (Params.windowOffset s.cfg a) v s := by
  simp [busStore, memWrite, h, execRegWrite]

/-- Outside the register window a load takes at most free values. -/
theorem busLoad_offWindow {a : Word} {n : Nat} {s : State} (h : Params.touchesWindow s.cfg a n = false) :
    busLoad a n s = .next (readBusBytes n a s).2 := by simp [busLoad, memRead_offWindow h, h]

/-- A word loaded from the register window is the register read at its offset. -/
theorem busLoad_window {a : Word} {s : State} (h : Params.touchesWindow s.cfg a 4 = true) :
    busLoad a 4 s = execRegRead (Params.windowOffset s.cfg a) s := by
  simp [busLoad, memRead, h, execRegRead, andThen_assoc]

end Sys2Proof.Machine
end

