-- ==== Sys2Proof/Laws/Dma.lean ====
section
/-! SUPPORT. The DMA engine away from the register window: what a unit transfer, a batch and a descriptor fetch can do, said
once. -/

namespace Sys2Proof.Machine

/-- `SetChannel` read back. -/
theorem State.setChannel_self (s : State) (ch : Channel) (c : DmaChannel) : (s.setChannel ch c).dma[ch] = c := by
  simp [State.setChannel]

theorem State.setChannel_of_ne (s : State) {ch ch' : Channel} (c : DmaChannel) (h : ch' ≠ ch) :
    (s.setChannel ch c).dma[ch'] = s.dma[ch'] := by
  have : ch.val ≠ ch'.val := fun e => h (Fin.ext e.symm)
  simp [State.setChannel, this]

/-- The cursor after `n` unit transfers, in closed form (R126, R127, R46). -/
theorem DmaChannel.advance_iterate (n : Nat) (c : DmaChannel) :
    DmaChannel.advance^[n] c =
      { c with
        currSrcAddr := if c.currUpdateSrc then c.currSrcAddr + BitVec.ofNat 32 n * c.currSrcAddrInc else c.currSrcAddr
        currDstAddr := if c.currUpdateDst then c.currDstAddr + BitVec.ofNat 32 n * c.currDstAddrInc else c.currDstAddr
        currXferCount := c.currXferCount - BitVec.ofNat 32 n } := by
  induction n with
  | zero => simp
  | succ n ih =>
    rw [Function.iterate_succ_apply', ih]
    have hn : BitVec.ofNat 32 (n + 1) = BitVec.ofNat 32 n + 1#32 := by
      apply BitVec.eq_of_toNat_eq; simp [BitVec.toNat_add]
    simp only [DmaChannel.advance, hn, BitVec.add_mul, BitVec.one_mul, DmaChannel.mk.injEq, true_and, and_true]
    refine ⟨?_, ?_, ?_⟩
    · split <;> simp [BitVec.add_assoc]
    · split <;> simp [BitVec.add_assoc]
    · rw [BitVec.sub_eq_add_neg, BitVec.sub_eq_add_neg, BitVec.sub_eq_add_neg, BitVec.neg_add, BitVec.sub_eq_add_neg,
        BitVec.add_assoc]; rfl

/-- One unit transfer outside the register window: the channel's cursor advances; of memory only the destination unit's bytes
change; on plain canonical memory they become the source unit's. -/
theorem unitTransfer_offWindow {ch : Channel} {s : State}
    (hs : Params.touchesWindow s.cfg s.dma[ch].currSrcAddr s.cfg.dmaUnitBytes = false)
    (hd : Params.touchesWindow s.cfg s.dma[ch].currDstAddr s.cfg.dmaUnitBytes = false) :
    ∃ m f, unitTransfer ch s = .next { s with
        dma := s.dma.set ch (DmaChannel.advance s.dma[ch]), mem := m, freeCount := f } ∧
      (∀ a, (∀ j < s.cfg.dmaUnitBytes, a ≠ (busAddr s.dma[ch].currDstAddr j).toNat) →
        Memory.read m a = Memory.read s.mem a) ∧
      (Memory.wf s.mem = true → Memory.wf m = true) ∧
      ((∀ j < s.cfg.dmaUnitBytes, Params.isDevice s.cfg (busAddr s.dma[ch].currSrcAddr j) = false) →
        (∀ j < s.cfg.dmaUnitBytes, Params.isDevice s.cfg (busAddr s.dma[ch].currDstAddr j) = false) →
        s.cfg.dmaUnitBytes ≤ 2 ^ 32 → Memory.wf s.mem = true → ∀ j < s.cfg.dmaUnitBytes,
          Memory.read m (busAddr s.dma[ch].currDstAddr j).toNat =
            Memory.read s.mem (busAddr s.dma[ch].currSrcAddr j).toNat) := by
  set U := s.cfg.dmaUnitBytes with hU
  set bs := (readBusBytes U s.dma[ch].currSrcAddr s).1 with hbs
  set f := (readBusBytes U s.dma[ch].currSrcAddr s).2.freeCount with hf
  have hst : (readBusBytes U s.dma[ch].currSrcAddr s).2 = { s with freeCount := f } := readBusBytes_state _ _ _
  have hl : bs.length = U := readBusBytes_length _ _ _
  obtain ⟨m, hm, hframe, hwf⟩ := writeBusBytes_spec s.dma[ch].currDstAddr bs { s with freeCount := f }
  refine ⟨m, f, ?_, by simpa [hl] using hframe, hwf, ?_⟩
  · have hd' : Params.touchesWindow ({ s with freeCount := f } : State).cfg s.dma[ch].currDstAddr bs.length = false := by
      simpa [hl] using hd
    simp only [unitTransfer, memRead_offWindow hs, andThen_next, ← hU, ← hbs, hst, memWrite_offWindow hd', hm]
    rfl
  · intro hps hpd hU32 hw j hj
    have hb : bs = (List.range U).map fun k => Memory.read s.mem (busAddr s.dma[ch].currSrcAddr k).toNat := by
      rw [hbs, readBusBytes_of_plain U _ s hps]
    have := writeBusBytes_read s.dma[ch].currDstAddr bs { s with freeCount := f } hw (by simpa [hl] using hpd)
      (by simpa [hl] using hU32) j
      (Memory.read s.mem (busAddr s.dma[ch].currSrcAddr j).toNat) (by rw [hb]; simp [hj])
    rw [hm] at this
    simpa using this

/-- `n` unit transfers outside the register window: the channel's cursor advances `n` times; of memory only the destination
units' bytes change; nothing else but the counter of free values does. -/
theorem unitTransfers_offWindow {ch : Channel} (n : Nat) {s : State}
    (h : ∀ k < n,
      Params.touchesWindow s.cfg (DmaChannel.advance^[k] s.dma[ch]).currSrcAddr s.cfg.dmaUnitBytes = false ∧
      Params.touchesWindow s.cfg (DmaChannel.advance^[k] s.dma[ch]).currDstAddr s.cfg.dmaUnitBytes = false) :
    ∃ m f, unitTransfers ch n s = .next { s with
        dma := s.dma.set ch (DmaChannel.advance^[n] s.dma[ch]), mem := m, freeCount := f } ∧
      (∀ a, (∀ k < n, ∀ j < s.cfg.dmaUnitBytes,
          a ≠ (busAddr (DmaChannel.advance^[k] s.dma[ch]).currDstAddr j).toNat) →
        Memory.read m a = Memory.read s.mem a) ∧
      (Memory.wf s.mem = true → Memory.wf m = true) ∧
      (n = 0 → m = s.mem ∧ f = s.freeCount) := by
  induction n generalizing s with
  | zero => exact ⟨s.mem, s.freeCount, by simp [unitTransfers], fun _ _ => rfl, id, fun _ => ⟨rfl, rfl⟩⟩
  | succ n ih =>
    obtain ⟨m1, f1, h1, hframe1, hwf1, -⟩ := unitTransfer_offWindow (h 0 (Nat.succ_pos n)).1 (h 0 (Nat.succ_pos n)).2
    have hc : (s.dma.set ch (DmaChannel.advance s.dma[ch]))[ch] = DmaChannel.advance s.dma[ch] := by simp
    obtain ⟨m, f, h2, hframe, hwf, -⟩ := ih
      (s := { s with dma := s.dma.set ch (DmaChannel.advance s.dma[ch]), mem := m1, freeCount := f1 })
      (by
        intro k hk
        have := h (k + 1) (by omega)
        rw [Function.iterate_succ_apply] at this
        dsimp only
        rw [hc]
        exact this)
    dsimp only at h2 hframe hwf
    rw [hc, ← Function.iterate_succ_apply] at h2
    refine ⟨m, f, ?_, fun a ha => ?_, fun hw => hwf (hwf1 hw), by simp⟩
    · simp only [unitTransfers, h1, andThen_next, h2, Vector.set_set]
    · rw [hframe, hframe1]
      · exact fun j hj => ha 0 (by omega) j hj
      · intro k hk j hj
        rw [hc, ← Function.iterate_succ_apply]
        exact ha (k + 1) (by omega) j hj

/-- A descriptor fetch outside the register window: the channel takes the three words read; nothing else but the counter of
free values changes; on plain memory the words are memory's. -/
theorem fetchDescriptor_offWindow {ch : Channel} {s : State}
    (h0 : Params.touchesWindow s.cfg s.dma[ch].currIndirectSrc 4 = false)
    (h1 : Params.touchesWindow s.cfg (s.dma[ch].currIndirectSrc + 4) 4 = false)
    (h2 : Params.touchesWindow s.cfg (s.dma[ch].currIndirectSrc + 8) 4 = false) :
    ∃ w0 w1 w2 f, fetchDescriptor ch s = .next { s with
        dma := s.dma.set ch (DmaChannel.takeDescriptor s.dma[ch] s.dma[ch].currIndirectSrc w0 w1 w2), freeCount := f } ∧
      ((∀ j < 12, Params.isDevice s.cfg (busAddr s.dma[ch].currIndirectSrc j) = false) →
        f = s.freeCount ∧
        w0 = bytesWord ((List.range 4).map fun k => Memory.read s.mem (busAddr s.dma[ch].currIndirectSrc k).toNat) ∧
        w1 = bytesWord ((List.range 4).map fun k =>
          Memory.read s.mem (busAddr (s.dma[ch].currIndirectSrc + 4) k).toNat) ∧
        w2 = bytesWord ((List.range 4).map fun k =>
          Memory.read s.mem (busAddr (s.dma[ch].currIndirectSrc + 8) k).toNat)) := by
  set a := s.dma[ch].currIndirectSrc with ha
  obtain ⟨f0, hs0⟩ : ∃ f, (readBusBytes 4 a s).2 = { s with freeCount := f } := ⟨_, readBusBytes_state _ _ _⟩
  obtain ⟨f1, hs1⟩ : ∃ f, (readBusBytes 4 (a + 4) { s with freeCount := f0 }).2 = { s with freeCount := f } :=
    ⟨_, readBusBytes_state _ _ _⟩
  obtain ⟨f2, hs2⟩ : ∃ f, (readBusBytes 4 (a + 8) { s with freeCount := f1 }).2 = { s with freeCount := f } :=
    ⟨_, readBusBytes_state _ _ _⟩
  refine ⟨bytesWord (readBusBytes 4 a s).1, bytesWord (readBusBytes 4 (a + 4) { s with freeCount := f0 }).1,
    bytesWord (readBusBytes 4 (a + 8) { s with freeCount := f1 }).1, f2, ?_, fun hp => ?_⟩
  · have h1' : Params.touchesWindow ({ s with freeCount := f0 } : State).cfg (a + 4) 4 = false := h1
    have h2' : Params.touchesWindow ({ s with freeCount := f1 } : State).cfg (a + 8) 4 = false := h2
    simp only [fetchDescriptor, ← ha, memReadWord_offWindow h0, andThen_next, hs0, memReadWord_offWindow h1', hs1,
      memReadWord_offWindow h2', hs2]
    rfl
  · have shift : ∀ d j, d < 12 → busAddr (a + BitVec.ofNat 32 d) j = busAddr a (d + j) := by
      intro d j hd
      simp only [busAddr, BitVec.add_assoc]
      congr 1
      apply BitVec.eq_of_toNat_eq
      simp
    have r0 := readBusBytes_of_plain 4 a s fun j hj => hp j (by omega)
    rw [r0] at hs0
    have e0 : f0 = s.freeCount := (congrArg State.freeCount hs0).symm
    subst e0
    have r1 := readBusBytes_of_plain 4 (a + 4) { s with freeCount := s.freeCount } fun j hj => by
      rw [show (4 : Word) = BitVec.ofNat 32 4 from rfl, shift 4 j (by omega)]; exact hp _ (by omega)
    rw [r1] at hs1
    have e1 : f1 = s.freeCount := (congrArg State.freeCount hs1).symm
    subst e1
    have r2 := readBusBytes_of_plain 4 (a + 8) { s with freeCount := s.freeCount } fun j hj => by
      rw [show (8 : Word) = BitVec.ofNat 32 8 from rfl, shift 8 j (by omega)]; exact hp _ (by omega)
    rw [r2] at hs2
    exact ⟨(congrArg State.freeCount hs2).symm, by rw [r0], by rw [r1], by rw [r2]⟩

/-- The cursor a descriptor's three words make (R65, R125). -/
theorem DmaChannel.takeDescriptor_eq (c : DmaChannel) (a : Word) (w0 w1 w2 : Word) : DmaChannel.takeDescriptor c a w0 w1 w2 =
  { c with currXferCount := w0, currDstAddr := w1, currSrcAddr := (w2.setWidth 31).setWidth 32, endIndirect := w2.getLsbD 31, currIndirectSrc := a + 12 } := by
  have : w2 &&& ~~~(BitVec.twoPow 32 31) = (w2.setWidth 31).setWidth 32 := by
    apply BitVec.eq_of_getLsbD_eq
    intro i hi
    simp only [BitVec.getLsbD_and, BitVec.getLsbD_not, BitVec.getLsbD_twoPow, BitVec.getLsbD_setWidth, hi, decide_true, Bool.true_and]
    by_cases h : i = 31
    · subst h; simp
    · have : i < 31 := by omega
      have h31 : ¬ 31 = i := by omega
      simp [this, h31]
  simp [DmaChannel.takeDescriptor, descriptorWord, Config.descLayout, this]

/-- A descriptor fetch whose words lie outside the register window, or at multiples of 4 in it, answers. -/
theorem fetchDescriptor_answers {s : State} {ch : Channel} (h0 : Params.touchesWindow s.cfg s.dma[ch].currIndirectSrc 4 = false ∨ (s.dma[ch].currIndirectSrc - s.cfg.scuBase).toNat % 4 = 0)
    (h1 : Params.touchesWindow s.cfg (s.dma[ch].currIndirectSrc + 4) 4 = false ∨ ((s.dma[ch].currIndirectSrc + 4) - s.cfg.scuBase).toNat % 4 = 0)
    (h2 : Params.touchesWindow s.cfg (s.dma[ch].currIndirectSrc + 8) 4 = false ∨ ((s.dma[ch].currIndirectSrc + 8) - s.cfg.scuBase).toNat % 4 = 0) :
    ∃ w0 w1 w2 d f, fetchDescriptor ch s = .next { s with dma := s.dma.set ch (DmaChannel.takeDescriptor s.dma[ch] s.dma[ch].currIndirectSrc w0 w1 w2), dsp := d, freeCount := f } := by
  obtain ⟨w0, d0, f0, e0⟩ := memReadWord_answers (ch := ch) h0
  obtain ⟨w1, d1, f1, e1⟩ := memReadWord_answers (ch := ch) (s := { s with dsp := d0, freeCount := f0 }) h1
  obtain ⟨w2, d2, f2, e2⟩ := memReadWord_answers (ch := ch) (s := { s with dsp := d1, freeCount := f1 }) h2
  simp only [fetchDescriptor, e0, andThen_next, e1, e2]
  exact ⟨w0, w1, w2, d2, f2, rfl⟩

end Sys2Proof.Machine
end

