-- ==== Sys2Proof/Laws/Dsp.lean ====
section
/-! SUPPORT. The DSP's own updates: each keeps `PC < 256` and every cursor below 64 (R27). -/

namespace Sys2Proof.Machine

theorem Dsp.valid_iff (d : Dsp) : Dsp.valid d = true ↔ d.PC < 256 ∧ ∀ b : Fin 4, d.CT[b] < 64 := by
  simp only [Dsp.valid, Bool.and_eq_true, decide_eq_true_eq, List.all_eq_true, Vector.mem_toList_iff]
  refine and_congr_right fun _ => ⟨fun h b => h _ (Vector.getElem_mem _), fun h x hx => ?_⟩
  obtain ⟨i, hi, rfl⟩ := Vector.mem_iff_getElem.1 hx
  exact h ⟨i, hi⟩

/-- Validity depends on PC and the cursors alone. -/
theorem Dsp.valid_congr {d e : Dsp} (hp : e.PC = d.PC) (hc : e.CT = d.CT) (h : Dsp.valid d = true) :
    Dsp.valid e = true := by
  simpa [Dsp.valid, hp, hc] using h

theorem Dsp.valid_setCursor {d : Dsp} (bank : Fin 4) (v : Nat) (h : Dsp.valid d = true) :
    Dsp.valid { d with CT := d.CT.set bank (v % 64) } = true := by
  rw [Dsp.valid_iff] at h ⊢
  refine ⟨h.1, fun b => ?_⟩
  simp only [Fin.getElem_fin, Vector.getElem_set]
  split
  · exact Nat.mod_lt _ (by decide)
  · exact h.2 b

theorem Dsp.valid_write {d : Dsp} (w : DspWrite) (h : Dsp.valid d = true) : Dsp.valid (Dsp.write d w) = true := by
  cases w <;> first | exact Dsp.valid_setCursor _ _ h | exact Dsp.valid_congr rfl rfl h

theorem Dsp.valid_writes {d : Dsp} (ws : List DspWrite) (h : Dsp.valid d = true) :
    Dsp.valid (Dsp.writes d ws) = true := by
  induction ws generalizing d with
  | nil => exact h
  | cons w ws ih => exact ih (Dsp.valid_write w h)

theorem Dsp.valid_setPC {d : Dsp} (n : Nat) (hn : n < 256) (h : Dsp.valid d = true) :
    Dsp.valid { d with PC := n } = true := by
  rw [Dsp.valid_iff] at h ⊢
  exact ⟨hn, h.2⟩

theorem Dsp.nextSequential_lt (d : Dsp) : Dsp.nextSequential d < 256 := Nat.mod_lt _ (by decide)

theorem Dsp.valid_advancePC {d : Dsp} (looped : Bool) (h : Dsp.valid d = true) :
    Dsp.valid (Dsp.advancePC d looped) = true := by
  rw [Dsp.valid_iff] at h ⊢
  unfold Dsp.advancePC
  split
  · refine ⟨?_, h.2⟩
    dsimp only
    split
    · exact d.nextPC.isLt
    · exact Dsp.nextSequential_lt d
  · split
    · exact ⟨d.TOP.isLt, h.2⟩
    · exact ⟨Dsp.nextSequential_lt d, h.2⟩

theorem Dsp.valid_windowEffect {d : Dsp} (e : DspWindowEffect) (h : Dsp.valid d = true) :
    Dsp.valid (Dsp.windowEffect d e) = true := by
  rw [Dsp.valid_iff] at h ⊢
  refine ⟨?_, h.2⟩
  simp only [Dsp.windowEffect]
  cases e.pc with
  | none => simpa using h.1
  | some pc => simpa using pc.isLt

theorem Dsp.valid_setProgram {d : Dsp} (k : Fin 256) (v : Word) (h : Dsp.valid d = true) :
    Dsp.valid (Dsp.setProgram d k v) = true := Dsp.valid_congr rfl rfl h

theorem Dsp.valid_writeWindow {d : Dsp} (w : DspWindow) (v : Word) (h : Dsp.valid d = true) :
    Dsp.valid (writeWindow w v d) = true := by
  unfold writeWindow
  apply Dsp.valid_windowEffect
  cases w
  · exact h
  · exact Dsp.valid_setProgram _ _ h
  · exact h
  · exact Dsp.valid_write _ h

theorem Dsp.valid_loadDma {d : Dsp} (toD0 hold : Bool) (count : DspDmaCount) (ram : DspRam) (inc : Word)
    (h : Dsp.valid d = true) : Dsp.valid (Dsp.loadDma d toD0 hold count ram inc) = true :=
  Dsp.valid_congr (d := Dsp.writes d (dspCountWrites count d)) rfl rfl (Dsp.valid_writes _ h)

theorem Dsp.valid_dmaStore {d : Dsp} (v : Word) (h : Dsp.valid d = true) : Dsp.valid (Dsp.dmaStore d v) = true := by
  unfold Dsp.dmaStore
  split
  · exact Dsp.valid_write _ h
  · exact Dsp.valid_setProgram _ _ h

theorem Dsp.valid_dmaAdvance {d : Dsp} (h : Dsp.valid d = true) : Dsp.valid (Dsp.dmaAdvance d) = true := by
  unfold Dsp.dmaAdvance
  split
  · exact Dsp.valid_congr rfl rfl (Dsp.valid_write _ h)
  · exact Dsp.valid_congr rfl rfl h

theorem Dsp.valid_dmaSettle {d : Dsp} (h : Dsp.valid d = true) : Dsp.valid (Dsp.dmaSettle d) = true :=
  Dsp.valid_congr rfl rfl h

theorem Dsp.valid_operate {alu : DspAluOp} {x y d1 : DspSlot} {S : Dsp} (h : Dsp.valid S = true) :
    Dsp.valid (operate alu x y d1 S) = true :=
  Dsp.valid_congr (d := Dsp.writes S _) rfl rfl (Dsp.valid_writes _ h)

theorem Dsp.valid_afterStep {d : Dsp} (h : Dsp.valid d = true) : Dsp.valid (Dsp.afterStep d) = true := by
  unfold Dsp.afterStep
  split
  · exact Dsp.valid_congr rfl rfl h
  · exact h

/-! ## What a write leaves -/

theorem Dsp.writes_append (d : Dsp) (a b : List DspWrite) : Dsp.writes d (a ++ b) = Dsp.writes (Dsp.writes d a) b := by
  simp [Dsp.writes]

@[simp] theorem Dsp.writes_nil (d : Dsp) : Dsp.writes d [] = d := rfl

@[simp] theorem Dsp.writes_cons (d : Dsp) (w : DspWrite) (ws : List DspWrite) :
    Dsp.writes d (w :: ws) = Dsp.writes (Dsp.write d w) ws := rfl

/-- "advance PC" when BTM did not loop, in one update (R171). -/
theorem Dsp.advancePC_false (d : Dsp) :
    Dsp.advancePC d false =
      { d with PC := if d.jmpCounter = 1 then d.nextPC.toNat else (d.PC + 1) % 256, jmpCounter := d.jmpCounter - 1 } := by
  unfold Dsp.advancePC Dsp.nextSequential
  split
  · by_cases h1 : d.jmpCounter = 1
    · simp [h1]
    · have : d.jmpCounter - 1 ≠ 0 := by omega
      simp [h1, this]
  · have : d.jmpCounter = 0 := by omega
    simp [this]

/-- The end of a DSP step that changed only the DSP, in one update. -/
theorem finishDsp_next (d : Dsp) (s : State) : finishDsp d s = .next { s with dsp :=
    { d with PC := if d.jmpCounter = 1 then d.nextPC.toNat else (d.PC + 1) % 256, jmpCounter := d.jmpCounter - 1 } } := by
  simp [finishDsp, Dsp.advancePC_false, State.setDsp]

/-- What no write of a slot changes. -/
theorem Dsp.writes_keep (ws : List DspWrite) (d : Dsp) :
    Dsp.writes d ws =
      { d with
        dataRAM := (Dsp.writes d ws).dataRAM, CT := (Dsp.writes d ws).CT, RX := (Dsp.writes d ws).RX,
        RY := (Dsp.writes d ws).RY, P := (Dsp.writes d ws).P, AC := (Dsp.writes d ws).AC, LOP := (Dsp.writes d ws).LOP,
        TOP := (Dsp.writes d ws).TOP, dmaReadAddr := (Dsp.writes d ws).dmaReadAddr,
        dmaWriteAddr := (Dsp.writes d ws).dmaWriteAddr } := by
  induction ws generalizing d with
  | nil => rfl
  | cons w ws ih =>
    rw [Dsp.writes_cons]
    conv_lhs => rw [ih]
    cases w <;> rfl

end Sys2Proof.Machine
end

