-- ==== Sys2Proof/Laws/Effects.lean ====
section
/-! SUPPORT. What an operation can do, said once: every operation but Reset and LoadState takes the state to its answer by a
chain of elementary effects, and for each operation the kinds of effects it can have are listed. Whole-machine rules are
inductions over such a chain. -/

namespace Sys2Proof.Machine

open Host (Outcome)

/-- The kinds of elementary effects. -/
inductive Kind where
  | result
  | free
  | store
  | dsp
  | channel
  | raise
  | acknowledge
  | mask
  | slot
  | counter
  | audio
  | fault
  | trace
  deriving DecidableEq, Repr

/-- One elementary effect, with the part of the invariants it keeps. -/
inductive Effect : Kind → State → State → Prop
  | result (s : State) (r : Result) : Effect .result s (s.setResult r)
  | free (s : State) : Effect .free s s.takeFree
  | store (s : State) (m : List Host.Cell) (h : Memory.wf s.mem = true → Memory.wf m = true) : Effect .store s (s.setMem m)
  | dsp (s : State) (d : Dsp) (h : Dsp.valid s.dsp = true → Dsp.valid d = true) : Effect .dsp s (s.setDsp d)
  | channel (s : State) (ch : Channel) (c : DmaChannel)
      (h : DmaChannel.valid s.dma[ch] = true → DmaChannel.valid c = true) : Effect .channel s (s.setChannel ch c)
  | raise (s : State) (i : SourceIndex) (l : Level) : Effect .raise s (raise i l s)
  | acknowledge (s : State) (i : SourceIndex) : Effect .acknowledge s (acknowledge i s)
  | mask (s : State) (v : Word) : Effect .mask s (setMask v s)
  | slot (s : State) (id : Nat) (e : EventSlot)
      (h : ∀ f, s.sched.ev[id]? = some f → EventSlot.valid id f = true → EventSlot.valid id e = true) :
      Effect .slot s (s.setSlot id e)
  | counter (s : State) (c : Cycles) : Effect .counter s (s.setCurrCycle c)
  | audio (s : State) (q : List SourceLevel) : Effect .audio s (s.setAudioQueue q)
  | fault (s : State) (r : ViolationReason) : Effect .fault s (s.markFault r)
  | trace (s : State) (e : TraceEvent) : Effect .trace s (s.trace e)

/-- A chain of effects of the listed kinds. -/
inductive Effects (ks : List Kind) : State → State → Prop
  | refl (s : State) : Effects ks s s
  | step {s t u : State} (k : Kind) (hk : k ∈ ks) (h : Effects ks s t) (e : Effect k t u) : Effects ks s u

namespace Effects

variable {ks ks' : List Kind} {s t u : State}

theorem trans (h : Effects ks s t) (h' : Effects ks t u) : Effects ks s u := by
  induction h' with
  | refl => exact h
  | step k hk _ e ih => exact .step k hk ih e

theorem mono (h : Effects ks s t) (hs : ∀ k ∈ ks, k ∈ ks') : Effects ks' s t := by
  induction h with
  | refl => exact .refl _
  | step k hk _ e ih => exact .step k (hs k hk) ih e

theorem one {k : Kind} (e : Effect k s t) (hk : k ∈ ks) : Effects ks s t := .step k hk (.refl s) e

/-- The induction a whole-machine rule uses: what every listed effect keeps, the chain keeps. -/
theorem keeps {P : State → Prop} (h : Effects ks s t) (hP : ∀ k ∈ ks, ∀ a b, Effect k a b → P a → P b) (hs : P s) :
    P t := by
  induction h with
  | refl => exact hs
  | step k hk _ e ih => exact hP k hk _ _ e ih

/-- A field no listed effect changes. -/
theorem same {α : Type} (f : State → α) (h : Effects ks s t) (hf : ∀ k ∈ ks, ∀ a b, Effect k a b → f b = f a) :
    f t = f s := by
  induction h with
  | refl => rfl
  | step k hk _ e ih => rw [hf k hk _ _ e, ih]

end Effects

/-! ## The shared operations -/

/-- The effects of a read: a free value taken, a window register read. -/
abbrev readKinds : List Kind := [.free, .dsp]

/-- The effects of starting channels. -/
abbrev startKinds : List Kind := [.free, .dsp, .channel]

/-- The effects of a register write. -/
abbrev writeKinds : List Kind := [.free, .dsp, .channel, .mask]

/-- The effects of a bus write. -/
abbrev busKinds : List Kind := [.free, .dsp, .channel, .mask, .store]

/-- The effects of a tick of a channel, or of the DSP. -/
abbrev tickKinds : List Kind := [.free, .dsp, .channel, .mask, .store, .raise, .trace]

theorem readRegister_effects (r : Reg) (s : State) : Effects readKinds s (readRegister r s).2 := by
  cases r with
  | window w => exact .one (.dsp s _ fun h => Dsp.valid_windowEffect _ h) (by simp)
  | addressAdd | enable | mode => exact .one (.free s) (by simp)
  | readAddr | writeAddr | count | ims | ist => exact .refl s

theorem regRead_effects {offset : Word} {s : State} {r : Word × State} (h : regRead offset s = .next r) :
    Effects readKinds s r.2 := by
  unfold regRead at h
  split at h
  · split at h <;> cases h
    · exact readRegister_effects _ s
    · exact .one (.free s) (by simp)
  · cases h

theorem readBusBytes_effects (n : Nat) (a : Word) (s : State) : Effects readKinds s (readBusBytes n a s).2 := by
  induction n generalizing a s with
  | zero => exact .refl s
  | succ n ih =>
    refine Effects.trans ?_ (ih (a + 1) (readBusByte a s).2)
    unfold readBusByte
    split
    · exact .one (.free s) (by simp)
    · exact .refl s

theorem memRead_effects {p : Performer} {a : Word} {n : Nat} {s : State} {r : List Byte × State}
    (h : memRead p a n s = .next r) : Effects readKinds s r.2 := by
  unfold memRead at h
  split at h
  · split at h
    · split at h
      · cases h
      · obtain ⟨q, hq, hr⟩ := andThen_eq_next.1 h
        cases hr
        exact regRead_effects hq
    · cases h
  · cases h
    exact readBusBytes_effects n a s

theorem memReadWord_effects {p : Performer} {a : Word} {s : State} {r : Word × State} (h : memReadWord p a s = .next r) :
    Effects readKinds s r.2 := by
  obtain ⟨q, hq, hr⟩ := andThen_eq_next.1 h
  cases hr
  exact memRead_effects hq

/-- Reads leave the channels alone. -/
theorem Effects.read_dma {s t : State} (h : Effects readKinds s t) : t.dma = s.dma :=
  h.same State.dma fun k hk a b e => by cases e <;> simp_all

theorem fetchDescriptor_effects {ch : Channel} {s t : State} (h : fetchDescriptor ch s = .next t) :
    Effects startKinds s t := by
  obtain ⟨r0, h0, h⟩ := andThen_eq_next.1 h
  obtain ⟨r1, h1, h⟩ := andThen_eq_next.1 h
  obtain ⟨r2, h2, h⟩ := andThen_eq_next.1 h
  cases h
  have hr := ((memReadWord_effects h0).trans (memReadWord_effects h1)).trans (memReadWord_effects h2)
  refine .step .channel (by simp) (hr.mono (by simp)) (.channel _ ch _ fun hv => hv)

theorem startChannel_effects {ch : Channel} {ts : TriggerSource} {s t : State} (h : startChannel ch ts s = .next t) :
    Effects startKinds s t := by
  unfold startChannel at h
  simp only at h
  split at h
  · rename_i hst
    have hen : s.dma[ch].enabled = true := by simp [DmaChannel.starts] at hst; exact hst.1.1
    split at h
    · exact Effects.trans (.one (.channel s ch _ fun _ => by simpa [DmaChannel.valid, DmaChannel.start] using hen) (by simp))
        (fetchDescriptor_effects h)
    · cases h
      exact .one (.channel s ch _ fun _ => by simpa [DmaChannel.valid, DmaChannel.start] using hen) (by simp)
  · cases h
    exact .refl s

theorem DmaChannel.valid_setEnabled (c : DmaChannel) (b : Bool) : DmaChannel.valid (DmaChannel.setEnabled c b) = true := by
  cases b <;> simp [DmaChannel.valid, DmaChannel.setEnabled]

theorem writeRegister_effects {r : Reg} {v : Word} {s t : State} (h : writeRegister r v s = .next t) :
    Effects writeKinds s t := by
  cases r with
  | readAddr ch => cases h; exact .one (.channel s ch _ fun hv => hv) (by simp)
  | writeAddr ch => cases h; exact .one (.channel s ch _ fun hv => hv) (by simp)
  | count ch => cases h; exact .one (.channel s ch _ fun hv => hv) (by simp)
  | addressAdd ch => cases h; exact .one (.channel s ch _ fun hv => hv) (by simp)
  | mode ch => cases h; exact .one (.channel s ch _ fun hv => hv) (by simp)
  | enable ch =>
    have h1 : Effects writeKinds s (s.setChannel ch (DmaChannel.setEnabled s.dma[ch] (v.getLsbD s.cfg.layout.enableBit))) :=
      .one (.channel s ch _ fun _ => DmaChannel.valid_setEnabled _ _) (by simp)
    simp only [writeRegister, writeEnable] at h
    split at h
    · exact h1.trans ((startChannel_effects h).mono (by simp))
    · cases h; exact h1
  | window w => cases h; exact .one (.dsp s _ fun hd => Dsp.valid_writeWindow _ _ hd) (by simp)
  | ims => cases h; exact .one (.mask s v) (by simp)
  | ist => cases h; exact .refl s

theorem regWrite_effects {offset v : Word} {s t : State} (h : regWrite offset v s = .next t) : Effects writeKinds s t := by
  unfold regWrite at h
  split at h
  · split at h
    · exact writeRegister_effects h
    · cases h; exact .refl s
  · cases h

theorem memWrite_effects {p : Performer} {a : Word} {bs : List Byte} {s t : State}
    (h : memWrite p a bs s = .next t) : Effects busKinds s t := by
  unfold memWrite at h
  split at h
  · split at h
    · split at h
      · cases h
      · exact (regWrite_effects h).mono (by simp)
    · cases h
  · cases h
    obtain ⟨m, hm, _, hwf⟩ := writeBusBytes_spec a bs s
    rw [hm]
    exact .one (.store s m hwf) (by simp)

/-- What a store of another bus master can do. -/
theorem busStore_effects {a : Word} {bs : List Byte} {s t : State} (h : busStore a bs s = .next t) : Effects busKinds s t :=
  memWrite_effects h

/-- What a load of another bus master can do. -/
theorem busLoad_effects {a : Word} {n : Nat} {s t : State} (h : busLoad a n s = .next t) : Effects [.free, .dsp, .result] s t := by
  obtain ⟨r, hr, h⟩ := andThen_eq_next.1 h
  cases h
  have h1 := (memRead_effects hr).mono (ks' := [.free, .dsp, .result]) (by simp)
  split
  · exact .step .result (by simp) h1 (.result _ _)
  · exact h1

theorem unitTransfer_effects {ch : Channel} {s t : State} (h : unitTransfer ch s = .next t) : Effects busKinds s t := by
  obtain ⟨r, hr, h⟩ := andThen_eq_next.1 h
  obtain ⟨u, hu, h⟩ := andThen_eq_next.1 h
  cases h
  exact (((memRead_effects hr).mono (by simp)).trans (memWrite_effects hu)).trans
    (.one (.channel u ch _ fun hv => hv) (by simp))

theorem unitTransfers_effects {ch : Channel} {n : Nat} {s t : State} (h : unitTransfers ch n s = .next t) :
    Effects busKinds s t := by
  induction n generalizing s with
  | zero => cases h; exact .refl _
  | succ n ih =>
    obtain ⟨u, hu, h⟩ := andThen_eq_next.1 h
    exact (unitTransfer_effects hu).trans (ih h)

theorem finishTick_effects {ch : Channel} {s t : State} (h : finishTick ch s = .next t) : Effects tickKinds s t := by
  unfold finishTick at h
  simp only at h
  split at h
  · split at h
    · exact (fetchDescriptor_effects h).mono (by simp)
    · cases h
      exact .step .raise (by simp) (.one (.channel s ch { s.dma[ch] with active := false } fun _ => rfl) (by simp))
        (.raise _ _ _)
  · cases h; exact .refl s

theorem tickChannel_effects {ch : Channel} {s t : State} (h : tickChannel ch s = .next t) : Effects tickKinds s t := by
  unfold tickChannel at h
  split at h
  · obtain ⟨u, hu, h⟩ := andThen_eq_next.1 h
    exact ((unitTransfers_effects hu).mono (by simp)).trans (finishTick_effects h)
  · cases h; exact .refl s

/-! ## The DSP -/

/-- An update of the DSP that keeps its invariants. -/
theorem Effects.dspUpdate {ks : List Kind} (hk : Kind.dsp ∈ ks) (s : State) (d : Dsp)
    (h : Dsp.valid s.dsp = true → Dsp.valid d = true) : Effects ks s (s.setDsp d) := .one (.dsp s d h) hk

theorem dspDmaUnit_effects {s t : State} (h : dspDmaUnit s = .next t) : Effects busKinds s t := by
  unfold dspDmaUnit at h
  split at h
  · obtain ⟨u, hu, h⟩ := andThen_eq_next.1 h
    cases h
    exact (memWrite_effects hu).trans (.dspUpdate (by simp) _ _ Dsp.valid_dmaAdvance)
  · obtain ⟨r, hr, h⟩ := andThen_eq_next.1 h
    cases h
    exact ((memReadWord_effects hr).mono (by simp)).trans
      (.dspUpdate (by simp) _ _ fun hd => Dsp.valid_dmaAdvance (Dsp.valid_dmaStore _ hd))

theorem dspDmaUnits_effects {n : Nat} {s t : State} (h : dspDmaUnits n s = .next t) : Effects busKinds s t := by
  induction n generalizing s with
  | zero => cases h; exact .refl _
  | succ n ih =>
    obtain ⟨u, hu, h⟩ := andThen_eq_next.1 h
    exact (dspDmaUnit_effects hu).trans (ih h)

theorem dspDmaMove_effects {n : Nat} {s t : State} (h : dspDmaMove n s = .next t) : Effects busKinds s t := by
  obtain ⟨u, hu, h⟩ := andThen_eq_next.1 h
  cases h
  exact (dspDmaUnits_effects hu).trans (.dspUpdate (by simp) _ _ Dsp.valid_dmaSettle)

theorem dspDmaProgress_effects {s t : State} (h : dspDmaProgress s = .next t) : Effects busKinds s t := by
  unfold dspDmaProgress at h
  split at h
  · exact dspDmaMove_effects h
  · cases h; exact .refl s

theorem finishDsp_effects {d : Dsp} {s t : State} (hd : Dsp.valid s.dsp = true → Dsp.valid d = true)
    (h : finishDsp d s = .next t) : Effects [.dsp] s t := by
  cases h
  exact .dspUpdate (by simp) _ _ fun hs => Dsp.valid_advancePC _ (hd hs)

theorem executeDsp_effects {i : DspInstr} {s t : State} (h : executeDsp i s = .next t) : Effects tickKinds s t := by
  have up : ∀ {s : State} {d : Dsp}, (Dsp.valid s.dsp = true → Dsp.valid d = true) → finishDsp d s = .next t →
      Effects tickKinds s t := fun hd h => (finishDsp_effects hd h).mono (by simp)
  cases i with
  | operation alu x y d1 => exact up Dsp.valid_operate h
  | mvi dest imm width cond =>
    refine up (fun hs => ?_) h
    split
    · exact Dsp.valid_writes _ hs
    · exact hs
  | dma toD0 hold count ram inc =>
    obtain ⟨u, hu, h⟩ := andThen_eq_next.1 h
    have h1 : Effects tickKinds s (s.setDsp (Dsp.loadDma s.dsp toD0 hold count ram inc)) :=
      .dspUpdate (by simp) _ _ fun hs => Dsp.valid_loadDma _ _ _ _ _ hs
    exact (Effects.step .trace (by simp) h1 (.trace _ _)).trans
      (((dspDmaMove_effects hu).mono (by simp)).trans (up id h))
  | jmp cond target =>
    refine up (fun hs => ?_) h
    split
    · exact Dsp.valid_congr rfl rfl hs
    · exact hs
  | lps => exact up (Dsp.valid_writes _) h
  | btm =>
    simp only [executeDsp, execDspBTM] at h
    split at h
    · exact up id h
    · cases h
      exact .dspUpdate (by simp) _ _ fun hs => Dsp.valid_advancePC _ (Dsp.valid_congr rfl rfl hs)
  | programEnd => exact up (d := Dsp.halt s.dsp) (fun hs => Dsp.valid_congr (d := s.dsp) rfl rfl hs) h
  | programEndi =>
    have h1 : Effects tickKinds s (raise s.cfg.dspEnd.source s.cfg.dspEnd.level s) := .one (.raise _ _ _) (by simp)
    exact h1.trans (up (s := raise _ _ s) (d := Dsp.halt s.dsp) 
      (fun hs => Dsp.valid_congr (d := s.dsp) rfl rfl (by simpa [raise] using hs)) h)
  | invalid => exact up id h

theorem dspStep_effects {s t : State} (h : dspStep s = .next t) : Effects tickKinds s t := by
  unfold dspStep at h
  split at h
  · obtain ⟨u, hu, h⟩ := andThen_eq_next.1 h
    have h1 : Effects tickKinds s u := (dspDmaProgress_effects hu).mono (by simp)
    split at h
    · cases h; exact h1
    · obtain ⟨v, hv, h⟩ := andThen_eq_next.1 h
      cases h
      exact (h1.trans (executeDsp_effects hv)).trans (.dspUpdate (by simp) _ _ Dsp.valid_afterStep)
  · cases h; exact .refl s

/-! ## Signals and the queue -/

theorem signal_effects {sig : Signal} {s t : State} (h : signal sig s = .next t) : Effects [.free, .dsp, .channel, .raise] s t := by
  obtain ⟨u, hu, h⟩ := andThen_eq_next.1 h
  obtain ⟨v, hv, h⟩ := andThen_eq_next.1 h
  exact Effects.trans (.one (.raise s _ _) (by simp))
    (((startChannel_effects hu).mono (by simp)).trans
      (((startChannel_effects hv).mono (by simp)).trans ((startChannel_effects h).mono (by simp))))

theorem raiseAll_effects (q : List SourceLevel) (s : State) : Effects [.raise] s (raiseAll q s) := by
  induction q generalizing s with
  | nil => exact .refl s
  | cons e q ih => exact Effects.trans (.one (.raise s _ _) (by simp)) (ih _)

theorem scuTick_effects {s t : State} (h : execScuTick s = .next t) : Effects tickKinds s t := by
  obtain ⟨u, hu, h⟩ := andThen_eq_next.1 h
  obtain ⟨v, hv, h⟩ := andThen_eq_next.1 h
  obtain ⟨w, hw, h⟩ := andThen_eq_next.1 h
  exact (((tickChannel_effects hu).trans (tickChannel_effects hv)).trans (tickChannel_effects hw)).trans (dspStep_effects h)

/-! ## The operations -/

/-- The kinds of effects each operation can have outside the boundary operations. -/
def Instr.kinds : Instr → List Kind
  | .schedule .. | .setEventPeriod .. | .cancel .. => [.slot, .fault]
  | .advanceTo .. | .reset .. | .loadState .. => [.fault]
  | .raiseInterrupt .. => [.raise, .fault]
  | .acknowledgeInterrupt .. => [.acknowledge, .fault]
  | .acknowledgeVector .. => [.acknowledge]
  | .getInterruptMask | .getInterruptStatus | .getPendingInterruptLevel | .getPendingInterruptVector => [.result]
  | .getPendingInterrupt | .saveState => [.result]
  | .setInterruptMask .. => [.mask]
  | .writeInterruptStatus .. => []
  | .configure .. | .setAddressUpdate .. | .setEnabled .. => [.channel, .fault]
  | .trigger .. | .softwareStart .. => [.free, .dsp, .channel, .fault]
  | .tick .. => [.free, .dsp, .channel, .mask, .store, .raise, .trace, .fault]
  | .signal .. | .triggerVBlankIN | .triggerVBlankOUT | .triggerHBlankIN | .cbTriggerExternalInterruptN .. =>
    [.free, .dsp, .channel, .raise]
  | .scuTick | .dspStep => tickKinds
  | .regRead .. => [.free, .dsp, .result]
  | .regWrite .. => writeKinds
  | .postAudioInterrupt .. => [.audio, .fault]
  | .drainAudioQueue => [.raise, .audio]
  | .dspOperation .. | .dspMVI .. | .dspDMA .. | .dspJMP .. | .dspLPS | .dspBTM | .dspEND | .dspENDI | .dspInvalid => tickKinds

theorem onChannel_effects {ks : List Kind} {ch : Nat} {s t : State} {f : Channel → Run} (hk : Kind.fault ∈ ks)
    (hf : ∀ c, f c = .next t → Effects ks s t) (h : onChannel ch s f = .next t) : Effects ks s t := by
  unfold onChannel at h
  split at h
  · exact hf _ h
  · cases h; exact .one (.fault s _) hk

/-- The old slot of a known event. -/
theorem State.slot_of_knows {s : State} {id : Nat} (h : s.knowsEvent id = true) : s.sched.ev[id]? = some (s.slot id) := by
  have hl : id < s.sched.ev.length := by simp [State.knowsEvent] at h; exact h.1
  simp [State.slot, List.getElem?_eq_getElem hl]

theorem schedule_effects {id : Nat} {d : Cycles} {p : Bool} {s t : State} (h : execSchedule id d p s = .next t) :
    Effects [.slot, .fault] s t := by
  unfold execSchedule at h
  split at h
  · rename_i hk
    simp only at h
    split at h
    · cases h; exact .one (.fault s _) (by simp)
    · rename_i hp
      cases h
      refine .one (.slot s id _ fun f hf hv => ?_) (by simp)
      rw [State.slot_of_knows hk] at hf
      cases hf
      simp only [EventSlot.valid, Bool.and_eq_true, decide_eq_true_eq, Bool.or_eq_true, Bool.not_eq_true',
        Bool.and_eq_false_iff] at hv ⊢
      refine ⟨⟨⟨hv.1.1.1, hv.1.1.2⟩, hv.1.1.2⟩, ?_⟩
      cases p
      · simp
      · right
        simp only [Bool.true_and, Bool.or_eq_true, decide_eq_true_eq, not_or] at hp
        have := hp.1
        have : (s.slot id).countNumerator.toNat ≠ 0 := fun h0 => this (BitVec.eq_of_toNat_eq (by simpa using h0))
        omega
  · cases h; exact .one (.fault s _) (by simp)

theorem setEventPeriod_effects {id : Nat} {n d : Cycles} {s t : State} (h : execSetEventPeriod id n d s = .next t) :
    Effects [.slot, .fault] s t := by
  unfold execSetEventPeriod at h
  split at h
  · rename_i hk
    split at h
    · cases h; exact .one (.fault s _) (by simp)
    · rename_i hnd
      cases h
      refine .one (.slot s id _ fun f hf hv => ?_) (by simp)
      rw [State.slot_of_knows hk] at hf
      cases hf
      rw [not_or] at hnd
      have hn : n.toNat ≠ 0 := fun h0 => hnd.1 (BitVec.eq_of_toNat_eq (by simpa using h0))
      have hd : d.toNat ≠ 0 := fun h0 => hnd.2 (BitVec.eq_of_toNat_eq (by simpa using h0))
      simp only [EventSlot.valid, Bool.and_eq_true, decide_eq_true_eq, Bool.or_eq_true] at hv ⊢
      refine ⟨⟨⟨hv.1.1.1, by omega⟩, by simpa using Nat.pos_of_ne_zero hd⟩, Or.inr (by omega)⟩
  · cases h; exact .one (.fault s _) (by simp)

theorem cancel_effects {id : Nat} {s t : State} (h : execCancel id s = .next t) : Effects [.slot, .fault] s t := by
  unfold execCancel at h
  split at h
  · rename_i hk
    cases h
    refine .one (.slot s id _ fun f hf hv => ?_) (by simp)
    rw [State.slot_of_knows hk] at hf
    cases hf
    simp only [EventSlot.valid, Bool.and_eq_true, decide_eq_true_eq, Bool.or_eq_true] at hv ⊢
    exact ⟨hv.1, Or.inl rfl⟩
  · cases h; exact .one (.fault s _) (by simp)

/-- What an operation performed in a handler can do. -/
theorem performNested_effects {i : Instr} {s t : State} (h : performNested i s = .next t) : Effects (Instr.kinds i) s t := by
  cases i with
  | schedule => exact schedule_effects h
  | setEventPeriod => exact setEventPeriod_effects h
  | cancel => exact cancel_effects h
  | advanceTo => cases h; exact .one (.fault s _) (by simp [Instr.kinds])
  | reset => cases h; exact .one (.fault s _) (by simp [Instr.kinds])
  | loadState => cases h; exact .one (.fault s _) (by simp [Instr.kinds])
  | raiseInterrupt source level =>
    simp only [performNested, execRaiseInterrupt] at h
    split at h <;> cases h
    · exact .one (.raise s _ _) (by simp [Instr.kinds])
    · exact .one (.fault s _) (by simp [Instr.kinds])
  | acknowledgeInterrupt source =>
    simp only [performNested, execAcknowledgeInterrupt] at h
    split at h <;> cases h
    · exact .one (.acknowledge s _) (by simp [Instr.kinds])
    · exact .one (.fault s _) (by simp [Instr.kinds])
  | acknowledgeVector vector =>
    simp only [performNested, execAcknowledgeVector] at h
    split at h <;> cases h
    · exact .one (.acknowledge s _) (by simp [Instr.kinds])
    · exact .refl s
  | getInterruptMask => cases h; exact .one (.result s _) (by simp [Instr.kinds])
  | setInterruptMask => cases h; exact .one (.mask s _) (by simp [Instr.kinds])
  | getInterruptStatus => cases h; exact .one (.result s _) (by simp [Instr.kinds])
  | writeInterruptStatus => cases h; exact .refl s
  | getPendingInterruptLevel => cases h; exact .one (.result s _) (by simp [Instr.kinds])
  | getPendingInterruptVector => cases h; exact .one (.result s _) (by simp [Instr.kinds])
  | getPendingInterrupt => cases h; exact .one (.result s _) (by simp [Instr.kinds])
  | saveState => cases h; exact .one (.result s _) (by simp [Instr.kinds])
  | configure =>
    exact onChannel_effects (by simp [Instr.kinds]) (fun c hc => by
      cases hc; exact .one (.channel s c _ fun hv => hv) (by simp [Instr.kinds])) h
  | setAddressUpdate =>
    exact onChannel_effects (by simp [Instr.kinds]) (fun c hc => by
      cases hc; exact .one (.channel s c _ fun hv => hv) (by simp [Instr.kinds])) h
  | setEnabled =>
    exact onChannel_effects (by simp [Instr.kinds]) (fun c hc => by
      cases hc; exact .one (.channel s c _ fun _ => DmaChannel.valid_setEnabled _ _) (by simp [Instr.kinds])) h
  | trigger =>
    exact onChannel_effects (by simp [Instr.kinds])
      (fun c hc => (startChannel_effects hc).mono (by simp [Instr.kinds])) h
  | softwareStart =>
    exact onChannel_effects (by simp [Instr.kinds])
      (fun c hc => (startChannel_effects hc).mono (by simp [Instr.kinds])) h
  | tick =>
    exact onChannel_effects (by simp [Instr.kinds])
      (fun c hc => (tickChannel_effects hc).mono (by simp [Instr.kinds])) h
  | signal => exact signal_effects h
  | triggerVBlankIN => exact signal_effects h
  | triggerVBlankOUT => exact signal_effects h
  | triggerHBlankIN => exact signal_effects h
  | cbTriggerExternalInterruptN => exact signal_effects h
  | scuTick => exact scuTick_effects h
  | dspStep => exact dspStep_effects h
  | regRead offset =>
    obtain ⟨r, hr, h⟩ := andThen_eq_next.1 h
    cases h
    exact .step .result (by simp [Instr.kinds]) ((regRead_effects hr).mono (by simp [Instr.kinds])) (.result _ _)
  | regWrite => exact regWrite_effects h
  | postAudioInterrupt source level =>
    simp only [performNested, execPostAudioInterrupt] at h
    split at h <;> cases h
    · exact .one (.audio s _) (by simp [Instr.kinds])
    · exact .one (.fault s _) (by simp [Instr.kinds])
  | drainAudioQueue =>
    cases h
    exact .step .audio (by simp [Instr.kinds]) ((raiseAll_effects _ s).mono (by simp [Instr.kinds])) (.audio _ _)
  | dspOperation alu x y d1 => exact executeDsp_effects (i := .operation alu x y d1) h
  | dspMVI dest imm width cond => exact executeDsp_effects (i := .mvi dest imm width cond) h
  | dspDMA toD0 hold count ram inc => exact executeDsp_effects (i := .dma toD0 hold count ram inc) h
  | dspJMP cond target => exact executeDsp_effects (i := .jmp cond target) h
  | dspLPS => exact executeDsp_effects (i := .lps) h
  | dspBTM => exact executeDsp_effects (i := .btm) h
  | dspEND => exact executeDsp_effects (i := .programEnd) h
  | dspENDI => exact executeDsp_effects (i := .programEndi) h
  | dspInvalid => exact executeDsp_effects (i := .invalid) h

/-! ## Handlers and AdvanceTo -/

/-- The kinds of effects an operation performed in a handler can have. -/
abbrev nestedKinds : List Kind :=
  [.result, .free, .store, .dsp, .channel, .raise, .acknowledge, .mask, .slot, .audio, .fault, .trace]

theorem Instr.kinds_nested (i : Instr) : ∀ k ∈ Instr.kinds i, k ∈ nestedKinds := by
  cases i <;> simp [Instr.kinds]

theorem performAll_effects {is : List Instr} {s t : State} (h : performAll is s = .next t) : Effects nestedKinds s t := by
  induction is generalizing s with
  | nil => cases h; exact .refl _
  | cons i is ih =>
    obtain ⟨u, hu, h⟩ := andThen_eq_next.1 h
    have h1 := (performNested_effects hu).mono (Instr.kinds_nested i)
    split at h
    · cases h; exact h1
    · exact h1.trans (ih h)

/-- The kinds of effects firing an event can have. -/
abbrev fireKinds : List Kind := nestedKinds

theorem invokeHandler_effects {id : Nat} {target : Cycles} {s t : State} (h : invokeHandler id target s = .next t) :
    Effects fireKinds s t := performAll_effects h

/-- Rearming keeps a slot valid (R15: the remainder stays below the denominator). -/
theorem EventSlot.valid_fired {i : Nat} {e : EventSlot} (h : EventSlot.valid i e = true) :
    EventSlot.valid i (EventSlot.fired e) = true := by
  simp only [EventSlot.valid, Bool.and_eq_true, decide_eq_true_eq, Bool.or_eq_true, Bool.not_eq_true',
    Bool.and_eq_false_iff] at h
  obtain ⟨⟨⟨hid, hd⟩, hr⟩, hn⟩ := h
  unfold EventSlot.fired
  split
  · rename_i hp
    have hlt := e.countDenominator.isLt
    have hm : (e.countNumerator.toNat + e.remainder.toNat) % e.countDenominator.toNat < e.countDenominator.toNat :=
      Nat.mod_lt _ (by omega)
    simp only [EventSlot.valid, Bool.and_eq_true, decide_eq_true_eq, Bool.or_eq_true, Bool.not_eq_true',
      Bool.and_eq_false_iff, BitVec.toNat_ofNat]
    refine ⟨⟨⟨hid, hd⟩, ?_⟩, hn⟩
    rw [Nat.mod_eq_of_lt (by omega)]
    exact hm
  · simp [EventSlot.valid, hid, hd, hr]

/-- The slot the scheduler picks is a slot of the table, and due. -/
theorem nextDue_some {c : Cycles} {i j : Nat} {es : List EventSlot} {e : EventSlot} (h : nextDue c i es = some (j, e)) :
    i ≤ j ∧ es[j - i]? = some e ∧ EventSlot.isDue e c = true := by
  induction es generalizing i j e with
  | nil => simp [nextDue] at h
  | cons f es ih =>
    unfold nextDue at h
    split at h
    · split at h
      · rename_i hd
        cases h
        exact ⟨Nat.le_refl _, by simp, hd⟩
      · cases h
    · rename_i j' f' hn
      have hr := ih hn
      split at h
      · rename_i hd
        cases h
        simp only [Bool.and_eq_true] at hd
        exact ⟨Nat.le_refl _, by simp, hd.1⟩
      · cases h
        refine ⟨by omega, ?_, hr.2.2⟩
        rw [show j - i = (j - (i + 1)) + 1 by omega, List.getElem?_cons_succ]
        exact hr.2.1

theorem fireEvent_effects {c : Cycles} {id : Nat} {e : EventSlot} {s t : State}
    (hn : nextDue c 0 s.sched.ev = some (id, e)) (h : fireEvent id e s = .next t) : Effects fireKinds s t := by
  refine Effects.trans (.one (.slot s id _ fun f hf hv => ?_) (by simp)) (invokeHandler_effects h)
  have := (nextDue_some hn).2.1
  rw [Nat.sub_zero, hf] at this
  cases this
  exact EventSlot.valid_fired hv

theorem dispatchDue_effects {fuel : Nat} {c : Cycles} {s t : State} (h : dispatchDue fuel c s = .next t) :
    Effects fireKinds s t := by
  induction fuel generalizing s with
  | zero => cases h
  | succ fuel ih =>
    unfold dispatchDue at h
    split at h
    · cases h; exact .refl _
    · split at h
      · cases h; exact .refl _
      · rename_i id e hn
        obtain ⟨u, hu, h⟩ := andThen_eq_next.1 h
        exact (fireEvent_effects hn hu).trans (ih h)

theorem advanceTo_effects {c : Cycles} {s t : State} (h : execAdvanceTo c s = .next t) :
    Effects (.counter :: fireKinds) s t := by
  unfold execAdvanceTo at h
  split at h
  · exact Effects.trans (.one (.counter s c) (by simp)) ((dispatchDue_effects h).mono (by simp))
  · cases h; exact .one (.fault s _) (by simp)

end Sys2Proof.Machine
end

