-- ==== Sys2Proof/Laws/Operands.lean ====
section
/-! SUPPORT. Numbers in range and out of range (R181), notifications, raising and acknowledging as one update each. -/

namespace Sys2Proof.Machine

@[simp] theorem channelOf_val (ch : Channel) : channelOf ch.val = some ch := by simp [channelOf]

theorem channelOf_of_gt {n : Nat} (h : 2 < n) : channelOf n = none := by simp [channelOf]; omega

@[simp] theorem sourceOf_val (i : SourceIndex) : sourceOf i.val = some i := by simp [sourceOf]

theorem sourceOf_of_gt {n : Nat} (h : 31 < n) : sourceOf n = none := by simp [sourceOf]; omega

@[simp] theorem onChannel_val (ch : Channel) (s : State) (f : Channel → Run) : onChannel ch.val s f = f ch := by
  simp [onChannel]

theorem onChannel_of_gt {n : Nat} (h : 2 < n) (s : State) (f : Channel → Run) :
    onChannel n s f = raiseViolation .badChannel s := by simp [onChannel, channelOf_of_gt h]

/-- The mark takes the reason if it is not set (R32, R181). -/
theorem State.markFault_eq (s : State) (r : ViolationReason) : s.markFault r = { s with fault := some (s.fault.getD r) } := by
  unfold State.markFault
  cases s.fault <;> rfl

/-- A notification changes the trace alone (R33, R156). -/
theorem State.trace_eq (s : State) (e : TraceEvent) :
    s.trace e = { s with traceLog := if s.cfg.tracer then s.traceLog ++ [e] else s.traceLog } := by
  unfold State.trace
  split <;> rfl

/-- What a raise writes (R97). -/
theorem raise_eq (i : SourceIndex) (l : Level) (s : State) :
    raise i l s = { s with
      intr := { s.intr with status := s.intr.status ||| BitVec.twoPow 32 i, level := s.intr.level.set i l }
      traceLog := if s.cfg.tracer then s.traceLog ++ [.raiseInterrupt i l] else s.traceLog } := by
  simp [raise, State.trace_eq, State.setIntr]

/-- What an acknowledge writes (R99). -/
theorem acknowledge_eq (i : SourceIndex) (s : State) :
    acknowledge i s = { s with
      intr := { s.intr with status := s.intr.status &&& ~~~(BitVec.twoPow 32 i) }
      traceLog := if s.cfg.tracer then s.traceLog ++ [.acknowledgeInterrupt i] else s.traceLog } := by
  simp [acknowledge, State.trace_eq, State.setIntr]

/-- Bit `j` of a status register after bit `i` is set. -/
theorem getLsbD_or_twoPow (w : Word) (i j : SourceIndex) :
    (w ||| BitVec.twoPow 32 i.val).getLsbD j.val = (decide (j = i) || w.getLsbD j.val) := by
  by_cases h : j = i
  · subst h; simp
  · have : j.val ≠ i.val := fun h' => h (Fin.ext h')
    simp [h]
    omega

/-- Bit `j` of a status register after bit `i` is cleared. -/
theorem getLsbD_and_not_twoPow (w : Word) (i j : SourceIndex) :
    (w &&& ~~~(BitVec.twoPow 32 i.val)).getLsbD j.val = (!decide (j = i) && w.getLsbD j.val) := by
  by_cases h : j = i
  · subst h; simp
  · have : i.val ≠ j.val := fun h' => h (Fin.ext h'.symm)
    simp [h]
    omega

/-- Entry `j` of the levels after entry `i` is written. -/
theorem getElem_level_set (v : Vector Level 32) (i j : SourceIndex) (l : Level) :
    (v.set i.val l)[j] = if j = i then l else v[j] := by
  by_cases h : j = i
  · subst h; simp
  · have : i.val ≠ j.val := fun h' => h (Fin.ext h'.symm)
    simp [h, this]

end Sys2Proof.Machine
end

