-- ==== Sys2Proof/Laws/Interrupt.lean ====
section
/-! SUPPORT. The interrupt controller: the source `Pending()` selects, raising and acknowledging a source in range. -/

namespace Sys2Proof.Machine

/-- The source selected from a list in ascending order: none when none is visible, else a visible one of greatest level, the least index among equals (R105). -/
theorem highest_spec (r : Intr) (l : List SourceIndex) (hl : l.Pairwise (· < ·)) :
   (Intr.highest r l = none ↔ ∀ i ∈ l, Intr.visible r i = false) ∧
   ∀ i, Intr.highest r l = some i → i ∈ l ∧ Intr.visible r i = true ∧ ∀ j ∈ l, Intr.visible r j = true → r.level[j].toNat < r.level[i].toNat ∨ (r.level[j] = r.level[i] ∧ i ≤ j) := by
  induction l with
  | nil => simp [Intr.highest]
  | cons a l ih =>
    obtain ⟨hn, hs⟩ := ih (List.pairwise_cons.1 hl).2
    have hlt := (List.pairwise_cons.1 hl).1
    simp only [Intr.highest]
    cases h : Intr.highest r l with
    | none =>
      have hn := hn.1 h
      constructor
      · cases hv : Intr.visible r a <;> simp [hv]; exact hn
      · intro i hi
        simp only at hi
        split at hi
        · cases hi
          rename_i hv
          refine ⟨by simp, hv, ?_⟩
          intro j hj hvj
          rcases List.mem_cons.1 hj with rfl | hj
          · right; exact ⟨rfl, le_refl _⟩
          · rw [hn j hj] at hvj; cases hvj
        · cases hi
    | some k =>
      obtain ⟨h1, h2, h3⟩ := hs k h
      constructor
      · constructor
        · intro h'; simp only at h'; split at h' <;> cases h'
        · intro h'; rw [h' k (by simp [h1])] at h2; cases h2
      · intro i hi
        simp only at hi
        split at hi
        · cases hi
          rename_i hv
          simp only [Bool.and_eq_true, decide_eq_true_eq] at hv
          refine ⟨by simp, hv.1, fun j hj hvj => ?_⟩
          rcases List.mem_cons.1 hj with rfl | hj
          · right; exact ⟨rfl, le_refl _⟩
          · rcases h3 j hj hvj with h4 | ⟨h4, h5⟩
            · left; omega
            · rw [h4]
              rcases Nat.lt_or_eq_of_le hv.2 with h6 | h6
              · left; exact h6
              · right; exact ⟨BitVec.eq_of_toNat_eq h6, le_of_lt (hlt j hj)⟩
        · cases hi
          rename_i hv
          refine ⟨by simp [h1], h2, fun j hj hvj => ?_⟩
          rcases List.mem_cons.1 hj with rfl | hj
          · simp only [Bool.and_eq_true, decide_eq_true_eq, hvj, true_and] at hv
            left; omega
          · exact h3 j hj hvj

/-- The selection over all sources. -/
theorem Intr.pendingSource_spec (r : Intr) :
    (Intr.pendingSource r = none ↔ ∀ i : SourceIndex, Intr.visible r i = false) ∧
      ∀ i, Intr.pendingSource r = some i → Intr.visible r i = true ∧ ∀ j : SourceIndex, Intr.visible r j = true →
        r.level[j].toNat < r.level[i].toNat ∨ (r.level[j] = r.level[i] ∧ i ≤ j) := by
  obtain ⟨hn, hs⟩ := highest_spec r _ (List.pairwise_lt_finRange 32)
  exact ⟨hn.trans (by simp), fun i hi => ⟨(hs i hi).2.1, fun j => (hs i hi).2.2 j (List.mem_finRange j)⟩⟩

/-- The pending pair of the selected source. -/
theorem State.pendingLevel_of_some {s : State} {i : SourceIndex} (h : Intr.pendingSource s.intr = some i) :
    s.pendingLevel = s.intr.level[i] := by unfold State.pendingLevel; rw [h]

theorem State.pendingVector_of_some {s : State} {i : SourceIndex} (h : Intr.pendingSource s.intr = some i) :
    s.pendingVector = s.vectorOf i := by unfold State.pendingVector; rw [h]

theorem State.pendingLevel_of_none {s : State} (h : Intr.pendingSource s.intr = none) : s.pendingLevel = 0 := by
  unfold State.pendingLevel; rw [h]

theorem State.pendingVector_of_none {s : State} (h : Intr.pendingSource s.intr = none) : s.pendingVector = 0 := by
  unfold State.pendingVector; rw [h]

theorem execRaiseInterrupt_val (s : State) (i : SourceIndex) (l : Level) :
    execRaiseInterrupt i.val l s = .next (raise i l s) := by simp [execRaiseInterrupt]

theorem execAcknowledgeInterrupt_val (s : State) (i : SourceIndex) :
    execAcknowledgeInterrupt i.val s = .next (acknowledge i s) := by simp [execAcknowledgeInterrupt]

end Sys2Proof.Machine
end

