-- ==== Sys2Proof/Laws/Scheduler.lean ====
section
/-! SUPPORT. The scheduler: which slot fires next, how much a table can fire, what a firing does. -/

namespace Sys2Proof.Machine

/-- Nothing is chosen exactly when nothing is due. -/
theorem nextDue_none_iff (c : Cycles) (i : Nat) (ev : List EventSlot) : nextDue c i ev = none ↔ ∀ e ∈ ev, EventSlot.isDue e c = false := by
  induction ev generalizing i with
  | nil => simp [nextDue]
  | cons f es ih =>
    simp only [nextDue]
    cases h : nextDue c (i+1) es with
    | none =>
      simp only [List.mem_cons, forall_eq_or_imp]
      rw [ih] at h
      cases hf : EventSlot.isDue f c <;> simp_all
    | some p =>
      obtain ⟨j, g⟩ := p
      have := nextDue_some h
      simp only [List.mem_cons, forall_eq_or_imp]
      constructor
      · intro h'; split at h' <;> cases h'
      · rintro ⟨-, h2⟩
        have hm : g ∈ es := List.mem_of_getElem? this.2.1
        rw [h2 g hm] at this; cases this.2.2

/-- A due slot is live and its age is below half the range (R77). -/
theorem EventSlot.isDue_iff {e : EventSlot} {c : Cycles} : EventSlot.isDue e c = true ↔ e.live = true ∧ age e.target c < 2 ^ 63 := by
  simp only [EventSlot.isDue, due, Bool.and_eq_true, decide_eq_true_eq]

/-- A slot that is not due. -/
theorem EventSlot.isDue_eq_false {e : EventSlot} {c : Cycles} : EventSlot.isDue e c = false ↔ (e.live = true → 2 ^ 63 ≤ (c - e.target).toNat) := by
  unfold EventSlot.isDue due age
  rw [Bool.and_eq_false_iff, decide_eq_false_iff_not, not_lt]
  cases e.live <;> simp

/-- The slot chosen is due, of greatest age, and the least id among equals (R84). -/
theorem nextDue_spec (c : Cycles) (i : Nat) (ev : List EventSlot) (id : Nat) (e : EventSlot) (h : nextDue c i ev = some (id, e)) :
    i ≤ id ∧ ev[id - i]? = some e ∧ EventSlot.isDue e c = true ∧ ∀ j f, ev[j]? = some f → EventSlot.isDue f c = true →
      age f.target c < age e.target c ∨ (age f.target c = age e.target c ∧ id ≤ i + j) := by
  induction ev generalizing i id e with
  | nil => cases h
  | cons g es ih =>
    have h' := h
    simp only [nextDue] at h
    obtain ⟨a1, a2, a3⟩ := nextDue_some h'
    refine ⟨a1, a2, a3, ?_⟩
    intro j f hj hf
    cases hn : nextDue c (i+1) es with
    | none =>
      rw [hn] at h
      have hnn := (nextDue_none_iff _ _ _).1 hn
      dsimp only at h
      split at h
      · cases h
        cases j with
        | zero => simp at hj; subst hj; right; exact ⟨rfl, by omega⟩
        | succ j => rw [hnn f (List.mem_of_getElem? (by simpa using hj))] at hf; cases hf
      · cases h
    | some p =>
      obtain ⟨k, q⟩ := p
      rw [hn] at h
      obtain ⟨b1, b2, b3, b4⟩ := ih (i+1) k q hn
      dsimp only at h
      split at h
      · rename_i hc
        cases h
        simp only [Bool.and_eq_true, decide_eq_true_eq] at hc
        cases j with
        | zero => simp at hj; subst hj; right; exact ⟨rfl, by omega⟩
        | succ j =>
          rcases b4 j f (by simpa using hj) hf with h1 | ⟨h1, h2⟩
          · left; omega
          · rcases Nat.lt_or_eq_of_le hc.2 with h3 | h3
            · left; omega
            · right; exact ⟨by omega, by omega⟩
      · rename_i hc
        cases h
        cases j with
        | zero =>
          simp at hj; subst hj
          simp only [Bool.and_eq_true, decide_eq_true_eq, not_and] at hc
          left; have := hc hf; omega
        | succ j =>
          rcases b4 j f (by simpa using hj) hf with h1 | ⟨h1, h2⟩
          · left; exact h1
          · right; exact ⟨h1, by omega⟩

/-- The loop has fuel for at least one firing. -/
theorem dispatchFuel_pos (s : State) : ∃ f, dispatchFuel s = f + 2 := by
  refine ⟨dispatchFuel s - 2, ?_⟩
  unfold dispatchFuel
  have : 2 ^ 128 ≤ 2^128 * (s.sched.ev.length + 1) := Nat.le_mul_of_pos_right _ (by omega)
  omega

/-- More fuel changes no answer. -/
theorem dispatchDue_mono {f : Nat} {c : Cycles} {s t : State} (h : dispatchDue f c s = .next t) {g : Nat} (hg : f ≤ g) : dispatchDue g c s = .next t := by
  induction f generalizing s g with
  | zero => cases h
  | succ f ih =>
    obtain ⟨g, rfl⟩ : ∃ k, g = k + 1 := ⟨g - 1, by omega⟩
    unfold dispatchDue at h ⊢
    split
    · rename_i hf; rw [if_pos hf] at h; exact h
    · rename_i hf; rw [if_neg hf] at h
      split
      · rename_i hn; rw [hn] at h; exact h
      · rename_i id e hn; rw [hn] at h
        dsimp only at h
        obtain ⟨u, hu, h⟩ := andThen_eq_next.1 h
        rw [hu]; exact ih h (by omega)

/-- A handler changes neither the number of slots nor the counter (R76, R86). -/
theorem invokeHandler_keeps {id : Nat} {target : Cycles} {s t : State} (h : invokeHandler id target s = .next t) : t.sched.ev.length = s.sched.ev.length ∧ t.sched.currCycle = s.sched.currCycle := by
  have h := invokeHandler_effects h
  refine ⟨h.same (fun s => s.sched.ev.length) fun k hk a b e => ?_, h.same (fun s => s.sched.currCycle) fun k hk a b e => ?_⟩
  · cases e <;> simp [raise_eq, acknowledge_eq, State.trace_eq, setMask]
  · cases e <;> first | (simp [raise_eq, acknowledge_eq, State.trace_eq, setMask]; done) | (simp at hk)

/-- What bounds the firings of a slot: its remainder below its denominator, and a period from 1/d to below 2^63 cycles. -/
def EventSlot.Bounded (e : EventSlot) : Prop := 1 ≤ e.countDenominator.toNat ∧ e.remainder.toNat < e.countDenominator.toNat ∧
  (e.live = true → e.periodic = true → 1 ≤ e.countNumerator.toNat ∧ e.countNumerator.toNat < 2 ^ 63 * e.countDenominator.toNat)

/-- What is left to fire of a due slot, in units of 1/denominator cycles; it drops at every firing. -/
def EventSlot.leftToFire (c : Cycles) (e : EventSlot) : Nat :=
  if EventSlot.isDue e c then age e.target c * e.countDenominator.toNat + e.countDenominator.toNat - e.remainder.toNat else 0

/-- Firing keeps the bound. -/
theorem EventSlot.bounded_fired {e : EventSlot} (h : EventSlot.Bounded e) : EventSlot.Bounded (EventSlot.fired e) := by
  obtain ⟨h1, h2, h3⟩ := h
  have hlt := e.countDenominator.isLt
  unfold EventSlot.fired
  split
  · refine ⟨h1, ?_, h3⟩
    simp only [BitVec.toNat_ofNat]
    have := Nat.mod_lt (e.countNumerator.toNat + e.remainder.toNat) (show 0 < e.countDenominator.toNat by omega)
    rw [Nat.mod_eq_of_lt (by omega)]; exact this
  · exact ⟨h1, h2, fun h => by cases h⟩

/-- Firing leaves less to fire. -/
theorem EventSlot.leftToFire_fired {c : Cycles} {e : EventSlot} (h : EventSlot.Bounded e) (hd : EventSlot.isDue e c = true) : EventSlot.leftToFire c (EventSlot.fired e) < EventSlot.leftToFire c e := by
  obtain ⟨h1, h2, h3⟩ := h
  obtain ⟨hl, ha⟩ := EventSlot.isDue_iff.1 hd
  have hlt := e.countDenominator.isLt
  have hpos : 0 < EventSlot.leftToFire c e := by
    unfold EventSlot.leftToFire; rw [if_pos hd]; omega
  by_cases hp : e.periodic = true
  · obtain ⟨h4, h5⟩ := h3 hl hp
    by_cases hd2 : EventSlot.isDue (EventSlot.fired e) c = true
    · obtain ⟨_, ha2⟩ := EventSlot.isDue_iff.1 hd2
      unfold EventSlot.leftToFire
      rw [if_pos hd, if_pos hd2]
      obtain ⟨q, hqd⟩ : ∃ q, q = (e.countNumerator.toNat + e.remainder.toNat) / e.countDenominator.toNat := ⟨_, rfl⟩
      obtain ⟨r2, hrd⟩ : ∃ q, q = (e.countNumerator.toNat + e.remainder.toNat) % e.countDenominator.toNat := ⟨_, rfl⟩
      have hq : q ≤ 2 ^ 63 := by
        rw [hqd, Nat.div_le_iff_le_mul_add_pred (by omega)]
        rw [Nat.mul_comm] ; omega
      have hr' : r2 < e.countDenominator.toNat := by rw [hrd]; exact Nat.mod_lt _ (by omega)
      have hdm : e.countDenominator.toNat * q + r2 = e.countNumerator.toNat + e.remainder.toNat := by
        rw [hqd, hrd]; exact Nat.div_add_mod _ _
      have hage : age (EventSlot.fired e).target c + q = age e.target c := by
        have : (EventSlot.fired e).target = e.target + BitVec.ofNat 64 q := by simp [EventSlot.fired, hp, hqd]
        rw [this] at ha2 ⊢
        clear hqd hrd this hdm
        unfold age at *
        simp only [BitVec.toNat_sub, BitVec.toNat_add, BitVec.toNat_ofNat] at *
        have a1 := e.target.isLt
        have a2 := c.isLt
        omega
      have hrem : (EventSlot.fired e).remainder.toNat = r2 := by
        simp only [EventSlot.fired, hp, if_true, BitVec.toNat_ofNat]
        rw [← hrd]
        exact Nat.mod_eq_of_lt (by omega)
      have hden : (EventSlot.fired e).countDenominator.toNat = e.countDenominator.toNat := by simp [EventSlot.fired, hp]
      rw [hrem, hden, ← hage, Nat.add_mul]
      have : q * e.countDenominator.toNat = e.countDenominator.toNat * q := Nat.mul_comm _ _
      omega
    · unfold EventSlot.leftToFire at *; rw [if_neg hd2]; exact hpos
  · have : EventSlot.isDue (EventSlot.fired e) c = false := by simp [EventSlot.fired, hp, EventSlot.isDue]
    unfold EventSlot.leftToFire at *; rw [this]; simpa using hpos

/-- No slot has more than 2^127 to fire. -/
theorem EventSlot.leftToFire_le (c : Cycles) (e : EventSlot) : EventSlot.leftToFire c e ≤ 2 ^ 127 := by
  unfold EventSlot.leftToFire
  split
  · rename_i h
    have := (EventSlot.isDue_iff.1 h).2
    have hlt := e.countDenominator.isLt
    have : age e.target c * e.countDenominator.toNat ≤ (2 ^ 63 - 1) * e.countDenominator.toNat := Nat.mul_le_mul_right _ (by omega)
    omega
  · simp

/-- The table's total is within the fuel (log entry 5). -/
theorem leftToFire_sum_le (c : Cycles) (ev : List EventSlot) : (ev.map (EventSlot.leftToFire c)).sum ≤ 2 ^ 127 * ev.length := by
  induction ev with
  | nil => simp
  | cons e es ih => have := EventSlot.leftToFire_le c e; simp only [List.map_cons, List.sum_cons, List.length_cons]; omega

/-- Firing one slot lowers the total. -/
theorem leftToFire_sum_set (c : Cycles) (ev : List EventSlot) (id : Nat) (e e' : EventSlot) (h : ev[id]? = some e) (hm : EventSlot.leftToFire c e' < EventSlot.leftToFire c e) :
    ((ev.set id e').map (EventSlot.leftToFire c)).sum < (ev.map (EventSlot.leftToFire c)).sum := by
  induction ev generalizing id with
  | nil => simp at h
  | cons f es ih =>
    cases id with
    | zero => simp at h; subst h; simp; exact hm
    | succ id => simp at h; simp only [List.set_cons_succ, List.map_cons, List.sum_cons]; have := ih id h; omega

/-- With quiet handlers a firing changes its slot alone. -/
theorem fireEvent_quiet {s : State} (hq : s.QuietHandlers) (id : Nat) (e : EventSlot) : fireEvent id e s = .next (s.setSlot id (EventSlot.fired e)) := by
  simp only [fireEvent, invokeHandler, State.handlerOps, State.setSlot_cfg]
  cases h : s.cfg.handlers[id]? with
  | none => rfl
  | some hd => cases hq hd (List.mem_of_getElem? h); rfl

/-- The table is valid when every slot is, at its index. -/
theorem slotsValid_iff (i : Nat) (es : List EventSlot) : slotsValid i es = true ↔ ∀ j e, es[j]? = some e → EventSlot.valid (i + j) e = true := by
  induction es generalizing i with
  | nil => simp [slotsValid]
  | cons f es ih =>
    simp only [slotsValid, Bool.and_eq_true, ih]
    constructor
    · rintro ⟨h1, h2⟩ j e hj
      cases j with
      | zero => simp at hj; subst hj; exact h1
      | succ j => have := h2 j e (by simpa using hj); rwa [show i + (j+1) = i + 1 + j by omega]
    · intro h
      refine ⟨h 0 f (by simp), fun j e hj => ?_⟩
      have := h (j+1) e (by simpa using hj); rwa [show i + 1 + j = i + (j+1) by omega]

/-! ## Handlers -/

/-- An event without an entry performs nothing. -/
theorem State.handlerOps_of_none {s : State} {id : Nat} (h : s.cfg.handlers[id]? = none) (target : Cycles) :
    s.handlerOps id target = [] := by simp [State.handlerOps, h]

/-- A handler's operations are its tree's answer to the state and the fired target. -/
theorem State.handlerOps_of_some {s : State} {id : Nat} {h : HandlerAction} (hh : s.cfg.handlers[id]? = some h)
    (target : Cycles) : s.handlerOps id target = HandlerAction.ops h s id target := by simp [State.handlerOps, hh]

/-- What a handler chooses is a function of the image and the bus memory (R154, R156). -/
theorem HandlerAction.ops_congr (h : HandlerAction) {s s' : State} (hi : s'.toImage = s.toImage) (hm : s'.mem = s.mem)
    (id : Nat) (target : Cycles) : HandlerAction.ops h s' id target = HandlerAction.ops h s id target := by
  have hs : s'.sched = s.sched := congrArg Image.sched hi
  have hr : s'.intr = s.intr := congrArg Image.intr hi
  have hd : s'.dma = s.dma := congrArg Image.dma hi
  induction h with
  | done => rfl
  | perform op next ih => simp only [HandlerAction.ops, ih]
  | choose test yes no ih₁ ih₂ =>
    have ht : HandlerTest.holds test target s' = HandlerTest.holds test target s := by
      cases test <;> simp only [HandlerTest.holds, State.slot, hs, hr, hd]
    simp only [HandlerAction.ops, ht, ih₁, ih₂]
  | other code => simp only [HandlerAction.ops, hi, hm]

/-- Operations in a row: where the first part ends without a contract violation, the second part follows. -/
theorem performAll_append (a b : List Instr) {s u : State} (h : performAll a s = .next u) (hf : u.fault = none) :
    performAll (a ++ b) s = performAll b u := by
  induction a generalizing s with
  | nil => cases h; rfl
  | cons i is ih =>
    simp only [performAll, List.cons_append] at h ⊢
    obtain ⟨v, hv, h⟩ := andThen_eq_next.1 h
    rw [hv, andThen_next]
    split at h
    · rename_i hh
      cases h
      simp [hf] at hh
    · rename_i hh
      rw [if_neg hh]
      exact ih h

end Sys2Proof.Machine
end

