-- ==== Sys2Proof/Laws/Machine.lean ====
section
/-! SUPPORT. What an operation and a step can do, said once, for rules of the whole machine. -/

namespace Sys2Proof.Machine

/-- An operation that may be performed inside another one is performed the same way there. -/
theorem exec_eq_nested (i : Instr) (s : State) (h : boundaryOnly i = false) : exec i s = performNested i s := by
  cases i <;> first | rfl | cases h

/-- The operations R86 keeps out of handlers are contract violations there. -/
theorem performNested_of_boundaryOnly {i : Instr} (h : boundaryOnly i = true) (s : State) :
    performNested i s = .next (s.markFault .reentrant) := by
  cases i <;> first | rfl | cases h

/-- What an operation can do: a chain of effects, a reset, or a load. -/
theorem exec_cases {i : Instr} {s t : State} (h : exec i s = .next t) :
   Effects (.counter :: fireKinds) s t ∨ (∃ k, i = .reset k ∧ t = resetBlock k s) ∨ (∃ img, i = .loadState img ∧ ((s.accepts img = true ∧ t = (s.restore img).setResult .ok) ∨ t = s.setResult .rejected)) := by
  have lift : ∀ i, performNested i s = .next t → Effects (.counter :: fireKinds) s t := fun i h =>
    (performNested_effects h).mono fun k hk => List.mem_cons_of_mem _ (Instr.kinds_nested i k hk)
  cases i
  case reset k => right; left; cases h; exact ⟨k, rfl, rfl⟩
  case loadState img =>
    right; right; simp only [exec, execLoadState] at h
    split at h <;> cases h
    · exact ⟨_, rfl, .inl ⟨by assumption, rfl⟩⟩
    · exact ⟨_, rfl, .inr rfl⟩
  case advanceTo c => left; exact advanceTo_effects h
  all_goals (left; rw [exec_eq_nested _ _ rfl] at h; exact lift _ h)

/-- Every elementary effect keeps the invariants. -/
theorem effect_inv {k : Kind} {s t : State} (e : Effect k s t) (h : s.Inv) : t.Inv := by
  obtain ⟨h1, h2, h3, h4⟩ := h
  cases e with
  | slot _ id e he =>
    refine ⟨?_, h2, h3, h4⟩
    rw [slotsValid_iff] at h1 ⊢
    intro j f hj
    simp only [State.setSlot_sched] at hj
    rw [List.getElem?_set] at hj
    split at hj
    · rename_i hij; subst hij
      split at hj
      · cases hj; rename_i hl
        have := h1 id _ (List.getElem?_eq_getElem hl)
        simpa using he _ (List.getElem?_eq_getElem hl) (by simpa using this)
      · cases hj
    · exact h1 j f hj
  | store _ m h => exact ⟨h1, h2, h3, h h4⟩
  | dsp _ d h => exact ⟨h1, h2, h h3, h4⟩
  | channel _ ch c h =>
    refine ⟨h1, fun ch' => ?_, h3, h4⟩
    by_cases hc : ch' = ch
    · subst hc; rw [State.setChannel_self]; exact h (h2 _)
    · rw [State.setChannel_of_ne _ _ hc]; exact h2 _
  | raise _ i l => rw [raise_eq]; exact ⟨h1, h2, h3, h4⟩
  | acknowledge _ i => rw [acknowledge_eq]; exact ⟨h1, h2, h3, h4⟩
  | trace _ e => rw [State.trace_eq]; exact ⟨h1, h2, h3, h4⟩
  | _ => exact ⟨h1, h2, h3, h4⟩

/-- The state after a DSP step that changed only the DSP. -/
theorem finishDsp_eq {d s t} (h : finishDsp d s = .next t) : t = s.setDsp (Dsp.advancePC d false) := by cases h; rfl

/-- The effects of a DSP DMA. -/
theorem dspDma_effects {a b c d e} {s t : State} (h : exec (.dspDMA a b c d e) s = .next t) : Effects [.free, .dsp, .channel, .mask, .store, .trace] s t := by
  obtain ⟨u, hu, h⟩ := andThen_eq_next.1 h
  cases finishDsp_eq h
  exact ((Effects.step .trace (by simp) (.dspUpdate (by simp) _ _ fun hs => Dsp.valid_loadDma _ _ _ _ _ hs) (.trace _ _)).trans
      (((dspDmaMove_effects hu).mono (by simp)))).trans (.dspUpdate (by simp) _ _ (Dsp.valid_advancePC _))

/-- The effects of ENDI. -/
theorem dspEndi_effects {s t : State} (h : exec .dspENDI s = .next t) : Effects [.raise, .dsp] s t := by
  cases finishDsp_eq h
  exact .step .dsp (by simp) (.one (.raise _ _ _) (by simp)) (.dsp _ _ (fun hs => Dsp.valid_advancePC _ (Dsp.valid_congr (d := s.dsp) rfl rfl (by simpa [raise] using hs))))

/-- The kinds of effects of each operation but Reset and LoadState, tight for the DSP variants. -/
def Instr.stepKinds : Instr → List Kind
  | .dspOperation .. | .dspMVI .. | .dspJMP .. | .dspLPS | .dspBTM | .dspEND | .dspInvalid => [.dsp]
  | .dspDMA .. => [.free, .dsp, .channel, .mask, .store, .trace]
  | .dspENDI => [.raise, .dsp]
  | .advanceTo .. => .counter :: fireKinds
  | i => Instr.kinds i

/-- The variants that touch the DSP alone. -/
theorem dspPlain_effects {i : Instr} {s t : State} (h : exec i s = .next t) (hi : match i with | .dspOperation .. | .dspMVI .. | .dspJMP .. | .dspLPS | .dspBTM | .dspEND | .dspInvalid => True | _ => False) : Effects [.dsp] s t := by
  cases i <;> try exact hi.elim
  case dspOperation => cases finishDsp_eq h; exact .dspUpdate (by simp) _ _ (fun hs => Dsp.valid_advancePC _ (Dsp.valid_operate hs))
  case dspMVI => cases finishDsp_eq h; exact .dspUpdate (by simp) _ _ (fun hs => Dsp.valid_advancePC _ (by split; exact Dsp.valid_writes _ hs; exact hs))
  case dspJMP => cases finishDsp_eq h; exact .dspUpdate (by simp) _ _ (fun hs => Dsp.valid_advancePC _ (by split; exact Dsp.valid_congr (d := s.dsp) rfl rfl hs; exact hs))
  case dspLPS => cases finishDsp_eq h; exact .dspUpdate (by simp) _ _ (fun hs => Dsp.valid_advancePC _ (Dsp.valid_writes _ hs))
  case dspBTM =>
    simp only [exec, execDspBTM] at h; split at h
    · cases h; exact .dspUpdate (by simp) _ _ (fun hs => Dsp.valid_advancePC _ hs)
    · cases h; exact .dspUpdate (by simp) _ _ (fun hs => Dsp.valid_advancePC _ (Dsp.valid_congr (d := s.dsp) rfl rfl hs))
  case dspEND => cases finishDsp_eq h; exact .dspUpdate (by simp) _ _ (fun hs => Dsp.valid_advancePC _ (Dsp.valid_congr (d := s.dsp) rfl rfl hs))
  case dspInvalid => cases finishDsp_eq h; exact .dspUpdate (by simp) _ _ (fun hs => Dsp.valid_advancePC _ hs)

/-- Every operation but Reset and LoadState answers by a chain of its listed effects. -/
theorem exec_effects {i : Instr} {s t : State} (h : exec i s = .next t) (h1 : ∀ k, i ≠ .reset k) (h2 : ∀ k, i ≠ .loadState k) : Effects (Instr.stepKinds i) s t := by
  cases i
  case reset => exact absurd rfl (h1 _)
  case loadState => exact absurd rfl (h2 _)
  case advanceTo => exact advanceTo_effects h
  case dspDMA => exact dspDma_effects h
  case dspENDI => exact dspEndi_effects h
  case dspOperation => exact dspPlain_effects h trivial
  case dspMVI => exact dspPlain_effects h trivial
  case dspJMP => exact dspPlain_effects h trivial
  case dspLPS => exact dspPlain_effects h trivial
  case dspBTM => exact dspPlain_effects h trivial
  case dspEND => exact dspPlain_effects h trivial
  case dspInvalid => exact dspPlain_effects h trivial
  all_goals (rw [exec_eq_nested _ _ rfl] at h; exact performNested_effects h)

/-- What a step does with an operation at the head of the queue. -/
theorem step_of_operation {s : State} {agent : Agent} {i : Instr} {q : List Issue} (hf : s.fault = none)
    (h : fetch s.issue = .operation agent i q) :
    step s = match admission s.inSystemStep agent i with
      | .perform => exec i (s.setIssue q)
      | .violate r => raiseViolation r (s.setIssue q)
      | .refuse r => .refused r := by
  unfold step
  rw [hf, h] <;> rfl

/-- What a step can do. -/
theorem step_cases {s t : State} (h : step s = .next t) :
    (∃ b q, t = (s.setInSystemStep b).setIssue q) ∨ t = s ∨ (∃ q r, t = (s.setIssue q).markFault r) ∨
      (∃ a bytes q, busStore a bytes (s.setIssue q) = .next t) ∨ (∃ a n q, busLoad a n (s.setIssue q) = .next t) ∨
      ∃ i q, exec i (s.setIssue q) = .next t := by
  unfold step at h
  split at h
  · cases h
  · split at h
    · cases h; exact .inr (.inl rfl)
    · cases h; exact .inl ⟨_, _, rfl⟩
    · cases h; exact .inl ⟨_, _, rfl⟩
    · exact .inr (.inr (.inr (.inl ⟨_, _, _, h⟩)))
    · exact .inr (.inr (.inr (.inr (.inl ⟨_, _, _, h⟩))))
    · cases h
    · split at h
      · exact .inr (.inr (.inr (.inr (.inr ⟨_, _, h⟩))))
      · cases h; exact .inr (.inr (.inl ⟨_, _, rfl⟩))
      · cases h

/-- Every channel of an image is valid. -/
theorem DmaChannel.all_valid_iff (v : Vector DmaChannel 3) : v.toList.all DmaChannel.valid = true ↔ ∀ ch : Channel, DmaChannel.valid v[ch] = true := by
  simp only [List.all_eq_true, Vector.mem_toList_iff]
  refine ⟨fun h ch => h _ (Vector.getElem_mem _), fun h x hx => ?_⟩
  obtain ⟨i, hi, rfl⟩ := Vector.mem_iff_getElem.1 hx
  exact h ⟨i, hi⟩

/-- What `Valid(image)` asks (R154). -/
theorem Image.valid_iff (n : Nat) (i : Image) : Image.valid n i = true ↔ i.sched.ev.length = n ∧ slotsValid 0 i.sched.ev = true ∧ (∀ ch : Channel, DmaChannel.valid i.dma[ch] = true) ∧ Dsp.valid i.dsp = true := by
  simp only [Image.valid, Bool.and_eq_true, decide_eq_true_eq, DmaChannel.all_valid_iff]; tauto

/-! ## The DSP on a bus without register window -/

theorem touchesWindow_of_zero {p : Params} (h : p.scuWindowBytes = 0) (a : Word) (n : Nat) :
    Params.touchesWindow p a n = false := by simp [Params.touchesWindow, h]

/-- A word of a DSP DMA moves, and the bus stays without register window. -/
theorem dspDmaUnit_answers {s : State} (h : s.cfg.scuWindowBytes = 0) :
    ∃ t, dspDmaUnit s = .next t ∧ t.cfg.scuWindowBytes = 0 := by
  unfold dspDmaUnit
  split
  · obtain ⟨m, hm, -, -⟩ := writeBusBytes_spec s.dsp.dmaWriteAddr (wordBytes (Dsp.dmaWord s.dsp)) s
    rw [memWrite_offWindow (touchesWindow_of_zero h _ _), hm]
    exact ⟨_, rfl, h⟩
  · rw [memReadWord_offWindow (touchesWindow_of_zero h _ _), readBusBytes_state]
    exact ⟨_, rfl, h⟩

theorem dspDmaUnits_answers (n : Nat) {s : State} (h : s.cfg.scuWindowBytes = 0) : ∃ t, dspDmaUnits n s = .next t := by
  induction n generalizing s with
  | zero => exact ⟨s, rfl⟩
  | succ n ih =>
    obtain ⟨t, ht, hc⟩ := dspDmaUnit_answers h
    obtain ⟨u, hu⟩ := ih hc
    exact ⟨u, by rw [dspDmaUnits, ht, andThen_next, hu]⟩

theorem dspDmaMove_answers (n : Nat) {s : State} (h : s.cfg.scuWindowBytes = 0) : ∃ t, dspDmaMove n s = .next t := by
  obtain ⟨t, ht⟩ := dspDmaUnits_answers (min n s.dsp.dmaCount.toNat) h
  exact ⟨_, by rw [dspDmaMove, ht, andThen_next]⟩

/-- Every decoded DSP instruction answers. -/
theorem executeDsp_answers (i : DspInstr) {s : State} (h : s.cfg.scuWindowBytes = 0) : ∃ t, executeDsp i s = .next t := by
  cases i with
  | dma toD0 hold count ram inc =>
    obtain ⟨t, ht⟩ := dspDmaMove_answers (Config.dspDmaWordsAtOnce (Dsp.loadDma s.dsp toD0 hold count ram inc))
      (s := (s.setDsp (Dsp.loadDma s.dsp toD0 hold count ram inc)).trace
        (.dspDMA toD0 hold (Dsp.loadDma s.dsp toD0 hold count ram inc).dmaCount)) (by rw [State.trace_eq]; exact h)
    exact ⟨_, by simp only [executeDsp, execDspDMA, ht, andThen_next, finishDsp]; rfl⟩
  | btm =>
    simp only [executeDsp, execDspBTM]
    split
    · exact ⟨_, rfl⟩
    · exact ⟨_, rfl⟩
  | _ => exact ⟨_, rfl⟩

end Sys2Proof.Machine
end

