-- ==== Sys2Proof/Laws/PerInstr.lean ====
section
/-! SUPPORT. One fact for every constructor of Instr: a record starts with the header byte R59 gives the operation and has
the length the header fixes (R57, R75). -/

namespace Sys2Proof.Laws.RecordForm

open Sys2Proof

/-- The header byte of an operation's record and its length in bytes (R59, R75); none for what is issued in text form. -/
def header : Instr → Option (Byte × Nat)
  | .schedule .. => some (0x00, 11)
  | .setEventPeriod .. => some (0x01, 18)
  | .cancel .. => some (0x02, 2)
  | .advanceTo .. => some (0x03, 9)
  | .raiseInterrupt .. => some (0x10, 3)
  | .acknowledgeInterrupt .. => some (0x11, 2)
  | .acknowledgeVector .. => some (0x12, 2)
  | .getInterruptMask => some (0x13, 1)
  | .setInterruptMask .. => some (0x14, 5)
  | .getInterruptStatus => some (0x15, 1)
  | .writeInterruptStatus .. => some (0x16, 5)
  | .getPendingInterruptLevel => some (0x17, 1)
  | .getPendingInterruptVector => some (0x18, 1)
  | .configure .. => some (0x20, 24)
  | .setAddressUpdate .. => some (0x21, 4)
  | .setEnabled .. => some (0x22, 3)
  | .trigger .. => some (0x23, 3)
  | .tick .. => some (0x24, 2)
  | .signal .. => some (0x30, 2)
  | .scuTick => some (0x31, 1)
  | .reset .. => some (0x33, 2)
  | .regRead .. => some (0x34, 5)
  | .regWrite .. => some (0x35, 9)
  | .saveState => some (0x36, 1)
  | .loadState .. => none
  | .postAudioInterrupt .. => some (0x38, 3)
  | .drainAudioQueue => some (0x39, 1)
  | .dspStep => some (0x40, 1)
  | .triggerVBlankIN => some (0x30, 2)
  | .triggerVBlankOUT => some (0x30, 2)
  | .triggerHBlankIN => some (0x30, 2)
  | .cbTriggerExternalInterruptN .. => some (0x30, 2)
  | .softwareStart .. => some (0x23, 3)
  | .getPendingInterrupt => none
  | .dspOperation .. => none
  | .dspMVI .. => none
  | .dspDMA .. => none
  | .dspJMP .. => none
  | .dspLPS => none
  | .dspBTM => none
  | .dspEND => none
  | .dspENDI => none
  | .dspInvalid => none

/-- The operation's record starts with its header byte and has its length; what has no header has no record. -/
def Statement (i : Instr) : Prop := (encode i).map (fun bs => (bs.head?, bs.length)) = (header i).map fun h => (some h.1, h.2)

theorem schedule (id : Nat) (delayCycles : Cycles) (periodic : Bool) : Statement (.schedule id delayCycles periodic) := rfl

theorem setEventPeriod (id : Nat) (num den : Cycles) : Statement (.setEventPeriod id num den) := rfl

theorem cancel (id : Nat) : Statement (.cancel id) := rfl

theorem advanceTo (cycle : Cycles) : Statement (.advanceTo cycle) := rfl

theorem raiseInterrupt (source : Nat) (level : Level) : Statement (.raiseInterrupt source level) := rfl

theorem acknowledgeInterrupt (source : Nat) : Statement (.acknowledgeInterrupt source) := rfl

theorem acknowledgeVector (vector : Byte) : Statement (.acknowledgeVector vector) := rfl

theorem getInterruptMask : Statement .getInterruptMask := rfl

theorem setInterruptMask (value : Word) : Statement (.setInterruptMask value) := rfl

theorem getInterruptStatus : Statement .getInterruptStatus := rfl

theorem writeInterruptStatus (value : Word) : Statement (.writeInterruptStatus value) := rfl

theorem getPendingInterruptLevel : Statement .getPendingInterruptLevel := rfl

theorem getPendingInterruptVector : Statement .getPendingInterruptVector := rfl

theorem configure (ch : Nat) (src dst count srcInc dstInc : Word) (indirect : Bool) (trigger : TriggerSource) : Statement (.configure ch src dst count srcInc dstInc indirect trigger) := rfl

theorem setAddressUpdate (ch : Nat) (updateSrc updateDst : Bool) : Statement (.setAddressUpdate ch updateSrc updateDst) := rfl

theorem setEnabled (ch : Nat) (enabled : Bool) : Statement (.setEnabled ch enabled) := rfl

theorem trigger (ch : Nat) (triggerSource : TriggerSource) : Statement (.trigger ch triggerSource) := rfl

theorem tick (ch : Nat) : Statement (.tick ch) := rfl

theorem signal (sig : Signal) : Statement (.signal sig) := rfl

theorem scuTick : Statement .scuTick := rfl

theorem reset (kind : ResetKind) : Statement (.reset kind) := rfl

theorem regRead (offset : Word) : Statement (.regRead offset) := rfl

theorem regWrite (offset value : Word) : Statement (.regWrite offset value) := rfl

theorem saveState : Statement .saveState := rfl

theorem loadState (image : Image) : Statement (.loadState image) := rfl

theorem postAudioInterrupt (source : Nat) (level : Level) : Statement (.postAudioInterrupt source level) := rfl

theorem drainAudioQueue : Statement .drainAudioQueue := rfl

theorem dspStep : Statement .dspStep := rfl

theorem triggerVBlankIN : Statement .triggerVBlankIN := rfl

theorem triggerVBlankOUT : Statement .triggerVBlankOUT := rfl

theorem triggerHBlankIN : Statement .triggerHBlankIN := rfl

theorem cbTriggerExternalInterruptN (n : Fin 16) : Statement (.cbTriggerExternalInterruptN n) := rfl

theorem softwareStart (ch : Nat) : Statement (.softwareStart ch) := rfl

theorem getPendingInterrupt : Statement .getPendingInterrupt := rfl

theorem dspOperation (alu : DspAluOp) (xbus ybus d1bus : DspSlot) : Statement (.dspOperation alu xbus ybus d1bus) := rfl

theorem dspMVI (dest : DspDest) (imm : Word) (width : Nat) (cond : DspCond) : Statement (.dspMVI dest imm width cond) := rfl

theorem dspDMA (toD0 : Bool) (hold : Bool) (count : DspDmaCount) (ram : DspRam) (addrInc : Word) : Statement (.dspDMA toD0 hold count ram addrInc) := rfl

theorem dspJMP (cond : DspCond) (target : BitVec 8) : Statement (.dspJMP cond target) := rfl

theorem dspLPS : Statement .dspLPS := rfl

theorem dspBTM : Statement .dspBTM := rfl

theorem dspEND : Statement .dspEND := rfl

theorem dspENDI : Statement .dspENDI := rfl

theorem dspInvalid : Statement .dspInvalid := rfl

end Sys2Proof.Laws.RecordForm
end

