-- ==== Sys2Proof/Tests/Slice0.lean ====
section
/-! SUPPORT. Tests by kernel evaluation. Expected values are the spec's: records written out by R59 and R75, the vectors
V<n> and programs P<n> of 95_test_vectors.md, the examples of the rules. After them, for every statement with hypotheses, a
concrete state and operands that meet them. -/

namespace Sys2Proof.Tests

open Sys2Proof Sys2Proof.Machine Sys2Proof.Claims

/-! ## Helpers -/

/-- A look at the state an operation answers with. -/
def see {α : Type} (r : Run) (f : State → α) : Option α :=
  match r with
  | .next s => some (f s)
  | .fault _ => none
  | .refused _ => none

/-- Reset with channel `ch` replaced. -/
def withChannel (ch : Channel) (c : DmaChannel) : State := State.reset.setChannel ch c

/-- Reset with bytes in memory. -/
def withMem (m : List Host.Cell) : State := State.reset.setMem m

/-- Reset with the DSP replaced. -/
def withDsp (d : Dsp) : State := State.reset.setDsp d

/-- Reset with slot `id` replaced. -/
def withSlot (id : Nat) (e : EventSlot) : State := State.reset.setSlot id e

/-- Reset with one entry in the queue. -/
def withIssue (q : List Issue) : State := State.reset.setIssue q

/-- Reset with handlers and event slots. -/
def withHandlers (hs : List HandlerAction) (ev : List EventSlot) : State :=
  { State.reset with cfg := { Params.default with handlers := hs }, sched := { currCycle := 0, ev := ev } }

/-- The handler that raises source `i` at level 1. -/
def raising (i : Nat) : HandlerAction := .perform (.raiseInterrupt i 1) .done

/-- Channel 0 of V9, configured and enabled. -/
def v9 : DmaChannel :=
  { DmaChannel.reset with
    srcAddr := 0x1000, dstAddr := 0x2000, xferCount := 16, srcAddrInc := 2, dstAddrInc := 2, updateSrcAddr := true,
    updateDstAddr := true, enabled := true }

/-- A channel with `n` units left of V9's transfer. -/
def running (n : Word) : DmaChannel := { started v9 with currXferCount := n }

/-- V10's memory: two descriptors and their data. -/
def v10mem : List Host.Cell :=
  [(0x3003, 0x02), (0x3006, 0x50), (0x300A, 0x40)] ++ [(0x300F, 0x03), (0x3012, 0x51), (0x3014, 0x80), (0x3016, 0x41)] ++
    [(0x4000, 0xA0), (0x4001, 0xA1)] ++ [(0x4100, 0xB0), (0x4101, 0xB1), (0x4102, 0xB2)]

/-- V10's channel. -/
def v10 : DmaChannel :=
  { DmaChannel.reset with
    dstAddr := 0x3000, srcAddrInc := 1, dstAddrInc := 1, updateSrcAddr := true, updateDstAddr := true, enabled := true,
    indirect := true }

/-- V10's channel in the middle of its first descriptor, one unit left. -/
def v10running : DmaChannel :=
  { started v10 with
    currSrcAddr := 0x4001, currDstAddr := 0x5001, currXferCount := 1, currIndirectSrc := 0x300C }

/-- A one-shot slot armed for `t`. -/
def oneShot (id : Nat) (t : Cycles) : EventSlot := { EventSlot.reset id with target := t, live := true }

/-- A periodic slot of period 3/2 armed for `t`. -/
def threeHalves (id : Nat) (t : Cycles) : EventSlot :=
  { EventSlot.reset id with target := t, live := true, periodic := true, countNumerator := 3, countDenominator := 2 }

/-! ## Records (R59, R75): each operation from the bytes of its row -/

theorem test_decode_schedule : decode [0x00, 0x02, 0, 0, 0, 0, 0, 0, 0, 0x1C, 0x00] = .ok (.schedule 2 28 false, []) := by decide

theorem test_decode_setEventPeriod : decode [0x01, 0x00, 0, 0, 0, 0, 0, 0, 0, 7, 0, 0, 0, 0, 0, 0, 0, 3] = .ok (.setEventPeriod 0 7 3, []) := by decide

theorem test_decode_cancel : decode [0x02, 0x09] = .ok (.cancel 9, []) := by decide

theorem test_decode_advanceTo : decode [0x03, 0x01, 0x23, 0x45, 0x67, 0x89, 0xAB, 0xCD, 0xEF] = .ok (.advanceTo 0x0123456789ABCDEF, []) := by decide

theorem test_decode_raiseInterrupt : decode [0x10, 0x02, 0x0D] = .ok (.raiseInterrupt 2 13, []) := by decide

theorem test_decode_acknowledgeInterrupt : decode [0x11, 0x0B] = .ok (.acknowledgeInterrupt 11, []) := by decide

theorem test_decode_acknowledgeVector : decode [0x12, 0x4A] = .ok (.acknowledgeVector 0x4A, []) := by decide

theorem test_decode_getInterruptMask : decode [0x13] = .ok (.getInterruptMask, []) := by decide

theorem test_decode_setInterruptMask : decode [0x14, 0x12, 0x34, 0x56, 0x78] = .ok (.setInterruptMask 0x12345678, []) := by decide

theorem test_decode_getInterruptStatus : decode [0x15] = .ok (.getInterruptStatus, []) := by decide

theorem test_decode_writeInterruptStatus : decode [0x16, 0x00, 0x00, 0x02, 0x00] = .ok (.writeInterruptStatus 0x200, []) := by decide

theorem test_decode_getPendingInterruptLevel : decode [0x17] = .ok (.getPendingInterruptLevel, []) := by decide

theorem test_decode_getPendingInterruptVector : decode [0x18] = .ok (.getPendingInterruptVector, []) := by decide

theorem test_decode_configure : decode [0x20, 1, 0, 0, 1, 0, 0, 0, 2, 0, 0, 0, 0, 2, 0, 0, 0, 1, 0, 0, 0, 3, 1, 0x1F] = .ok (.configure 1 0x100 0x200 2 1 3 true (.onSignal (.external 15)), []) := by decide

theorem test_decode_setAddressUpdate : decode [0x21, 0x01, 0x01, 0x00] = .ok (.setAddressUpdate 1 true false, []) := by decide

theorem test_decode_setEnabled : decode [0x22, 0x02, 0x01] = .ok (.setEnabled 2 true, []) := by decide

theorem test_decode_trigger : decode [0x23, 0x00, 0xFF] = .ok (.trigger 0 .software, []) := by decide

theorem test_decode_tick : decode [0x24, 0x02] = .ok (.tick 2, []) := by decide

theorem test_decode_signal : decode [0x30, 0x08] = .ok (.signal .aBus, []) := by decide

theorem test_decode_scuTick : decode [0x31] = .ok (.scuTick, []) := by decide

theorem test_decode_reset : decode [0x33, 0x01] = .ok (.reset .soft, []) := by decide

theorem test_decode_regRead : decode [0x34, 0x00, 0x00, 0x00, 0xA4] = .ok (.regRead 0xA4, []) := by decide

theorem test_decode_regWrite : decode [0x35, 0x00, 0x00, 0x00, 0x0C, 0x00, 0x00, 0x01, 0x02] = .ok (.regWrite 0x0C 0x102, []) := by decide

theorem test_decode_saveState : decode [0x36] = .ok (.saveState, []) := by decide

theorem test_decode_postAudioInterrupt : decode [0x38, 0x06, 0x09] = .ok (.postAudioInterrupt 6 9, []) := by decide

theorem test_decode_drainAudioQueue : decode [0x39] = .ok (.drainAudioQueue, []) := by decide

theorem test_decode_dspStep : decode [0x40] = .ok (.dspStep, []) := by decide

/-- LoadState's header: its operand has no byte form (R75). -/
theorem test_decode_loadState : decode [0x37] = .error .imageHasNoByteForm := by decide

/-- The pseudo-operations' records are their expansions' (R72). -/
theorem test_encode_pseudo :
    encode .triggerVBlankIN = some [0x30, 0] ∧ encode .triggerVBlankOUT = some [0x30, 1] ∧
    encode .triggerHBlankIN = some [0x30, 2] ∧ encode (.cbTriggerExternalInterruptN 15) = some [0x30, 31] ∧
    encode (.softwareStart 2) = some [0x23, 2, 0xFF] := by decide

/-- A record that ends early, a bool of 2, a level of 16 (R57, R58). -/
theorem test_decode_rejects :
    decode [0x10, 2] = .error .truncated ∧ decode [0x22, 0, 2] = .error (.badBool 2) ∧
    decode [0x10, 2, 16] = .error (.badLevel 16) ∧ decode [0x32] = .error (.unknownOp 0x32) := by decide

/-- A second record stays after the first. -/
theorem test_decode_leaves_rest : decode [0x31, 0x24, 0x00] = .ok (.scuTick, [0x24, 0x00]) := by decide

/-- The host's word: RaiseInterrupt's header with operand bytes of zeros. -/
theorem test_tableWord : decodeTableWord 8 0x10 = some (.raiseInterrupt 0 0) ∧ decodeTableWord 8 0x37 = none := by decide

/-! ## WellFormed: one ill-formed term for each check -/

theorem test_illFormed_event : (Instr.schedule 256 0 false).wf = false ∧ (Instr.setEventPeriod 256 1 1).wf = false ∧
    (Instr.cancel 256).wf = false := by decide

theorem test_illFormed_source : (Instr.raiseInterrupt 256 0).wf = false ∧ (Instr.acknowledgeInterrupt 256).wf = false ∧
    (Instr.postAudioInterrupt 256 0).wf = false := by decide

theorem test_illFormed_channel : (Instr.configure 256 0 0 0 0 0 false .software).wf = false ∧
    (Instr.setAddressUpdate 256 true true).wf = false ∧ (Instr.setEnabled 256 true).wf = false ∧
    (Instr.trigger 256 .software).wf = false ∧ (Instr.tick 256).wf = false ∧ (Instr.softwareStart 256).wf = false := by decide

theorem test_illFormed_trigger : (Instr.trigger 0 .spriteDrawEnd).wf = false ∧
    (Instr.configure 0 0 0 0 0 0 false .spriteDrawEnd).wf = false := by decide

theorem test_illFormed_immediate : (Instr.dspMVI .rx 0 33 .none).wf = false := by decide

/-! ## Scheduler -/

/-- R78's example. -/
theorem test_schedule : see (exec (.schedule 2 28 false) (State.reset.setCurrCycle 100)) (fun s => s.sched.ev[2]?) =
    some (some (oneShot 2 128)) := by decide

/-- V8(h). -/
theorem test_schedule_violations :
    see (exec (.schedule 4 1 false) State.reset) (fun s => (s.fault, s.sched)) =
      some (some .unknownEventId, State.reset.sched) ∧
    see (exec (.schedule 0 1 true) State.reset) (·.fault) = some (some .badPeriod) := by decide

/-- R80. -/
theorem test_setEventPeriod : see (exec (.setEventPeriod 0 3 2) (withSlot 0 { oneShot 0 9 with remainder := 0 }))
    (fun s => s.sched.ev[0]?) = some (some { oneShot 0 9 with countNumerator := 3, countDenominator := 2 }) := by decide

/-- V8(h). -/
theorem test_setEventPeriod_violation : see (exec (.setEventPeriod 0 1 0) State.reset) (·.fault) = some (some .badPeriod) ∧
    see (exec (.setEventPeriod 0 0 1) State.reset) (·.fault) = some (some .badPeriod) := by decide

/-- R81, V8(g), V8(h). -/
theorem test_cancel : see (exec (.cancel 0) (withSlot 0 (threeHalves 0 4))) (fun s => s.sched.ev[0]?) =
      some (some { threeHalves 0 4 with live := false }) ∧
    exec (.cancel 0) State.reset = .next State.reset ∧
    see (exec (.cancel 9) State.reset) (·.fault) = some (some .unknownEventId) := ⟨by decide, rfl, by decide⟩

/-- V1: due events fire in order (targets 5, 10, 10), the one armed for 20 stays. Handlers 1, 2, 3 raise sources 1, 2, 3. -/
theorem test_advanceTo_order :
    see (exec (.advanceTo 15) (withHandlers [.done, raising 1, raising 2, raising 3]
        [oneShot 0 20, oneShot 1 10, oneShot 2 5, oneShot 3 10]))
      (fun s => (s.sched.currCycle, s.sched.ev.map EventSlot.live, s.traceLog)) =
    some (15, [true, false, false, false], [.raiseInterrupt 2 1, .raiseInterrupt 1 1, .raiseInterrupt 3 1]) := by decide

/-- V4 cut to AdvanceTo(9) with d = 2: targets 2, 3, 5, 6, 8, 9; then 11, remainder 0. V2: a backward call. -/
theorem test_advanceTo_periodic :
    see (exec (.advanceTo 9) (withSlot 0 (threeHalves 0 2))) (fun s => s.sched.ev[0]?) = some (some (threeHalves 0 11)) ∧
    see (exec (.advanceTo 19) (State.reset.setCurrCycle 20)) (fun s => (s.fault, s.sched.currCycle)) =
      some (some .timeBackwards, 20) := by decide

/-- V3: the handler arms event 1 at 7 and cancels event 2, which never fires. -/
theorem test_handler_changes_table :
    see (exec (.advanceTo 7) (withHandlers
        [.perform (.schedule 1 0 false) (.perform (.cancel 2) (raising 0)), raising 1, raising 2]
        [oneShot 0 5, EventSlot.reset 1, oneShot 2 5, EventSlot.reset 3]))
      (fun s => (s.sched.ev.map EventSlot.live, s.traceLog)) =
    some ([false, false, false, false], [.raiseInterrupt 0 1, .raiseInterrupt 1 1]) := by decide

/-- V8(c): a handler that looks at its fired target re-arms relative to the final cycle, once. -/
theorem test_handler_rearms :
    see (exec (.advanceTo 20) (withHandlers
        [.done, .choose (.firedBefore 3) (.perform (.schedule 1 3 false) (raising 1)) (raising 2)] [EventSlot.reset 0, oneShot 1 1]))
      (fun s => (s.sched.ev[1]?, s.traceLog)) = some (some (oneShot 1 23), [.raiseInterrupt 1 1]) := by decide

/-- V8(d): a periodic event cancels itself at target 8. -/
theorem test_handler_cancels_itself :
    see (exec (.advanceTo 20) (withHandlers [.choose (.firedBefore 8) (raising 0) (.perform (.cancel 0) (raising 1))]
        [{ oneShot 0 0 with periodic := true, countNumerator := 4 }]))
      (fun s => (s.sched.ev.map fun e => (e.live, e.target), s.traceLog)) =
    some ([(false, 12)], [.raiseInterrupt 0 1, .raiseInterrupt 0 1, .raiseInterrupt 1 1]) := by decide

/-- V7: the 64-bit counter wraps; target 2 is not due at 1. -/
theorem test_advanceTo_wrap :
    see (exec (.advanceTo 1) { State.reset with
      sched := { currCycle := 0 - 4, ev := [oneShot 0 (0 - 2), oneShot 1 2] } }) (fun s => s.sched.ev.map EventSlot.live) =
    some [false, true] := by decide

/-! ## Interrupt controller -/

/-- V16. -/
theorem test_raise : see (exec (.raiseInterrupt 2 13) State.reset)
    (fun s => (s.intr.status, s.intr.level[2], s.pendingLevel, s.pendingVector)) = some (4, 13, 13, 0x42) := by decide

/-- V20(d), V33: the mark keeps its first reason. -/
theorem test_raise_violation : see (exec (.raiseInterrupt 32 1) State.reset) (fun s => (s.fault, s.intr)) =
      some (some .badSourceIndex, Intr.reset) ∧
    see (exec (.raiseInterrupt 40 1) { State.reset with fault := some .badChannel }) (·.fault) =
      some (some .badChannel) := by decide

/-- R99's example: sources 2 and 11 raised. -/
theorem test_acknowledge : see (exec (.acknowledgeInterrupt 2) (raise 11 5 (raise 2 13 State.reset)))
    (fun s => (s.intr.status, s.pendingLevel, s.pendingVector)) = some (0x800, 5, 0x4B) := by decide

/-- V18. -/
theorem test_acknowledgeVector :
    see (exec (.acknowledgeVector 0x4A) (raise 10 6 (raise 0 15 State.reset))) (·.intr.status) = some 1 ∧
    exec (.acknowledgeVector 0x20) (raise 10 6 State.reset) = .next (raise 10 6 State.reset) := ⟨by decide, rfl⟩

/-- V16, V17: the mask hides, the tie goes to the lowest index. -/
theorem test_pending :
    (setMask 4 (raise 2 13 State.reset)).pendingLevel = 0 ∧
    see (exec .getPendingInterrupt (raise 11 5 (raise 10 6 (raise 9 6 State.reset)))) (·.result) = some (.pair 6 0x49) ∧
    see (exec .getPendingInterruptVector (setMask 0x200 (raise 11 5 (raise 10 6 (raise 9 6 State.reset))))) (·.result) =
      some (.vector 0x4A) := by decide

/-- V20(a): a level 0 source is selected and reported. -/
theorem test_pending_level_zero : see (exec .getPendingInterruptVector (raise 31 0 State.reset)) (·.result) =
      some (.vector 0x5F) ∧
    see (exec .getPendingInterruptLevel (raise 31 0 State.reset)) (·.result) = some (.level 0) := by decide

/-- V19. -/
theorem test_status_write : exec (.writeInterruptStatus 0xFFFFFFFF) (raise 9 6 State.reset) = .next (raise 9 6 State.reset) ∧
    see (exec .getInterruptStatus (raise 11 5 (raise 9 6 State.reset))) (·.result) = some (.word 0xA00) := ⟨rfl, by decide⟩

/-- R101, R102. -/
theorem test_mask : see (exec (.setInterruptMask 0xFF00) State.reset) (·.intr.mask) = some 0xFF00 ∧
    see (exec .getInterruptMask (setMask 0xFF00 State.reset)) (·.result) = some (.word 0xFF00) := by decide

/-! ## DMA engine -/

/-- R118's example. -/
theorem test_configure : see (exec (.configure 0 0x1000 0x2000 16 2 2 false .software) (withChannel 0 (running 5)))
    (fun s => s.dma[0]) = some (running 5) ∧
    see (exec (.configure 3 0 0 0 0 0 false .software) State.reset) (·.fault) = some (some .badChannel) := by decide

/-- R119's example. -/
theorem test_setAddressUpdate : see (exec (.setAddressUpdate 1 true false) State.reset) (fun s => s.dma[1]) =
    some { DmaChannel.reset with updateSrcAddr := true } := by decide

/-- R120's example: Active with 5 left. -/
theorem test_setEnabled : see (exec (.setEnabled 0 false) (withChannel 0 (running 5))) (fun s => (s.dma[0], s.intr.status)) =
    some ({ running 5 with enabled := false, active := false }, 0) := by decide

/-- R122's example; V13: a trigger that does not match, or finds the channel Active, does nothing. -/
theorem test_trigger : see (exec (.trigger 0 .software) (withChannel 0 v9)) (fun s => s.dma[0]) = some (started v9) ∧
    exec (.trigger 0 (.onSignal .hBlankIN)) (withChannel 0 v9) = .next (withChannel 0 v9) ∧
    exec (.softwareStart 0) (withChannel 0 (running 3)) = .next (withChannel 0 (running 3)) := ⟨by decide, rfl, rfl⟩

/-- V10: the start of an indirect transfer. -/
theorem test_trigger_indirect : see (exec (.trigger 0 .software) ((withMem v10mem).setChannel 0 v10)) (fun s => s.dma[0]) =
    some { started v10 with
      currSrcAddr := 0x4000, currDstAddr := 0x5000, currXferCount := 2, currIndirectSrc := 0x300C } := by decide

/-- V9: ticks 1 and 16. -/
theorem test_tick :
    see (exec (.tick 0) ((withMem [(0x1000, 1)]).setChannel 0 (running 16))) (fun s =>
      (Memory.read s.mem 0x2000, s.dma[0], s.intr.status)) =
      some (1, { running 15 with currSrcAddr := 0x1002, currDstAddr := 0x2002 }, 0) ∧
    see (exec (.tick 0) (withChannel 0 (running 1))) (fun s =>
      (s.dma[0].currXferCount, s.dma[0].active, s.intr.status, s.traceLog)) =
      some (0, false, 0x800, [.raiseInterrupt 11 5]) := by decide

/-- V10, tick 2: the unit, then the fetch of the marked descriptor. -/
theorem test_tick_chain : see (exec (.tick 0) ((withMem v10mem).setChannel 0 v10running)) (fun s =>
      (Memory.read s.mem 0x5001, s.dma[0], s.intr.status)) =
    some (0xA1, { v10running with
      currSrcAddr := 0x4100, currDstAddr := 0x5100, currXferCount := 3, endIndirect := true, currIndirectSrc := 0x3018 },
      0) := by decide

/-! ## Signals, SCU tick, audio queue, reset, save states, registers -/

/-- P2: VBLANK-IN starts channel 1 and raises source 0 at level 15. -/
theorem test_signal : see (exec (.signal .vBlankIN) (withChannel 1 { v9 with trigger := .onSignal .vBlankIN })) (fun s =>
      (s.dma[1].active, s.dma[1].currXferCount, s.dma[0].active, s.intr.status, s.intr.level[0])) =
    some (true, 16, false, 1, 15) := by decide

/-- R72, with the defaults of G1: HBLANK-IN is (2, 13), VBLANK-OUT (1, 14), External(0) (16, 7). -/
theorem test_pseudo_signals : see (exec .triggerHBlankIN State.reset) (·.traceLog) = some [.raiseInterrupt 2 13] ∧
    see (exec .triggerVBlankIN State.reset) (·.traceLog) = some [.raiseInterrupt 0 15] ∧
    see (exec .triggerVBlankOUT State.reset) (·.traceLog) = some [.raiseInterrupt 1 14] ∧
    see (exec (.cbTriggerExternalInterruptN 0) State.reset) (·.traceLog) = some [.raiseInterrupt 16 7] := by decide

/-- V22: channels 0 and 2 write 0x7000, channel 2 last. -/
theorem test_scuTick :
    see (exec .scuTick (((withMem [(0x100, 0x11), (0x200, 0x22)]).setChannel 0
        { running 1 with currSrcAddr := 0x100, currDstAddr := 0x7000 }).setChannel 2
        { running 1 with currSrcAddr := 0x200, currDstAddr := 0x7000 }))
      (fun s => (Memory.read s.mem 0x7000, s.intr.status, s.traceLog)) =
    some (0x22, 0xA00, [.raiseInterrupt 11 5, .raiseInterrupt 9 6]) := by decide

/-- V23. -/
theorem test_audio :
    see (exec (.postAudioInterrupt 6 9) State.reset) (fun s => (s.audioQueue, s.intr.status)) = some ([⟨6, 9⟩], 0) ∧
    see (exec .drainAudioQueue (State.reset.setAudioQueue [⟨6, 9⟩, ⟨6, 9⟩, ⟨7, 8⟩])) (fun s =>
      (s.intr.status, s.audioQueue, s.pendingLevel, s.pendingVector, s.traceLog.length)) =
      some (0xC0, [], 9, 0x46, 3) := by decide

/-- P4: a soft reset abandons the transfer, keeps memory and the trace. -/
theorem test_reset : see (exec (.reset .soft) ((raise 3 12 (withMem [(0x2000, 1)])).setChannel 0 (running 15))) (fun s =>
      (s.intr, s.dma[0], s.traceLog, Memory.read s.mem 0x2000)) =
    some (Intr.reset, DmaChannel.reset, [.raiseInterrupt 3 12], 1) := by decide

/-- V25: a round trip, and three images that are rejected. -/
theorem test_saveState : see (exec .saveState (raise 3 12 State.reset)) (·.result) =
    some (.image (raise 3 12 State.reset).toImage) := rfl

theorem test_loadState :
    see (exec (.loadState (raise 3 12 State.reset).toImage) State.reset) (fun s => (s.result, s.intr.status)) =
      some (.ok, 8) ∧
    exec (.loadState { State.reset.toImage with dsp := { Dsp.reset with PC := 256 } }) State.reset =
      .next (State.reset.setResult .rejected) ∧
    see (exec (.loadState (withChannel 1 { DmaChannel.reset with active := true }).toImage) State.reset) (·.result) =
      some .rejected ∧
    see (exec (.loadState (withSlot 0 { EventSlot.reset 0 with remainder := 2, countDenominator := 2 }).toImage) State.reset)
      (·.result) = some .rejected := ⟨by decide, rfl, by decide, by decide⟩

/-- P3, V26: the mask and the configured source address. -/
theorem test_regRead : see (exec (.regRead 0xA0) (setMask 4 State.reset)) (·.result) = some (.word 4) ∧
    see (exec (.regRead 0x00) (withChannel 0 { running 2 with srcAddr := 0x06000000 })) (·.result) =
      some (.word 0x06000000) ∧
    exec (.regRead 0xA2) State.reset = .refused .misalignedRegisterAccess := ⟨by decide, by decide, rfl⟩

/-- P3: address add, mode, and an enable that starts the channel. -/
theorem test_regWrite :
    see (exec (.regWrite 0x0C 0x102) State.reset) (fun s => (s.dma[0].srcAddrInc, s.dma[0].dstAddrInc)) = some (4, 4) ∧
    see (exec (.regWrite 0x14 0x10107) State.reset) (fun s =>
      (s.dma[0].indirect, s.dma[0].trigger, s.dma[0].updateSrcAddr, s.dma[0].updateDstAddr)) =
      some (false, .software, true, true) ∧
    see (exec (.regWrite 0x10 0x101) (withChannel 0 { v9 with enabled := false })) (fun s =>
      (s.dma[0].active, s.dma[0].currXferCount)) = some (true, 16) := by decide

/-- R55: a DMA unit of 4 bytes into the window is a register write; U8: it must not disable its own channel. -/
theorem test_window :
    see (memWrite (.channel 0) 0x25FE00A0 [0, 0, 0, 4] State.reset) (·.intr.mask) = some 4 ∧
    memWrite (.channel 0) 0x25FE0010 [0, 0, 0, 0] State.reset = .refused .selfDisturbingAccess ∧
    memRead (.channel 0) 0x25FE00A0 2 State.reset = .refused .misalignedRegisterAccess := ⟨by decide, rfl, rfl⟩

/-! ## DSP -/

/-- V27: JMP at 10 to 40, the delay slot at 11, then 40. -/
theorem test_jmp : see (andThen (exec (.dspJMP .none 40) (withDsp { Dsp.reset with PC := 10 })) fun s =>
      exec .dspInvalid s) (fun s => (s.dsp.PC, s.dsp.jmpCounter)) = some (40, 0) ∧
    see (exec (.dspJMP .none 40) (withDsp { Dsp.reset with PC := 10 })) (fun s =>
      (s.dsp.nextPC, s.dsp.jmpCounter, s.dsp.PC)) = some (40, 1, 11) := by decide

/-- V28: the wrap from 255. -/
theorem test_invalid : see (exec .dspInvalid (withDsp { Dsp.reset with PC := 255 })) (·.dsp) = some Dsp.reset := rfl

/-- V29. -/
theorem test_endi : see (exec .dspENDI (withDsp { Dsp.reset with programExecuting := true })) (fun s =>
      (s.dsp.programEnded, s.dsp.programExecuting, s.intr.status, s.intr.level[5], s.traceLog)) =
    some (true, false, 0x20, 10, [.raiseInterrupt 5 10]) := by decide

theorem test_end : see (exec .dspEND (withDsp { Dsp.reset with programExecuting := true })) (fun s =>
      (s.dsp.programEnded, s.dsp.programExecuting, s.intr.status)) = some (true, false, 0) := by decide

/-- V30. -/
theorem test_btm : see (exec .dspBTM (withDsp { Dsp.reset with PC := 20, LOP := 2, TOP := 7 })) (fun s =>
      (s.dsp.LOP, s.dsp.PC)) = some (1, 7) ∧
    see (exec .dspBTM (withDsp { Dsp.reset with PC := 20, TOP := 7 })) (fun s => (s.dsp.LOP, s.dsp.PC)) =
      some (0, 21) := by decide

/-- V31. -/
theorem test_gate : exec .dspStep State.reset = .next State.reset ∧
    exec .dspStep (withDsp { Dsp.reset with programExecuting := true, programPaused := true }) =
      .next (withDsp { Dsp.reset with programExecuting := true, programPaused := true }) := ⟨rfl, rfl⟩

/-- R166: the immediate -1 of 8 bits. -/
theorem test_mvi : see (exec (.dspMVI .rx 0xFF 8 .none) State.reset) (·.dsp.RX) = some 0xFFFFFFFF ∧
    see (exec (.dspMVI .rx 0xFF 8 .z) State.reset) (·.dsp.RX) = some 0 := by decide

/-- V32: the X-bus slot advances the cursor it reads, the D1 slot still moves the old word; in every order of the buses. -/
theorem test_parallel_slots : ∀ k : Fin 6,
    let S := Dsp.write Dsp.reset (.ram 0 0 0x1234)
    let d := Dsp.writes S (inOrder k (dspSlotWrites .x (.move (.ram 0 true) .rx) S) []
      (dspSlotWrites .d1 (.move (.ram 0 false) (.ram 1 false)) S))
    d.RX = 0x1234 ∧ Dsp.ramAt d 1 0 = 0x1234 ∧ d.CT[0] = 1 := by decide

/-- R165: the three slots of an exchange read the registers as they were, in every order of the buses. -/
theorem test_parallel_exchange : ∀ k : Fin 6,
    let S := { Dsp.reset with RX := 5, RY := 7 }
    let d := Dsp.writes S (inOrder k (dspSlotWrites .x (.move .ry .rx) S) (dspSlotWrites .y (.move .rx .ry) S)
      (dspSlotWrites .d1 (.move .rx (.ram 1 false)) S))
    d.RX = 7 ∧ d.RY = 5 ∧ Dsp.ramAt d 1 0 = 5 := by decide

/-- R175: -3 * 5. -/
theorem test_multiply : (dspProduct { Dsp.reset with RX := 0 - 3, RY := 5 }).toInt = -15 := by decide

/-! ## The step -/

/-- R59: from reset with Tick(3)'s record issued, the step performs it: BadChannel (V33); a second step then stops. -/
theorem test_step : see (step (withIssue [.call .systemDriver (.record [0x24, 0x03])])) (·.fault) =
      some (some .badChannel) ∧
    step { State.reset with fault := some .badChannel } = .fault (.contractViolation .badChannel) := ⟨by decide, rfl⟩

/-- R152: the driver's Reset between steps runs, inside a step it is Reentrant; a peripheral's always is (R143). -/
theorem test_reset_boundary :
    see (step (withIssue [.call .systemDriver (.record [0x33, 0x00])])) (·.fault) = some none ∧
    see (step ((withIssue [.call .systemDriver (.record [0x33, 0x00])]).setInSystemStep true)) (·.fault) =
      some (some .reentrant) ∧
    see (step (withIssue [.call .peripheral (.text (.reset .soft))])) (·.fault) = some (some .reentrant) ∧
    see (step ((withIssue [.systemStepEnd]).setInSystemStep true)) (fun s => (s.inSystemStep, s.issue)) =
      some (false, []) := by decide

/-- R41: another bus master's store is what a later MemRead returns. -/
theorem test_busStore : see (step (withIssue [.busStore 0xFFFFFFFF [0x12, 0x34]])) (fun s => (s.mem, s.issue)) =
    some ([(0, 0x34), (0xFFFFFFFF, 0x12)], []) := by decide

/-- R66: its word in the window is RegWrite (IMS) or RegRead (IMS); another width there is refused (U7). -/
theorem test_busAccess_window :
    see (step (withIssue [.busStore 0x25FE00A0 [0xFF, 0xFE, 0, 1]])) (fun s => (s.intr.mask, s.mem)) =
      some (0xFFFE0001, []) ∧
    see (step ((withIssue [.busLoad 0x25FE00A0 4]).setIntr { Intr.reset with mask := 7 })) (·.result) = some (.word 7) ∧
    step (withIssue [.busStore 0x25FE00A0 [0xFF, 0xFE]]) = .refused .misalignedRegisterAccess ∧
    see (step (withIssue [.busLoad 0x06000000 4])) (fun s => (s.result, s.issue)) = some (.nothing, []) := by
  refine ⟨by decide, by decide, rfl, by decide⟩

/-- The host's word runs as the next step. -/
theorem test_withFetchWord : see (step (State.reset.withFetchWord 8 0x33)) (fun s => (s.issue, s.intr)) =
    some ([], Intr.reset) := by decide

/-! ## Witnesses: a concrete state and operands that meet the hypotheses of each statement -/

theorem witness_DecodeOfEncodeIsTheOperation :
    (Instr.cancel 255).wf = true ∧ encode (.cancel 255) = some [2, 255] ∧ (Instr.softwareStart 0).wf = true ∧
    encode (.softwareStart 0) = some [0x23, 0, 0xFF] := by decide

theorem witness_EncodeOfDecodeIsTheRecord :
    decode [0x10, 31, 15, 0x31] = .ok (.raiseInterrupt 31 15, [0x31]) ∧ decode [0x02, 255] = .ok (.cancel 255, []) := by
  decide

theorem witness_UnlistedNumbersAreRefused :
    (0x04 : Byte) ∉ ([0x00, 0x01, 0x02, 0x03, 0x10, 0x11, 0x12, 0x13, 0x14, 0x15, 0x16, 0x17, 0x18, 0x20, 0x21, 0x22,
      0x23, 0x24, 0x30, 0x31, 0x33, 0x34, 0x35, 0x36, 0x37, 0x38, 0x39, 0x40] : List Byte) ∧
    (∀ n ∈ ([9, 15, 32, 255] : List Byte), 8 < n.toNat ∧ (n.toNat < 16 ∨ 31 < n.toNat)) ∧
    (∀ n ∈ ([9, 15, 32, 254] : List Byte), 8 < n.toNat ∧ (n.toNat < 16 ∨ 31 < n.toNat) ∧ n ≠ 0xFF) ∧
    ∀ n ∈ ([2, 255] : List Byte), 1 < n.toNat := by decide

/-- Each agent in one form or the other; the driver's Reset between steps, its scuTick inside one. -/
theorem witness_StepPerformsTheDecodedOperation :
    State.reset.fault = none ∧
    (Admitted State.reset .masterSH2 .scuTick ∧
      Calls (withIssue [.call .masterSH2 (.record [0x31, 0x36])]) .masterSH2 .scuTick [.call .masterSH2 (.record [0x36])]) ∧
    (Admitted State.reset .peripheral .scuTick ∧ Calls (withIssue [.call .peripheral (.record [0x31])]) .peripheral .scuTick []) ∧
    (Admitted State.reset .slaveSH2 .scuTick ∧ Calls (withIssue [.call .slaveSH2 (.text .scuTick)]) .slaveSH2 .scuTick []) ∧
    Admitted State.reset .systemDriver (.reset .hard) ∧
    Admitted (State.reset.setInSystemStep true) .systemDriver .scuTick ∧
    Admitted State.reset .audioThread (.postAudioInterrupt 3 4) := by
  refine ⟨rfl, ⟨?_, .inr ⟨[0x31, 0x36], [0x36], [], by decide, rfl, rfl⟩⟩, ⟨?_, .inr ⟨[0x31], [], [], by decide, rfl, rfl⟩⟩,
    ⟨?_, .inl rfl⟩, ?_, ?_, ⟨_, _, rfl⟩⟩ <;> simp [Admitted, Boundary, BetweenSteps, State.reset]

theorem witness_StepOnEveryOtherHead :
    ({ State.reset with fault := some .badChannel }).fault = some .badChannel ∧ State.reset.issue = [] ∧
    (withIssue [.call .slaveSH2 (.record [0x32])]).issue = .call .slaveSH2 (.record [0x32]) :: [] ∧
    decode [0x32] = .error (.unknownOp 0x32) ∧
    (withIssue [.systemStep ⟨[], 5, true, []⟩]).issue = .systemStep ⟨[], 5, true, []⟩ :: [] ∧
    (withIssue [.systemStepEnd]).issue = .systemStepEnd :: [] ∧
    (withIssue [.busStore 0xFFFFFFFF [1, 2]]).issue = .busStore 0xFFFFFFFF [1, 2] :: [] ∧
    State.reset.OffWindow 0xFFFFFFFF 2 ∧ Plain State.reset 0xFFFFFFFF 2 ∧ Memory.wf State.reset.mem = true ∧
    State.reset.fault = none ∧
    (withIssue [.busStore 0x25FE00CC (wordBytes 5)]).issue = .busStore 0x25FE00CC (wordBytes 5) :: [] ∧
    ¬ State.reset.OffWindow 0x25FE00CC 4 ∧ State.reset.OffWindow 0x25FE00D0 4 ∧ ¬ State.reset.OffWindow 0x25FDFFFD 4 ∧
    ¬ State.reset.OffWindow 0x25FE00CF 2 ∧ ([0, 0] : List Byte).length ≠ 4 ∧
    (withIssue [.busLoad 0x25FE00CC 4]).issue = .busLoad 0x25FE00CC 4 :: [] := by
  unfold Plain State.OffWindow; decide

/-- A handler that raises, performs a Reset, and would raise again; its event is due at the cycle advanced to. -/
def resettingHandler : State :=
  withHandlers [.done, .perform (.raiseInterrupt 0 1) (.perform (.reset .hard) (raising 2))] [EventSlot.reset 0, oneShot 1 3]

theorem witness_BoundaryOperationsAreReentrantInside :
    Boundary (.reset .hard) ∧ BetweenSteps (.reset .hard) ∧
    Calls (withIssue [.call .masterSH2 (.text (.reset .hard))]) .masterSH2 (.reset .hard) [] ∧
    Calls (withIssue [.call .peripheral (.record [0x33, 0])]) .peripheral (.reset .hard) [] ∧
    (State.reset.setInSystemStep true).inSystemStep = true ∧
    resettingHandler.fault = none ∧ age resettingHandler.sched.currCycle 3 < 2 ^ 63 ∧
    nextDue 3 0 resettingHandler.sched.ev = some (1, oneShot 1 3) ∧
    (firing resettingHandler 3 1 (oneShot 1 3)).handlerOps 1 3 =
      [.raiseInterrupt 0 1] ++ .reset .hard :: [.raiseInterrupt 2 1] ∧
    (see (performAll [.raiseInterrupt 0 1] (firing resettingHandler 3 1 (oneShot 1 3))) (·.fault)) = some none :=
  ⟨.inr (.inl ⟨_, rfl⟩), .inl ⟨_, rfl⟩, .inl rfl, .inr ⟨[0x33, 0], [], [], by decide, rfl, rfl⟩, rfl, rfl, by decide, by decide,
    by decide, by decide⟩

theorem witness_AudioThreadOnlyPosts :
    Calls (withIssue [.call .audioThread (.text .scuTick)]) .audioThread .scuTick [] ∧
    Calls (withIssue [.call .audioThread (.record [0x31])]) .audioThread .scuTick [] ∧
    Calls (withIssue [.call .audioThread (.record [0x38, 31, 0])]) .audioThread (.postAudioInterrupt 31 0) [] ∧
    (∀ source level, Instr.scuTick ≠ .postAudioInterrupt source level) :=
  ⟨.inl rfl, .inr ⟨[0x31], [], [], by decide, rfl, rfl⟩, .inr ⟨[0x38, 31, 0], [], [], by decide, rfl, rfl⟩, by simp⟩

theorem reset_inv : State.reset.Inv := ⟨by decide, by decide, by decide, by decide⟩

/-- A step that moves a byte and completes a transfer, from a state with the invariants. -/
theorem witness_StepKeepsTheInvariants :
    ((withMem [(0x1000, 1)]).setChannel 0 { running 1 with currSrcAddr := 0x1000 }).Inv ∧
    (see (step (((withMem [(0x1000, 1)]).setChannel 0 { running 1 with currSrcAddr := 0x1000 }).setIssue
      [.call .systemDriver (.text (.tick 0))])) (·.mem)) = some [(0x1000, 1), (0x2000, 1)] :=
  ⟨⟨by decide, by decide, by decide, by decide⟩, by decide⟩

theorem witness_ParametersNeverChange : step State.reset = .next State.reset := rfl

theorem witness_FaultMarkIsNeverClearedOrReplaced :
    exec (.cancel 9) { State.reset with fault := some .badChannel } =
      .next { State.reset with fault := some .badChannel } ∧
    ({ State.reset with fault := some .badChannel }).fault = some .badChannel := ⟨rfl, rfl⟩

theorem witness_StatusBitsChangeOnlyByRaiseAndAcknowledge :
    exec (.setInterruptMask 5) (raise 2 13 State.reset) = .next (setMask 5 (raise 2 13 State.reset)) ∧
    (raise 2 13 State.reset).intr.status.getLsbD 2 = true := ⟨rfl, by decide⟩

theorem witness_SchedulerStateHasOneOwner : exec .scuTick State.reset = .next State.reset := rfl

theorem witness_OnlyBusOperationsReachMemory :
    exec (.raiseInterrupt 0 1) State.reset = .next (raise 0 1 State.reset) ∧
    (see (exec (.advanceTo 9) (withSlot 0 (threeHalves 0 2))) (·.fault)) = some none ∧
    (withSlot 0 (threeHalves 0 2)).QuietHandlers := ⟨rfl, by decide, by unfold State.QuietHandlers; decide⟩

theorem witness_ScheduleArmsTheSlot :
    ¬ Known State.reset 4 ∧ ¬ Known { State.reset with cfg := { Params.default with registered := [true, false] } } 1 ∧
    Known State.reset 0 ∧ Known State.reset 3 ∧ State.reset.sched.ev[3]? = some (EventSlot.reset 3) ∧
    (true = true ∧ ((EventSlot.reset 3).countNumerator = 0 ∨ (EventSlot.reset 3).countDenominator = 0)) ∧
    ¬ (true = true ∧ ((threeHalves 3 0).countNumerator = 0 ∨ (threeHalves 3 0).countDenominator = 0)) ∧
    (withSlot 3 (threeHalves 3 0)).sched.ev[3]? = some (threeHalves 3 0) := by unfold Known; decide

theorem witness_SetEventPeriodWritesThePeriod :
    ¬ Known State.reset 4 ∧ Known State.reset 3 ∧ State.reset.sched.ev[3]? = some (EventSlot.reset 3) ∧
    ((0 : Cycles) = 0 ∨ (1 : Cycles) = 0) ∧ ((1 : Cycles) = 0 ∨ (0 : Cycles) = 0) ∧
    ¬ ((1 : Cycles) = 0 ∨ (1 : Cycles) = 0) := by unfold Known; decide

theorem witness_CancelClearsTheSlot :
    ¬ Known State.reset 4 ∧ Known State.reset 3 ∧ (withSlot 3 (oneShot 3 9)).sched.ev[3]? = some (oneShot 3 9) := by
  unfold Known; decide

/-- The boundary: 2^63 cycles back, 2^63 - 1 ahead, a live event one cycle later. -/
theorem witness_AdvanceToIsMonotonic :
    2 ^ 63 ≤ ((BitVec.ofNat 64 (2 ^ 63) : Cycles) - State.reset.sched.currCycle).toNat ∧
    ((BitVec.ofNat 64 (2 ^ 63 - 1) : Cycles) - State.reset.sched.currCycle).toNat < 2 ^ 63 ∧
    ((10 : Cycles) - (withSlot 0 (oneShot 0 11)).sched.currCycle).toNat < 2 ^ 63 ∧
    ∀ e ∈ (withSlot 0 (oneShot 0 11)).sched.ev, e.live = true → 2 ^ 63 ≤ ((10 : Cycles) - e.target).toNat := by decide

theorem witness_EarliestTargetThenLeastIdFiresFirst :
    nextDue 15 0 [oneShot 0 20, oneShot 1 10, oneShot 2 5, oneShot 3 10] = some (2, oneShot 2 5) ∧
    nextDue 15 0 [oneShot 0 20, oneShot 1 10, oneShot 2 16, oneShot 3 10] = some (1, oneShot 1 10) ∧
    nextDue 4 0 [oneShot 0 20, oneShot 1 10] = none := by decide

theorem witness_AdvanceToFiresOneEventAndGoesOn :
    (withSlot 0 (oneShot 0 5)).fault = none ∧ age (withSlot 0 (oneShot 0 5)).sched.currCycle 5 < 2 ^ 63 ∧
    nextDue 5 0 (withSlot 0 (oneShot 0 5)).sched.ev = some (0, oneShot 0 5) ∧
    (see (performAll ((firing (withSlot 0 (oneShot 0 5)) 5 0 (oneShot 0 5)).handlerOps 0 5)
      (firing (withSlot 0 (oneShot 0 5)) 5 0 (oneShot 0 5))) (·.fault)) = some none ∧
    (see (exec (.advanceTo 5) (withSlot 0 (oneShot 0 5))) (·.fault)) = some none ∧
    nextDue 3 0 resettingHandler.sched.ev = some (1, oneShot 1 3) ∧
    (see (performAll ((firing resettingHandler 3 1 (oneShot 1 3)).handlerOps 1 3) (firing resettingHandler 3 1 (oneShot 1 3)))
      (·.fault)) = some (some .reentrant) := by decide

theorem witness_AdvanceToFiresEveryDueTargetOnce :
    (withSlot 0 (threeHalves 0 2)).Inv ∧ (withSlot 0 (threeHalves 0 2)).fault = none ∧
    (withSlot 0 (threeHalves 0 2)).QuietHandlers ∧ age (withSlot 0 (threeHalves 0 2)).sched.currCycle 9 < 2 ^ 63 ∧
    (∀ e ∈ (withSlot 0 (threeHalves 0 2)).sched.ev, e.live = true → e.periodic = true →
      e.countNumerator.toNat < 2 ^ 63 * e.countDenominator.toNat) ∧
    (withSlot 0 (threeHalves 0 2)).sched.ev[0]? = some (threeHalves 0 2) ∧
    EventSlot.isDue (threeHalves 0 2) 9 = true :=
  ⟨⟨by decide, by decide, by decide, by decide⟩, by decide, by unfold State.QuietHandlers; decide, by decide, by decide,
    by decide, by decide⟩

theorem witness_PeriodicTargetsAreDriftFree :
    1 ≤ (threeHalves 0 2).countDenominator.toNat ∧ (threeHalves 0 2).periodic = true ∧ (threeHalves 0 2).remainder = 0 ∧
    1 ≤ (oneShot 0 2).countDenominator.toNat ∧ (oneShot 0 2).periodic = false := by decide

theorem witness_RaiseInterruptSetsStatusAndLevel : (31 : Nat) < 32 ∧ sourceOf 32 = none := by decide

theorem witness_AcknowledgeInterruptClearsStatus : (31 : Nat) < 255 ∧ sourceOf 255 = none := by decide

theorem witness_AudioQueueIsDrainedInOrder : (31 : Nat) < 99 ∧ sourceOf 99 = none := by decide

theorem witness_AcknowledgeVectorAcknowledgesItsSource :
    (∀ i j : SourceIndex, State.reset.cfg.vectorOf[i] = State.reset.cfg.vectorOf[j] → i = j) ∧
    State.reset.cfg.vectorOf[(31 : SourceIndex)] = 0x5F ∧ ∀ i : SourceIndex, State.reset.cfg.vectorOf[i] ≠ 0x20 := by decide

/-- V17: sources 9 and 10 tie at level 6, source 11 is at 5. -/
theorem witness_PendingPairIsTheHighestVisibleSource :
    (∀ i, ¬ Visible State.reset i) ∧ Visible (raise 11 5 (raise 10 6 (raise 9 6 State.reset))) 9 ∧
    ∀ j : SourceIndex, Visible (raise 11 5 (raise 10 6 (raise 9 6 State.reset))) j →
      (raise 11 5 (raise 10 6 (raise 9 6 State.reset))).intr.level[j].toNat <
          (raise 11 5 (raise 10 6 (raise 9 6 State.reset))).intr.level[(9 : SourceIndex)].toNat ∨
        ((raise 11 5 (raise 10 6 (raise 9 6 State.reset))).intr.level[j] =
          (raise 11 5 (raise 10 6 (raise 9 6 State.reset))).intr.level[(9 : SourceIndex)] ∧ 9 ≤ j) := by
  unfold Visible; decide

theorem witness_MaskingHidesAndReexposes :
    (0x4 : Word).getLsbD (2 : SourceIndex) = true ∧ (0xFFFFFFFB : Word).getLsbD (2 : SourceIndex) = false ∧
    ∀ j : SourceIndex, j ≠ 2 → ¬ Visible (setMask 0xFFFFFFFB (setMask 4 (raise 2 13 State.reset))) j := by
  unfold Visible; decide

theorem witness_InterruptOperationsLeaveTheRestAlone :
    (Instr.getInterruptMask : Instr) ∈ ([.raiseInterrupt (0 : SourceIndex) 1, .acknowledgeInterrupt (0 : SourceIndex),
      .acknowledgeVector 0, .getInterruptMask, .setInterruptMask 0, .getInterruptStatus, .writeInterruptStatus 0,
      .getPendingInterruptLevel, .getPendingInterruptVector, .getPendingInterrupt] : List Instr) := by simp

theorem witness_ConfigureWritesConfiguredFieldsOnly : (2 : Nat) < 3 ∧ channelOf 3 = none := by decide

theorem witness_SetAddressUpdateWritesTheHoldFlags : (2 : Nat) < 7 ∧ channelOf 7 = none := by decide

theorem witness_SetEnabledEndsOnlyByDisable :
    (2 : Nat) < 255 ∧ channelOf 255 = none ∧ (1 : Channel) ≠ 0 := by decide

/-- Disabled; Active; enabled, Idle, with another trigger. -/
theorem witness_TriggerIsIgnoredUnlessIdleAndMatching :
    State.reset.dma[(0 : Channel)].enabled = false ∧ (withChannel 0 (running 3)).dma[(0 : Channel)].active = true ∧
    (withChannel 0 { v9 with trigger := .onSignal .vBlankIN }).dma[(0 : Channel)].trigger ≠ .software := by decide

theorem witness_TriggerStartsADirectTransfer :
    Startable (withChannel 2 v9).dma[(2 : Channel)] .software ∧ (withChannel 2 v9).dma[(2 : Channel)].indirect = false := by
  unfold Startable; decide

/-- V10; and a descriptor in the register window, whose words are register reads. -/
theorem witness_TriggerStartsAnIndirectTransfer :
    Startable (withChannel 0 v10).dma[(0 : Channel)] .software ∧ (withChannel 0 v10).dma[(0 : Channel)].indirect = true ∧
    (∀ k : Fin 3, (withChannel 0 v10).OffWindow (0x3000 + BitVec.ofNat 32 (4 * k.val)) 4) ∧
    (∀ j < 12, Params.isDevice (withChannel 0 v10).cfg (busAddr 0x3000 j) = false) ∧
    ((0x25FE0000 : Word) - State.reset.cfg.scuBase).toNat % 4 = 0 := by
  unfold Startable State.OffWindow; decide

theorem witness_TickOfAnInactiveChannelDoesNothing : State.reset.dma[(1 : Channel)].active = false := by decide

theorem witness_TickMovesABatchOfUnits :
    (withChannel 0 (running 2)).dma[(0 : Channel)].active = true ∧
    (withChannel 0 (running 2)).cfg.dmaBatch < (withChannel 0 (running 2)).dma[(0 : Channel)].currXferCount.toNat ∧
    UnitsOffWindow (withChannel 0 (running 2)) 0 (withChannel 0 (running 2)).cfg.dmaBatch ∧
    Plain (withChannel 0 (running 2)) 0x1000 1 ∧ Memory.wf (withChannel 0 (running 2)).mem = true := by
  unfold UnitsOffWindow State.OffWindow Plain; decide

/-- Count 1 and count 0, direct; count 1, a chain's marked descriptor. -/
theorem witness_TickCompletesTheTransfer :
    (1 = (withChannel 0 (running 1)).dma[(0 : Channel)].currXferCount.toNat ∧ 1 ≤ (withChannel 0 (running 1)).cfg.dmaBatch ∧
      (withChannel 0 (running 1)).dma[(0 : Channel)].currIndirect = false ∧ UnitsOffWindow (withChannel 0 (running 1)) 0 1) ∧
    (0 = (withChannel 0 (running 0)).dma[(0 : Channel)].currXferCount.toNat ∧ UnitsOffWindow (withChannel 0 (running 0)) 0 0) ∧
    ((withChannel 0 { v10running with endIndirect := true }).dma[(0 : Channel)].active = true ∧
      1 = (withChannel 0 { v10running with endIndirect := true }).dma[(0 : Channel)].currXferCount.toNat ∧
      (withChannel 0 { v10running with endIndirect := true }).dma[(0 : Channel)].endIndirect = true ∧
      UnitsOffWindow (withChannel 0 { v10running with endIndirect := true }) 0 1) := by
  unfold UnitsOffWindow State.OffWindow; decide

theorem witness_TickFetchesTheNextDescriptor :
    (withChannel 0 v10running).dma[(0 : Channel)].active = true ∧
    1 = (withChannel 0 v10running).dma[(0 : Channel)].currXferCount.toNat ∧ 1 ≤ (withChannel 0 v10running).cfg.dmaBatch ∧
    (withChannel 0 v10running).dma[(0 : Channel)].currIndirect = true ∧
    (withChannel 0 v10running).dma[(0 : Channel)].endIndirect = false ∧ UnitsOffWindow (withChannel 0 v10running) 0 1 ∧
    (∀ k : Fin 3, (withChannel 0 v10running).OffWindow (0x300C + BitVec.ofNat 32 (4 * k.val)) 4) ∧
    Plain (withChannel 0 v10running) 0x300C 12 := by
  unfold UnitsOffWindow State.OffWindow Plain; decide

theorem witness_ChannelsAreIndependentAndKeepTheirConfiguration :
    (see (exec (.tick 0) (withChannel 0 (running 2))) fun s => s.dma[0].currXferCount) = some 1 ∧
    UnitsOffWindow (withChannel 0 (running 2)) 0 (batch (withChannel 0 (running 2)) 0) ∧
    (see (exec (.trigger 0 .software) (withChannel 0 v9)) fun s => s.dma[0].active) = some true := by
  unfold UnitsOffWindow State.OffWindow; decide

theorem witness_DirectTransferRunsToCompletion :
    16 = (withChannel 0 (running 16)).dma[(0 : Channel)].currXferCount.toNat ∧ 1 ≤ (withChannel 0 (running 16)).cfg.dmaBatch ∧
    (withChannel 0 (running 16)).dma[(0 : Channel)].active = true ∧
    (withChannel 0 (running 16)).dma[(0 : Channel)].currIndirect = false ∧ UnitsOffWindow (withChannel 0 (running 16)) 0 16 ∧
    (16 : Nat) = max 1 ((16 + 1 - 1) / 1) ∧ (1 : Nat) = max 1 ((0 + 1 - 1) / 1) := by
  unfold UnitsOffWindow State.OffWindow; decide

theorem witness_SignalRaisesThenTriggersTheChannels :
    State.reset.cfg.signalTable[Signal.row .vBlankIN] = ⟨0, 15⟩ ∧
    Startable (withChannel 1 { v9 with trigger := .onSignal .vBlankIN }).dma[(1 : Channel)] (.onSignal .vBlankIN) ∧
    ∀ ch : Channel, (withChannel 1 { v9 with trigger := .onSignal .vBlankIN }).dma[ch].indirect = false := by
  unfold Startable; decide

theorem witness_PseudoOperationsAreTheirExpansions :
    (Instr.cbTriggerExternalInterruptN 15 = .cbTriggerExternalInterruptN 15 ∧ Signal.external 15 = .external 15) ∧
    ∀ ch : Channel, State.reset.dma[ch].indirect = false := by decide

theorem witness_ScuTickTicksTheChannelsThenTheDsp :
    (∀ ch : Channel, (withChannel 0 (running 2)).dma[ch].active = true →
      (withChannel 0 (running 2)).cfg.dmaBatch < (withChannel 0 (running 2)).dma[ch].currXferCount.toNat ∧
        UnitsOffWindow (withChannel 0 (running 2)) ch (withChannel 0 (running 2)).cfg.dmaBatch) ∧
    (withChannel 0 (running 2)).dma[(0 : Channel)].active = true ∧
    (withChannel 0 (running 2)).dsp.programExecuting = false := by
  unfold UnitsOffWindow State.OffWindow; decide

theorem witness_ResetLeavesTheTableOfResetValues :
    (withSlot 3 (threeHalves 3 7)).sched.ev[3]? = some (threeHalves 3 7) := by decide

theorem witness_SavedStateLoadsBackWhole :
    (raise 3 12 State.reset).Inv ∧ State.reset.cfg.imageVersion = (raise 3 12 State.reset).cfg.imageVersion ∧
    State.reset.sched.ev.length = (raise 3 12 State.reset).sched.ev.length :=
  ⟨⟨by decide, by decide, by decide, by decide⟩, by decide, by decide⟩

/-- V25: a valid image, and one for each clause of `Valid` that breaks that clause. -/
theorem witness_LoadStateTakesExactlyTheValidImages :
    State.reset.accepts State.reset.toImage = true ∧
    State.reset.accepts { State.reset.toImage with version := 2 } = false ∧
    State.reset.accepts { State.reset.toImage with sched := { currCycle := 0, ev := [] } } = false ∧
    State.reset.accepts { State.reset.toImage with dsp := { Dsp.reset with PC := 256 } } = false ∧
    State.reset.accepts { State.reset.toImage with dsp := { Dsp.reset with CT := #v[0, 0, 0, 64] } } = false ∧
    State.reset.accepts (withChannel 1 { DmaChannel.reset with active := true }).toImage = false ∧
    State.reset.accepts (withSlot 0 { EventSlot.reset 0 with id := 1 }).toImage = false ∧
    State.reset.accepts (withSlot 0 { EventSlot.reset 0 with countDenominator := 0 }).toImage = false ∧
    State.reset.accepts (withSlot 0 { EventSlot.reset 0 with remainder := 1 }).toImage = false ∧
    State.reset.accepts (withSlot 0 { oneShot 0 0 with periodic := true }).toImage = false := by decide

/-- Offsets of every register kind of the default map, of no register, and codes at both ends. -/
theorem witness_RegReadReturnsTheConfiguredFields :
    (0xA0 : Word).toNat % 4 = 0 ∧ State.reset.regAt 0xA0 = some .ims ∧ State.reset.regAt 0xA4 = some .ist ∧
    State.reset.regAt 0x80 = some (.window .ppaf) ∧ State.reset.regAt 0xB0 = none ∧
    State.reset.regAt 0x40 = some (.readAddr 2) ∧ State.reset.regAt 0x44 = some (.writeAddr 2) ∧
    State.reset.regAt 0x48 = some (.count 2) ∧ State.reset.regAt 0x4C = some (.addressAdd 2) ∧
    State.reset.regAt 0x50 = some (.enable 2) ∧ State.reset.regAt 0x54 = some (.mode 2) ∧
    State.reset.dma[(2 : Channel)].srcAddrInc = 0 ∧ State.reset.dma[(2 : Channel)].dstAddrInc = 0 ∧
    (128 : Word) = BitVec.ofNat 32 (2 ^ (7 : BitVec 3).toNat) ∧ (7 : BitVec 3) ≠ 0 ∧
    State.reset.cfg.layout = RegLayout.default ∧
    State.reset.dma[(2 : Channel)].trigger = RegLayout.default.startFactors[(7 : Fin 8)] := by decide

theorem witness_RegWritePerformsTheNamedOperation :
    (0x50 : Word).toNat % 4 = 0 ∧ State.reset.regAt 0x50 = some (.enable 2) ∧
    State.reset.dma[(2 : Channel)].indirect = false ∧ (0x100 : Word).getLsbD State.reset.cfg.layout.startBit = false ∧
    State.reset.regAt 0x84 = some (.window .ppd) ∧ State.reset.regAt 0x8C = some (.window .pdd) ∧
    (7 : Fin 8).val = ((0xFF : Word).extractLsb' State.reset.cfg.layout.dstIncLow 3).toNat ∧
    (0 : Fin 8).val = ((0x100 : Word).extractLsb' State.reset.cfg.layout.startFactorLow 3).toNat ∧
    (∃ b k, (b, k) = Config.dspWindowDataIndex Dsp.reset) ∧ ∃ k, k = Config.dspWindowProgramIndex Dsp.reset :=
  ⟨by decide, by decide, by decide, by decide, by decide, by decide, by decide, by decide, ⟨_, _, rfl⟩, _, rfl⟩

/-- A misaligned offset; an access below the window, one that ends in its first byte, a misaligned word in it, its last word,
a start and a disable of the channel that writes. -/
theorem witness_RegisterWindowOnTheBus :
    (0xA2 : Word).toNat % 4 ≠ 0 ∧ State.reset.OffWindow 0x25FDFFFC 4 ∧ Plain State.reset 0x25FDFFFC 4 ∧
    ¬ State.reset.OffWindow 0x25FDFFFD 4 ∧ ((0x25FDFFFD : Word) - State.reset.cfg.scuBase).toNat % 4 ≠ 0 ∧
    ¬ State.reset.OffWindow 0x25FE00CC 4 ∧ ((0x25FE00CC : Word) - State.reset.cfg.scuBase).toNat % 4 = 0 ∧
    State.reset.OffWindow 0x25FE00D0 4 ∧ State.reset.regAt (0x25FE0010 - State.reset.cfg.scuBase) = some (.enable 0) ∧
    ¬ Disturbs State.reset (.channel 0) (0x25FE0010 - State.reset.cfg.scuBase) 0x100 ∧
    Disturbs State.reset (.channel 0) (0x25FE0010 - State.reset.cfg.scuBase) 0x101 ∧
    Disturbs State.reset (.channel 0) (0x25FE0010 - State.reset.cfg.scuBase) 0 ∧
    ¬ Disturbs State.reset (.channel 1) (0x25FE0010 - State.reset.cfg.scuBase) 0 := by
  unfold State.OffWindow Plain Disturbs; decide

/-- The DSP as performer: the mask register disturbs nothing; a window register does or does not as `DspExec` has it, and both
are cases of the statement. -/
theorem witness_RegisterWindowOnTheBus_dsp :
    ¬ Disturbs State.reset .dsp 0xA0 0 ∧ ¬ DisturbsRead State.reset .dsp 0xA0 ∧ ¬ DisturbsRead State.reset (.channel 0) 0x80 ∧
    (Disturbs State.reset .dsp 0x80 0 ↔ (Config.dspWindowWriteEffect .ppaf 0 Dsp.reset).touchesRun = true) := by
  have h1 : State.reset.regAt 0xA0 = some .ims := by decide
  have h2 : State.reset.regAt 0x80 = some (.window .ppaf) := by decide
  have h3 : ∀ w, State.reset.regAt 0xA0 ≠ some (.window w) := by rw [h1]; intro w h; cases h
  refine ⟨fun ⟨w, hw, _⟩ => h3 w hw, fun ⟨_, w, hw, _⟩ => h3 w hw, fun ⟨h, _⟩ => (by cases h), ?_⟩
  simp only [Disturbs, h2]
  exact ⟨fun ⟨w, hw, h⟩ => by cases hw; exact h, fun h => ⟨_, rfl, h⟩⟩

theorem witness_BusWritesReadBackBigEndian :
    State.reset.OffWindow 0xFFFFFFFE 4 ∧ Plain State.reset 0xFFFFFFFE 4 ∧ Memory.wf State.reset.mem = true := by
  unfold State.OffWindow Plain; decide

/-- A DSP that executes its word 0, on a bus without register window. -/
def executing : State :=
  { withDsp { Dsp.reset with programExecuting := true } with cfg := { Params.default with scuWindowBytes := 0 } }

theorem witness_DspStepExecutesTheDecodedWord :
    State.reset.dsp.programExecuting = false ∧
    (executing.dsp.programExecuting = true ∧ executing.dsp.programPaused = false ∧ executing.dsp.dmaRun = false ∧
      executing.dsp.PC = (0 : Fin 256).val ∧ executing.cfg.scuWindowBytes = 0) ∧
    ∃ t, exec (Instr.ofDsp (Config.dspDecode executing.dsp.programRAM[(0 : Fin 256)])) executing = .next t := by
  refine ⟨rfl, by decide, ?_⟩
  obtain ⟨t, ht⟩ := executeDsp_answers (Config.dspDecode executing.dsp.programRAM[(0 : Fin 256)]) (s := executing) rfl
  refine ⟨t, ?_⟩
  rw [← ht]
  cases Config.dspDecode executing.dsp.programRAM[(0 : Fin 256)] <;> rfl

/-- The operands are a pair, whatever it is; it overflows or it does not, and both are cases of the statement. -/
theorem witness_DspOperationReadsThePreInstructionState :
    ∃ a b : Word, Config.dspAluOperands .add Dsp.reset = (a, b) ∧
      ((a.toInt + b.toInt < -2 ^ 31 ∨ 2 ^ 31 ≤ a.toInt + b.toInt) ∨
        (-2 ^ 31 ≤ a.toInt + b.toInt ∧ a.toInt + b.toInt < 2 ^ 31)) :=
  ⟨_, _, rfl, by omega⟩

/-- Widths at both ends; a condition that holds and one that does not; -1 and 0 as immediates. -/
theorem witness_DspMoveImmediateIsConditional :
    (32 : Nat) ≤ 32 ∧ condHolds .nz Dsp.reset = true ∧ condHolds .z Dsp.reset = false ∧
    (0xFFFFFFFF : Word).toInt = ((0xFF : Word).setWidth 8).toInt ∧ (0 : Word).toInt = ((0xFF : Word).setWidth 0).toInt ∧
    (0x80000000 : Word).toInt = ((0x80000000 : Word).setWidth 32).toInt := by decide

theorem witness_DspJumpHasOneDelaySlot :
    condHolds .none Dsp.reset = true ∧ condHolds .c Dsp.reset = false := by decide

theorem witness_DspLoopEndAndInvalid :
    State.reset.dsp.LOP = 0 ∧ State.reset.dsp.jmpCounter = 0 ∧ (withDsp { Dsp.reset with LOP := 2 }).dsp.LOP ≠ 0 ∧
    (withDsp { Dsp.reset with LOP := 2, jmpCounter := 1 }).dsp.jmpCounter ≠ 0 := by decide

/-- Towards the bus and from it, 2 words of bank 1 by an immediate count; and a count register that advances its cursor. What is
loaded is free: on a bus without register window and devices every address meets the premises. -/
theorem witness_DspDmaMovesWordsBetweenBusAndRam :
    (2 : Word) = (match DspDmaCount.immediate 2 with | .immediate v => v | .register src => dspSourceValue src Dsp.reset) ∧
    (∀ b : Fin 4, State.reset.dsp.CT[b] = if DspDmaCount.immediate 2 = .register (.ram b true)
      then (State.reset.dsp.CT[b] + 1) % 64 else State.reset.dsp.CT[b]) ∧
    (0 : Word) = (match DspDmaCount.register (.ram 1 true) with
      | .immediate v => v | .register src => dspSourceValue src State.reset.dsp) ∧
    ∃ (l : DspDmaLoad) (base : Word), l = Config.dspDmaLoad (.dma true false (.immediate 2) (.data 1) 4) executing.dsp ∧
      base = l.writeAddr ∧ (∀ k < (2 : Word).toNat, executing.OffWindow (dspAddr base 4 false k) 4) ∧
      ∀ k < 2, Plain executing (dspAddr base 4 false k) 4 := by
  refine ⟨by decide, by decide, by decide, _, _, rfl, rfl, fun k _ => touchesWindow_of_zero rfl _ _, fun k _ j _ => ?_⟩
  simp [Params.isDevice, executing, Params.default]

theorem witness_HandlersChooseAndPerformTheirOperations :
    State.reset.cfg.handlers[0]? = none ∧ resettingHandler.cfg.handlers[0]? = some .done ∧
    State.reset.sched.ev[3]? = some (EventSlot.reset 3) ∧ ¬ Boundary .scuTick ∧ exec .scuTick State.reset = .next State.reset ∧
    State.reset.fault = none ∧ (see (exec (.tick 3) State.reset) (·.fault)) = some (some .badChannel) ∧
    (resettingHandler.setResult .ok).cfg.handlers = resettingHandler.cfg.handlers ∧
    (resettingHandler.setResult .ok).toImage = resettingHandler.toImage ∧
    (resettingHandler.setResult .ok).mem = resettingHandler.mem ∧
    (resettingHandler.setResult .ok).result ≠ resettingHandler.result :=
  ⟨rfl, rfl, rfl, by simp [Boundary], rfl, rfl, by decide, rfl, rfl, rfl, by decide⟩

end Sys2Proof.Tests
end

section
/-! PROOF. The pseudo-operations (R72): a signal that starts no channel in indirect mode answers, and each pseudo-operation is
its expansion. -/

namespace Sys2Proof.Machine

open Sys2Proof.Claims

/-- The model's start condition is the one the statements use (R122). -/
theorem DmaChannel.starts_iff (c : DmaChannel) (ts : TriggerSource) : DmaChannel.starts c ts = true ↔ Startable c ts := by
  simp [DmaChannel.starts, Startable, and_assoc]

/-- What `Trigger` leaves when it does not start a channel in indirect mode (R122, R123): no descriptor is fetched. -/
def State.startDirect (s : State) (ch : Channel) (ts : TriggerSource) : State :=
  if DmaChannel.starts s.dma[ch] ts then s.setChannel ch (DmaChannel.start s.dma[ch]) else s

theorem startChannel_of_direct {ch : Channel} {ts : TriggerSource} {s : State}
    (h : Startable s.dma[ch] ts → s.dma[ch].indirect = false) :
    startChannel ch ts s = .next (s.startDirect ch ts) := by
  unfold startChannel State.startDirect
  by_cases hst : DmaChannel.starts s.dma[ch] ts = true
  · have hdirect : s.dma[ch].indirect = false := h ((DmaChannel.starts_iff _ _).1 hst)
    simp only [hst, hdirect, if_true, Bool.false_eq_true, if_false]
  · simp only [hst, Bool.false_eq_true, if_false]

theorem State.startDirect_of_ne (s : State) {ch ch' : Channel} (ts : TriggerSource) (h : ch' ≠ ch) :
    (s.startDirect ch ts).dma[ch'] = s.dma[ch'] := by
  unfold State.startDirect
  split
  · exact State.setChannel_of_ne s _ h
  · rfl

@[simp] theorem raise_dma (i : SourceIndex) (level : Level) (s : State) : (raise i level s).dma = s.dma := by
  rw [raise_eq]

/-- A signal that starts no channel in indirect mode answers (R142): each of the three triggers finds its channel as the signal
found it, because a raise and the other channels' starts leave it. -/
theorem signal_of_direct {sig : Signal} {s : State}
    (h : ∀ ch : Channel, Startable s.dma[ch] (.onSignal sig) → s.dma[ch].indirect = false) :
    signal sig s = .next
      ((((raise (s.signalEntry sig).source (s.signalEntry sig).level s).startDirect 0 (.onSignal sig)).startDirect 1
        (.onSignal sig)).startDirect 2 (.onSignal sig)) := by
  have start_next (ch : Channel) (u : State) (hu : u.dma[ch] = s.dma[ch]) :
      startChannel ch (.onSignal sig) u = .next (u.startDirect ch (.onSignal sig)) :=
    startChannel_of_direct (by rw [hu]; exact h ch)
  unfold signal
  rw [start_next 0 _ (by rw [raise_dma]), andThen_next,
    start_next 1 _ (by rw [State.startDirect_of_ne _ _ (by decide), raise_dma]), andThen_next,
    start_next 2 _ (by
      rw [State.startDirect_of_ne _ _ (by decide), State.startDirect_of_ne _ _ (by decide), raise_dma])]

/-- Settles O44: a named signal is `Signal` with that signal (R72), which answers by `signal_of_direct`; `SoftwareStart` is
`Trigger` with the software source; the pair read holds the pending level and vector of the two reads. -/
theorem pseudoOperationsAreTheirExpansions : Obligations.PseudoOperationsAreTheirExpansions := by
  intro s
  refine ⟨fun p sig hp => ?_, fun ch => rfl, s.pendingLevel, s.pendingVector, rfl, rfl, rfl⟩
  have expansion : exec p s = exec (.signal sig) s := by
    rcases hp with ⟨rfl, rfl⟩ | ⟨rfl, rfl⟩ | ⟨rfl, rfl⟩ | ⟨n, rfl, rfl⟩ <;> rfl
  refine ⟨expansion, fun startsDirect => ?_⟩
  have answer : exec (.signal sig) s = .next _ := signal_of_direct startsDirect
  exact ⟨_, expansion.trans answer, answer⟩

end Sys2Proof.Machine
end

section
/-! PROOF. The interrupt controller (41_interrupt.md): an acknowledge, a mask write over a raised source, and the frame of every
operation of that file. -/

namespace Sys2Proof.Machine

open Sys2Proof.Claims

/-! ## The source selected -/

/-- The model's visibility is the one the statements use (R105). -/
theorem Intr.visible_iff (s : State) (i : SourceIndex) : Intr.visible s.intr i = true ↔ Visible s i := by
  simp [Intr.visible, Visible]

/-- A source not visible is not selected. -/
theorem Intr.pendingSource_ne_of_not_visible {s : State} {i : SourceIndex} (h : ¬ Visible s i) :
    Intr.pendingSource s.intr ≠ some i := fun hsel =>
  h ((Intr.visible_iff s i).1 ((Intr.pendingSource_spec s.intr).2 i hsel).1)

/-- Some source is selected when one is visible. -/
theorem Intr.exists_pendingSource {s : State} {i : SourceIndex} (hi : Visible s i) :
    ∃ k, Intr.pendingSource s.intr = some k := by
  refine Option.ne_none_iff_exists'.1 fun hnone => ?_
  have hidden : Intr.visible s.intr i = false := (Intr.pendingSource_spec s.intr).1.1 hnone i
  rw [(Intr.visible_iff s i).2 hi] at hidden
  cases hidden

/-- A visible source that ranks before every visible source is the one selected: its level is greater, or equal with the index not
above (R105). -/
theorem Intr.pendingSource_eq_some {s : State} {i : SourceIndex} (hi : Visible s i)
    (hmax : ∀ j : SourceIndex, Visible s j →
      s.intr.level[j].toNat < s.intr.level[i].toNat ∨ (s.intr.level[j] = s.intr.level[i] ∧ i ≤ j)) :
    Intr.pendingSource s.intr = some i := by
  obtain ⟨k, hk⟩ := Intr.exists_pendingSource hi
  obtain ⟨hvis, hbest⟩ := (Intr.pendingSource_spec s.intr).2 k hk
  have hik := hbest i ((Intr.visible_iff s i).2 hi)
  have hki := hmax k ((Intr.visible_iff s k).1 hvis)
  suffices k = i by rw [hk, this]
  rcases hik with hlt | ⟨heq, hle⟩
  · rcases hki with hgt | ⟨heq, _⟩
    · exact absurd hgt hlt.asymm
    · exact absurd (heq ▸ hlt) (lt_irrefl _)
  · rcases hki with hgt | ⟨_, hge⟩
    · exact absurd (heq ▸ hgt) (lt_irrefl _)
    · exact le_antisymm hle hge

/-- A visible source whose level is greater than that of every other visible source is the one selected. -/
theorem Intr.pendingSource_eq_some_of_level_lt {s : State} {i : SourceIndex} (hi : Visible s i)
    (hmax : ∀ j : SourceIndex, j ≠ i → Visible s j → s.intr.level[j].toNat < s.intr.level[i].toNat) :
    Intr.pendingSource s.intr = some i := by
  refine Intr.pendingSource_eq_some hi fun j hj => ?_
  by_cases hji : j = i
  · exact .inr ⟨by rw [hji], hji.ge⟩
  · exact .inl (hmax j hji hj)

/-- The pending level is at least the level of every visible source. -/
theorem State.level_le_pendingLevel {s : State} {i : SourceIndex} (hi : Visible s i) :
    s.intr.level[i].toNat ≤ s.pendingLevel.toNat := by
  obtain ⟨k, hk⟩ := Intr.exists_pendingSource hi
  rw [State.pendingLevel_of_some hk]
  rcases ((Intr.pendingSource_spec s.intr).2 k hk).2 i ((Intr.visible_iff s i).2 hi) with hlt | ⟨heq, _⟩
  · exact hlt.le
  · rw [heq]

/-! ## What a raise, an acknowledge and a mask write do to a bit -/

/-- A raise sets its source's status bit (R97). -/
theorem raise_getLsbD_status_self (i : SourceIndex) (level : Level) (s : State) :
    (raise i level s).intr.status.getLsbD i = true := by
  rw [raise_eq, getLsbD_or_twoPow]
  simp

/-- A raise records its source's level (R97). -/
theorem raise_level_self (i : SourceIndex) (level : Level) (s : State) : (raise i level s).intr.level[i] = level := by
  rw [raise_eq, getElem_level_set, if_pos rfl]

@[simp] theorem raise_cfg (i : SourceIndex) (level : Level) (s : State) : (raise i level s).cfg = s.cfg := by
  rw [raise_eq]

@[simp] theorem setMask_status (m : Word) (s : State) : (setMask m s).intr.status = s.intr.status := rfl
@[simp] theorem setMask_level (m : Word) (s : State) : (setMask m s).intr.level = s.intr.level := rfl
@[simp] theorem setMask_mask (m : Word) (s : State) : (setMask m s).intr.mask = m := rfl
@[simp] theorem setMask_cfg (m : Word) (s : State) : (setMask m s).cfg = s.cfg := rfl

/-- After a mask write, the sources visible are those with status 1 that the new mask leaves unmasked. -/
theorem visible_setMask_iff (m : Word) (s : State) (i : SourceIndex) :
    Visible (setMask m s) i ↔ s.intr.status.getLsbD i = true ∧ m.getLsbD i = false := by
  rw [Visible, setMask_status, setMask_mask]

/-- An acknowledge clears its source's status bit and no other (R99). -/
theorem acknowledge_getLsbD_status (i j : SourceIndex) (s : State) :
    (acknowledge i s).intr.status.getLsbD j = (!decide (j = i) && s.intr.status.getLsbD j) := by
  rw [acknowledge_eq, getLsbD_and_not_twoPow]

/-- A violation leaves the statements' `faulted` state (R181). -/
theorem raiseViolation_eq_faulted (r : ViolationReason) (s : State) : raiseViolation r s = .next (faulted s r) := by
  rw [raiseViolation_eq, State.markFault_eq, faulted]

/-! ## The obligations -/

/-- Settles O29: both mask writes leave the status and the level that the raise wrote, so the mask alone decides whether the source
is visible; visible again, it bounds the pending level from below, and is selected when no other visible source reaches its level. -/
theorem maskingHidesAndReexposes : Obligations.MaskingHidesAndReexposes := by
  intro s i level m m' hmasked hunmasked
  have hidden : ¬ Visible (setMask m (raise i level s)) i := fun hv => by
    rw [visible_setMask_iff, hmasked] at hv
    cases hv.2
  have shown : Visible (setMask m' (setMask m (raise i level s))) i := by
    rw [visible_setMask_iff, setMask_status]
    exact ⟨raise_getLsbD_status_self i level s, hunmasked⟩
  have hlevel : (setMask m' (setMask m (raise i level s))).intr.level[i] = level := by
    rw [setMask_level, setMask_level, raise_level_self]
  refine ⟨_, _, _, execRaiseInterrupt_val s i level, rfl, rfl, setMask_status _ _, hidden,
    Intr.pendingSource_ne_of_not_visible hidden, by rw [setMask_status, setMask_status], shown, hlevel, ?_, fun hmax => ?_⟩
  · simpa only [hlevel] using State.level_le_pendingLevel shown
  · have selected := Intr.pendingSource_eq_some_of_level_lt shown (by rwa [hlevel])
    refine ⟨(State.pendingLevel_of_some selected).trans hlevel, ?_⟩
    rw [State.pendingVector_of_some selected, State.vectorOf, setMask_cfg, setMask_cfg, raise_cfg]

/-- Settles O25: a source above 31 has no index and violates; a source in range is `acknowledge`, whose one update is
`acknowledge_eq`. -/
theorem acknowledgeInterruptClearsStatus : Obligations.AcknowledgeInterruptClearsStatus := by
  intro s
  refine ⟨fun source hgt => ?_, fun source => ⟨acknowledge source s, execAcknowledgeInterrupt_val s source,
    fun j => acknowledge_getLsbD_status source j s, ?_⟩⟩
  · change execAcknowledgeInterrupt source s = _
    rw [execAcknowledgeInterrupt, sourceOf_of_gt hgt]
    exact raiseViolation_eq_faulted _ s
  · rw [acknowledge_eq, traced]

/-- Two states that differ at most in the interrupt registers, the trace and the returned value (R109). -/
def SameButInterrupt (s t : State) : Prop := t = { s with intr := t.intr, traceLog := t.traceLog, result := t.result }

theorem sameButInterrupt_raise (i : SourceIndex) (level : Level) (s : State) : SameButInterrupt s (raise i level s) := by
  rw [raise_eq]; rfl

theorem sameButInterrupt_acknowledge (i : SourceIndex) (s : State) : SameButInterrupt s (acknowledge i s) := by
  rw [acknowledge_eq]; rfl

/-- `AcknowledgeVector` answers whether or not a source has the vector (R100). -/
theorem execAcknowledgeVector_frame (vector : Byte) (s : State) :
    ∃ t, execAcknowledgeVector vector s = .next t ∧ SameButInterrupt s t := by
  unfold execAcknowledgeVector
  cases s.sourceOfVector vector with
  | some i => exact ⟨_, rfl, sameButInterrupt_acknowledge i s⟩
  | none => exact ⟨s, rfl, rfl⟩

/-- Settles O30, operation by operation: a raise, an acknowledge (by source or by vector), a mask write, and the reads, which write
the returned value alone. -/
theorem interruptOperationsLeaveTheRestAlone : Obligations.InterruptOperationsLeaveTheRestAlone := by
  intro s source level vector value i hi
  simp only [List.mem_cons, List.not_mem_nil, or_false] at hi
  rcases hi with rfl | rfl | rfl | rfl | rfl | rfl | rfl | rfl | rfl | rfl
  case inl => exact ⟨_, execRaiseInterrupt_val s source level, sameButInterrupt_raise source level s⟩
  case inr.inl => exact ⟨_, execAcknowledgeInterrupt_val s source, sameButInterrupt_acknowledge source s⟩
  case inr.inr.inl => exact execAcknowledgeVector_frame vector s
  all_goals exact ⟨_, rfl, rfl⟩

end Sys2Proof.Machine
end

section
/-! PROOF. The DMA engine (42_dma.md): what `Configure` writes, and the triggers that start nothing. -/

namespace Sys2Proof.Machine

open Sys2Proof.Claims

/-- An operation on a channel above 2 is a contract violation, whatever it would do on a channel in range (R181). -/
theorem onChannel_of_gt_eq_faulted {n : Nat} (h : 2 < n) (s : State) (f : Channel → Run) :
    onChannel n s f = .next (faulted s .badChannel) := by
  rw [onChannel_of_gt h, raiseViolation_eq_faulted]

theorem execConfigure_val (s : State) (ch : Channel) (src dst count srcInc dstInc : Word) (indirect : Bool)
    (ts : TriggerSource) :
    execConfigure ch.val src dst count srcInc dstInc indirect ts s =
      .next (s.setChannel ch (DmaChannel.configure s.dma[ch] src dst count srcInc dstInc indirect ts)) := by
  simp [execConfigure]

theorem execTrigger_val (s : State) (ch : Channel) (ts : TriggerSource) :
    execTrigger ch.val ts s = startChannel ch ts s := by simp [execTrigger]

/-- A Disabled or Active channel, or one configured with another trigger, does not meet the start condition. -/
theorem not_startable {c : DmaChannel} {ts : TriggerSource} (h : c.enabled = false ∨ c.active = true ∨ c.trigger ≠ ts) :
    ¬ Startable c ts := by
  rintro ⟨henabled, hidle, hmatches⟩
  rcases h with hdisabled | hactive | hother
  · exact absurd (henabled.symm.trans hdisabled) (by decide)
  · exact absurd (hidle.symm.trans hactive) (by decide)
  · exact hother hmatches

/-- A channel that does not meet the start condition is not touched (R123). -/
theorem startChannel_of_not_startable {ch : Channel} {ts : TriggerSource} {s : State} (h : ¬ Startable s.dma[ch] ts) :
    startChannel ch ts s = .next s := by
  have starts_false : ¬ DmaChannel.starts s.dma[ch] ts = true := fun hst => h ((DmaChannel.starts_iff _ _).1 hst)
  rw [startChannel_of_direct fun hst => absurd hst h, State.startDirect, if_neg starts_false]

/-- Settles O31: a channel above 2 violates; on a channel in range the operation is one `setChannel` of the configured fields. -/
theorem configureWritesConfiguredFieldsOnly : Obligations.ConfigureWritesConfiguredFieldsOnly := by
  intro s src dst count srcInc dstInc indirect ts
  refine ⟨fun ch hgt => onChannel_of_gt_eq_faulted hgt s _, fun ch => ?_⟩
  exact ⟨_, execConfigure_val s ch src dst count srcInc dstInc indirect ts, State.setChannel_self s ch _,
    fun c hne => State.setChannel_of_ne s _ hne, rfl⟩

/-- Settles O34: in each of the three cases the channel does not meet the start condition; a software start is the trigger with
the software source (R72). -/
theorem triggerIsIgnoredUnlessIdleAndMatching : Obligations.TriggerIsIgnoredUnlessIdleAndMatching := by
  intro s ch ts h
  have ignored : exec (.trigger ch ts) s = .next s :=
    (execTrigger_val s ch ts).trans (startChannel_of_not_startable (not_startable h))
  refine ⟨ignored, ?_⟩
  rintro rfl
  exact ignored

end Sys2Proof.Machine
end

section
/-! PROOF. The record form (30_encoding.md): each reader accepts exactly the bytes the encoder writes for its operand, and so
does the decoder. -/

namespace Sys2Proof

/-! ## The readers and the encoder are inverse -/

@[simp] theorem readThen_ok {α β : Type} (a : α) (bs : List Byte) (f : α → List Byte → Parsed β) :
    readThen (.ok (a, bs)) f = f a bs := rfl

@[simp] theorem readThen_error {α β : Type} (e : DecodeError) (f : α → List Byte → Parsed β) :
    readThen (.error e) f = .error e := rfl

/-- Reading on succeeds exactly when both parts do. -/
theorem readThen_eq_ok {α β : Type} {r : Parsed α} {f : α → List Byte → Parsed β} {x : β × List Byte} :
    readThen r f = .ok x ↔ ∃ a bs, r = .ok (a, bs) ∧ f a bs = .ok x := by
  rcases r with e | ⟨a, bs⟩
  · simp [readThen]
  · simp

theorem readByte_eq_ok {bs rest : List Byte} {b : Byte} : readByte bs = .ok (b, rest) ↔ bs = b :: rest := by
  cases bs <;> simp [readByte]

/-- A byte holds every number below 256. -/
theorem ofNat_eq_byte_iff {n : Nat} {b : Byte} (h : n < 256) : BitVec.ofNat 8 n = b ↔ b.toNat = n := by
  rw [← BitVec.toNat_inj, BitVec.toNat_ofNat, Nat.mod_eq_of_lt h, eq_comm]

theorem readIndex_eq_ok {bs rest : List Byte} {n : Nat} :
    readIndex bs = .ok (n, rest) ↔ byteSized n = true ∧ bs = indexBytes n ++ rest := by
  cases bs with
  | nil => simp [readIndex, indexBytes]
  | cons b bs =>
    have hb : b.toNat < 256 := b.isLt
    simp only [readIndex, Except.ok.injEq, Prod.mk.injEq, byteSized, decide_eq_true_eq, indexBytes, List.cons_append,
      List.nil_append, List.cons.injEq]
    constructor
    · rintro ⟨rfl, rfl⟩
      exact ⟨hb, by simp, rfl⟩
    · rintro ⟨hn, rfl, rfl⟩
      exact ⟨by simpa using Nat.mod_eq_of_lt hn, rfl⟩

/-- Reading `n` bytes accepts exactly the layout of a number below `256 ^ n`. -/
theorem readBytes_eq_ok {n v : Nat} {bs rest : List Byte} :
    readBytes n bs = .ok (v, rest) ↔ v < 256 ^ n ∧ bs = beBytes n v ++ rest := by
  unfold readBytes
  split
  · rename_i hlt
    simp only [reduceCtorEq, false_iff, not_and]
    rintro - rfl
    simp at hlt
  · rename_i hle
    have hlen : (bs.take n).length = n := by simp; omega
    simp only [Except.ok.injEq, Prod.mk.injEq]
    constructor
    · rintro ⟨rfl, rfl⟩
      have hlt := beNat_lt (bs.take n)
      have hback := beBytes_beNat (bs.take n)
      rw [hlen] at hlt hback
      exact ⟨hlt, by rw [hback, List.take_append_drop]⟩
    · rintro ⟨hv, rfl⟩
      rw [List.take_left' (beBytes_length n v), List.drop_left' (beBytes_length n v), beNat_beBytes, Nat.mod_eq_of_lt hv]
      exact ⟨rfl, rfl⟩

/-- A reader of `n` bytes as a word of that width. -/
theorem readThen_readBytes_eq_ok {n : Nat} (w : Nat) (hw : 256 ^ n = 2 ^ w) {bs rest : List Byte} {c : BitVec w} :
    readThen (readBytes n bs) (fun v bs => .ok (BitVec.ofNat w v, bs)) = .ok (c, rest) ↔ bs = beBytes n c.toNat ++ rest := by
  rw [readThen_eq_ok]
  constructor
  · rintro ⟨v, bs', hread, heq⟩
    cases heq
    obtain ⟨hv, rfl⟩ := readBytes_eq_ok.1 hread
    rw [BitVec.toNat_ofNat, Nat.mod_eq_of_lt (hw ▸ hv)]
  · rintro rfl
    exact ⟨c.toNat, rest, readBytes_eq_ok.2 ⟨hw ▸ c.isLt, rfl⟩, by simp⟩

theorem readWord_eq_ok {bs rest : List Byte} {w : Word} : readWord bs = .ok (w, rest) ↔ bs = encodeWord w ++ rest :=
  readThen_readBytes_eq_ok 32 (by decide)

theorem readCycles_eq_ok {bs rest : List Byte} {c : Cycles} :
    readCycles bs = .ok (c, rest) ↔ bs = encodeCycles c ++ rest :=
  readThen_readBytes_eq_ok 64 (by decide)

theorem readBool_eq_ok {bs rest : List Byte} {b : Bool} : readBool bs = .ok (b, rest) ↔ bs = encodeBool b ++ rest := by
  cases bs with
  | nil => simp [readBool, readByte, encodeBool]
  | cons c bs =>
    simp only [readBool, readByte, readThen_ok, encodeBool]
    cases b <;> by_cases h0 : c = 0 <;> by_cases h1 : c = 1 <;> simp_all

theorem readLevel_eq_ok {bs rest : List Byte} {l : Level} : readLevel bs = .ok (l, rest) ↔ bs = encodeLevel l ++ rest := by
  cases bs with
  | nil => simp [readLevel, readByte, encodeLevel]
  | cons c bs =>
    have hl := l.isLt
    have narrow : c.toNat < 16 → (c.setWidth 4 = l ↔ c = l.setWidth 8) := fun hc => by
      simp only [← BitVec.toNat_inj, BitVec.toNat_setWidth]
      omega
    have small : c = l.setWidth 8 → c.toNat < 16 := by
      rintro rfl
      simp only [BitVec.toNat_setWidth]
      omega
    simp only [readLevel, readByte, readThen_ok, encodeLevel, List.cons_append, List.nil_append, List.cons.injEq]
    split
    · rename_i hc
      simp [narrow hc]
    · rename_i hc
      simp [mt small hc]

/-- R63's numbers name their signals, and no other number names one. -/
theorem Signal.ofNumber_eq_some {n : Nat} {sig : Signal} : Signal.ofNumber n = some sig ↔ n = sig.number := by
  constructor
  · intro h
    unfold Signal.ofNumber at h
    split at h
    case h_10 =>
      split at h <;> cases h
      simp only [Signal.number]
      omega
    all_goals cases h; rfl
  · rintro rfl
    cases sig with
    | external k => revert k; decide
    | _ => rfl

theorem Signal.number_lt (sig : Signal) : sig.number < 32 := by
  cases sig with
  | external k => exact Nat.add_lt_add_left k.isLt 16
  | _ => decide

/-- A byte is the layout of a number exactly when it has that value. -/
theorem byte_eq_ofNat_iff {b : Byte} {n : Nat} (h : n < 256) : b = BitVec.ofNat 8 n ↔ b.toNat = n := by
  rw [← BitVec.toNat_inj, BitVec.toNat_ofNat, Nat.mod_eq_of_lt h]

theorem readSignal_eq_ok {bs rest : List Byte} {sig : Signal} :
    readSignal bs = .ok (sig, rest) ↔ bs = indexBytes sig.number ++ rest := by
  cases bs with
  | nil => simp [readSignal, readByte, indexBytes]
  | cons c bs =>
    simp only [readSignal, readByte, readThen_ok, indexBytes, List.cons_append, List.nil_append, List.cons.injEq,
      byte_eq_ofNat_iff (sig.number_lt.trans (by decide))]
    split
    · rename_i sig' h
      rw [Signal.ofNumber_eq_some.1 h]
      simp only [Except.ok.injEq, Prod.mk.injEq]
      refine and_congr_left fun _ => ⟨fun heq => heq ▸ rfl, fun heq => ?_⟩
      simpa [Signal.ofNumber_eq_some.2 rfl] using congrArg Signal.ofNumber heq
    · rename_i h
      simp only [reduceCtorEq, false_iff, not_and]
      exact fun heq => absurd (Signal.ofNumber_eq_some.2 heq) (by simp [h])

/-- R62's numbers name their triggers, and no other number names one. -/
theorem TriggerSource.ofNumber_eq_some {n : Nat} {ts : TriggerSource} :
    TriggerSource.ofNumber n = some ts ↔ ts.number = some n := by
  unfold TriggerSource.ofNumber
  by_cases hn : n = 0xFF
  · cases ts with
    | onSignal sig =>
      have := sig.number_lt
      simp [TriggerSource.number, hn]
      omega
    | _ => simp [TriggerSource.number, hn]
  · cases ts with
    | onSignal sig => simp [TriggerSource.number, hn, Signal.ofNumber_eq_some, eq_comm (a := n)]
    | software => simp [TriggerSource.number, hn, eq_comm (a := 255)]
    | spriteDrawEnd => simp [TriggerSource.number, hn]

theorem TriggerSource.number_lt {ts : TriggerSource} {n : Nat} (h : ts.number = some n) : n < 256 := by
  cases ts <;> cases h
  · decide
  · exact (Signal.number_lt _).trans (by decide)

theorem readTrigger_eq_ok {bs rest : List Byte} {ts : TriggerSource} :
    readTrigger bs = .ok (ts, rest) ↔ ts.hasNumber = true ∧ bs = encodeTrigger ts ++ rest := by
  have hasNumber_iff : ts.hasNumber = true ↔ ∃ n, ts.number = some n := by
    cases ts <;> simp [TriggerSource.hasNumber, TriggerSource.number]
  rw [hasNumber_iff]
  cases bs with
  | nil => simp [readTrigger, readByte, encodeTrigger, indexBytes]
  | cons c bs =>
    have named : (∃ n, ts.number = some n) ∧ c = BitVec.ofNat 8 (ts.number.getD 0) ↔
        TriggerSource.ofNumber c.toNat = some ts := by
      rw [TriggerSource.ofNumber_eq_some]
      constructor
      · rintro ⟨⟨n, hn⟩, rfl⟩
        simp [hn, Nat.mod_eq_of_lt (TriggerSource.number_lt hn)]
      · intro h
        exact ⟨⟨_, h⟩, by simp [h]⟩
    simp only [readTrigger, readByte, readThen_ok, encodeTrigger, indexBytes, List.cons_append, List.nil_append,
      List.cons.injEq, ← and_assoc, named]
    cases TriggerSource.ofNumber c.toNat <;> simp

theorem readResetKind_eq_ok {bs rest : List Byte} {kind : ResetKind} :
    readResetKind bs = .ok (kind, rest) ↔ bs = indexBytes kind.number ++ rest := by
  cases bs with
  | nil => simp [readResetKind, readByte, indexBytes]
  | cons c bs =>
    simp only [readResetKind, readByte, readThen_ok, indexBytes]
    cases kind <;> by_cases h0 : c = 0 <;> by_cases h1 : c = 1 <;> simp_all [ResetKind.number]

/-! ## The decoder -/

section
variable (rest : List Byte)

theorem readIndex_append {n : Nat} (h : byteSized n = true) : readIndex (indexBytes n ++ rest) = .ok (n, rest) :=
  readIndex_eq_ok.2 ⟨h, rfl⟩
@[simp] theorem readWord_append (w : Word) : readWord (encodeWord w ++ rest) = .ok (w, rest) := readWord_eq_ok.2 rfl
@[simp] theorem readCycles_append (c : Cycles) : readCycles (encodeCycles c ++ rest) = .ok (c, rest) :=
  readCycles_eq_ok.2 rfl
@[simp] theorem readBool_append (b : Bool) : readBool (encodeBool b ++ rest) = .ok (b, rest) := readBool_eq_ok.2 rfl
@[simp] theorem readLevel_append (l : Level) : readLevel (encodeLevel l ++ rest) = .ok (l, rest) := readLevel_eq_ok.2 rfl
@[simp] theorem readSignal_append (sig : Signal) : readSignal (indexBytes sig.number ++ rest) = .ok (sig, rest) :=
  readSignal_eq_ok.2 rfl
theorem readTrigger_append {ts : TriggerSource} (h : ts.hasNumber = true) :
    readTrigger (encodeTrigger ts ++ rest) = .ok (ts, rest) := readTrigger_eq_ok.2 ⟨h, rfl⟩
@[simp] theorem readResetKind_append (kind : ResetKind) : readResetKind (indexBytes kind.number ++ rest) = .ok (kind, rest) :=
  readResetKind_eq_ok.2 rfl

end

/-- The record of a well-formed operation decodes to the operation, or to the expansion of a pseudo-operation. -/
theorem decode_encode_append {i : Instr} {record : List Byte} (rest : List Byte) (hwf : i.wf = true)
    (henc : encode i = some record) : decode (record ++ rest) = .ok (i.canonical, rest) := by
  cases i <;> cases henc <;>
    simp_all [Instr.wf, decode, decodeOperands, Instr.canonical, readByte, readIndex_append, readTrigger_append,
      readTrigger_append rest (ts := .software) rfl]

/-- Settles O1: the operand readers take back what the encoder wrote; the operations without a record are those the encoder
answers `none` for. -/
theorem decodeOfEncodeIsTheOperation : Obligations.DecodeOfEncodeIsTheOperation := by
  refine ⟨fun i record rest hwf henc => decode_encode_append rest hwf henc, fun i => ⟨fun h => ?_, ?_⟩⟩
  · cases i
    case getPendingInterrupt => exact .inl rfl
    case loadState image => exact .inr (.inl ⟨image, rfl⟩)
    case dspOperation alu x y d1 => exact .inr (.inr ⟨.operation alu x y d1, rfl⟩)
    case dspMVI dest imm width cond => exact .inr (.inr ⟨.mvi dest imm width cond, rfl⟩)
    case dspDMA toD0 hold count ram inc => exact .inr (.inr ⟨.dma toD0 hold count ram inc, rfl⟩)
    case dspJMP cond target => exact .inr (.inr ⟨.jmp cond target, rfl⟩)
    case dspLPS => exact .inr (.inr ⟨.lps, rfl⟩)
    case dspBTM => exact .inr (.inr ⟨.btm, rfl⟩)
    case dspEND => exact .inr (.inr ⟨.programEnd, rfl⟩)
    case dspENDI => exact .inr (.inr ⟨.programEndi, rfl⟩)
    case dspInvalid => exact .inr (.inr ⟨.invalid, rfl⟩)
    all_goals cases h
  · rintro (rfl | ⟨image, rfl⟩ | ⟨d, rfl⟩)
    · rfl
    · rfl
    · cases d <;> rfl

/-- Settles O2, header byte by header byte: each reader has taken exactly the encoding of its operand, so what was taken is the
operation's record. -/
theorem encodeOfDecodeIsTheRecord : Obligations.EncodeOfDecodeIsTheRecord := by
  intro bytes rest i h
  cases bytes with
  | nil => cases h
  | cons op bs =>
    have hop : op = BitVec.ofNat 8 op.toNat := by simp
    simp only [decode] at h
    generalize op.toNat = n at h hop
    subst hop
    unfold decodeOperands at h
    split at h
    all_goals
      simp only [readThen_eq_ok, readIndex_eq_ok, readByte_eq_ok, readWord_eq_ok, readCycles_eq_ok, readBool_eq_ok,
        readLevel_eq_ok, readSignal_eq_ok, readTrigger_eq_ok, readResetKind_eq_ok, Except.ok.injEq, Prod.mk.injEq,
        reduceCtorEq] at h
    all_goals grind [Instr.wf, Instr.canonical, encode]

/-- Settles O3 by evaluating the decoder on the printed records. -/
theorem printedRecordsDecodeAsPrinted : Obligations.PrintedRecordsDecodeAsPrinted := by
  unfold Obligations.PrintedRecordsDecodeAsPrinted
  decide

/-! ## Numbers that are not listed (R71) -/

/-- Below 256, the numbers R63 does not list name no signal. -/
theorem Signal.ofNumber_eq_none {n : Nat} (h : 8 < n) (h' : n < 16 ∨ 31 < n) : Signal.ofNumber n = none := by
  rw [← Option.not_isSome_iff_eq_none, Option.isSome_iff_exists]
  rintro ⟨sig, hsig⟩
  rw [Signal.ofNumber_eq_some] at hsig
  cases sig with
  | external k =>
    have := k.isLt
    simp only [Signal.number] at hsig
    omega
  | _ =>
    simp only [Signal.number] at hsig
    omega

/-- Settles O4: an unlisted header byte matches no arm of the decoder, and the three enumerations' readers refuse what they do
not name. -/
theorem unlistedNumbersAreRefused : Obligations.UnlistedNumbersAreRefused := by
  refine ⟨fun op rest hop => ?_, fun n rest hlow hhigh => ?_, fun ch n rest hlow hhigh hff => ?_, fun n rest hn => ?_⟩
  · have hback : op = BitVec.ofNat 8 op.toNat := by simp
    simp only [decode]
    generalize op.toNat = k at hback ⊢
    subst hback
    unfold decodeOperands
    split
    case h_29 => rfl
    all_goals exact absurd hop (by decide)
  · simp [decode, decodeOperands, readSignal, readByte, Signal.ofNumber_eq_none hlow hhigh]
  · have hff' : n.toNat ≠ 0xFF := fun h => hff (BitVec.eq_of_toNat_eq h)
    simp [decode, decodeOperands, readIndex, readTrigger, readByte, TriggerSource.ofNumber, hff',
      Signal.ofNumber_eq_none hlow hhigh]
  · have h0 : n ≠ 0 := by rintro rfl; simp at hn
    have h1 : n ≠ 1 := by rintro rfl; simp at hn
    have refused : readResetKind (n :: rest) = .error (.badResetKind n) := by
      simp only [readResetKind, readByte, readThen_ok, if_neg h0, if_neg h1]
    simp [decode, decodeOperands, refused]

end Sys2Proof
end

section
/-! PROOF. The scheduler (40_scheduler.md): arming, periods and cancelling, which event fires next, what `AdvanceTo` fires. -/

namespace Sys2Proof.Machine

open Sys2Proof.Claims

/-! ## Schedule, SetEventPeriod, Cancel -/

theorem State.knowsEvent_iff (s : State) (id : Nat) : s.knowsEvent id = true ↔ Known s id := by
  cases h : s.cfg.registered[id]? <;> simp [State.knowsEvent, Known, h]

/-- Writing slot `id` writes that slot of the event table and nothing else. -/
theorem State.setSlot_writes {s : State} {id : Nat} (hid : id < s.sched.ev.length) (e : EventSlot) :
    (s.setSlot id e).sched.ev[id]? = some e ∧ (∀ j, j ≠ id → (s.setSlot id e).sched.ev[j]? = s.sched.ev[j]?) ∧
      s.setSlot id e = { s with sched := { s.sched with ev := (s.setSlot id e).sched.ev } } :=
  ⟨by simp [hid], fun j hj => by simp [hj.symm], rfl⟩

theorem State.slot_of_getElem? {s : State} {id : Nat} {e : EventSlot} (h : s.sched.ev[id]? = some e) : s.slot id = e := by
  simp [State.slot, h]

/-- Settles O16: the two violations are the two guards of `Schedule`; past them it writes one slot. -/
theorem scheduleArmsTheSlot : Obligations.ScheduleArmsTheSlot := by
  intro s id delayCycles periodic
  have unfolded : exec (.schedule id delayCycles periodic) s = execSchedule id delayCycles periodic s := rfl
  simp only [unfolded, execSchedule, ← State.knowsEvent_iff]
  refine ⟨fun hunknown => ?_, fun e hknown he => ?_⟩
  · rw [if_neg hunknown, raiseViolation_eq_faulted]
  · rw [if_pos hknown, State.slot_of_getElem? he]
    have guard : (periodic && (decide (e.countNumerator = 0) || decide (e.countDenominator = 0))) = true ↔
        periodic = true ∧ (e.countNumerator = 0 ∨ e.countDenominator = 0) := by simp
    refine ⟨fun hbad => ?_, fun hgood => ?_⟩
    · rw [if_pos (guard.2 hbad), raiseViolation_eq_faulted]
    · rw [if_neg (mt guard.1 hgood)]
      exact ⟨_, rfl, State.setSlot_writes ((State.knowsEvent_iff s id).1 hknown).1 _⟩

/-- Settles O17: the two violations are the two guards of `SetEventPeriod`; past them it writes one slot. -/
theorem setEventPeriodWritesThePeriod : Obligations.SetEventPeriodWritesThePeriod := by
  intro s id num den
  have unfolded : exec (.setEventPeriod id num den) s = execSetEventPeriod id num den s := rfl
  simp only [unfolded, execSetEventPeriod, ← State.knowsEvent_iff]
  refine ⟨fun hunknown => ?_, fun e hknown he => ?_⟩
  · rw [if_neg hunknown, raiseViolation_eq_faulted]
  · rw [if_pos hknown, State.slot_of_getElem? he]
    refine ⟨fun hbad => ?_, fun hgood => ?_⟩
    · rw [if_pos hbad, raiseViolation_eq_faulted]
    · rw [if_neg hgood]
      exact ⟨_, rfl, State.setSlot_writes ((State.knowsEvent_iff s id).1 hknown).1 _⟩

/-- Settles O18: an unknown event violates; a known one has its slot written. -/
theorem cancelClearsTheSlot : Obligations.CancelClearsTheSlot := by
  intro s id
  have unfolded : exec (.cancel id) s = execCancel id s := rfl
  simp only [unfolded, execCancel, ← State.knowsEvent_iff]
  refine ⟨fun hunknown => ?_, fun e hknown he => ?_⟩
  · rw [if_neg hunknown, raiseViolation_eq_faulted]
  · rw [if_pos hknown, State.slot_of_getElem? he]
    exact ⟨_, rfl, State.setSlot_writes ((State.knowsEvent_iff s id).1 hknown).1 _⟩

/-! ## Which event fires next (R84) -/

/-- Settles O20: `nextDue_spec` is one direction; the order by age and id is total, so only the slot chosen meets the
condition. -/
theorem earliestTargetThenLeastIdFiresFirst : Obligations.EarliestTargetThenLeastIdFiresFirst := by
  intro cycle ev
  have due_of_live (f : EventSlot) (hlive : f.live = true) (hage : age f.target cycle < 2 ^ 63) :
      EventSlot.isDue f cycle = true := EventSlot.isDue_iff.2 ⟨hlive, hage⟩
  have chosen (id : Nat) (e : EventSlot) (h : nextDue cycle 0 ev = some (id, e)) :
      ev[id]? = some e ∧ (e.live = true ∧ age e.target cycle < 2 ^ 63) ∧
        ∀ j f, ev[j]? = some f → f.live = true → age f.target cycle < 2 ^ 63 →
          age f.target cycle < age e.target cycle ∨ (age f.target cycle = age e.target cycle ∧ id ≤ j) := by
    obtain ⟨-, hget, hdue, hbest⟩ := nextDue_spec cycle 0 ev id e h
    exact ⟨hget, EventSlot.isDue_iff.1 hdue, fun j f hj hlive hage => by
      simpa using hbest j f hj (due_of_live f hlive hage)⟩
  refine ⟨fun id e => ⟨chosen id e, ?_⟩, ?_⟩
  · rintro ⟨hget, ⟨hlive, hage⟩, hbest⟩
    cases hnext : nextDue cycle 0 ev with
    | none =>
      have := (nextDue_none_iff cycle 0 ev).1 hnext e (List.mem_of_getElem? hget)
      rw [due_of_live e hlive hage] at this
      cases this
    | some p =>
      obtain ⟨j, f⟩ := p
      obtain ⟨hget', ⟨hlive', hage'⟩, hbest'⟩ := chosen j f hnext
      have hle := hbest' id e hget hlive hage
      have hge := hbest j f hget' hlive' hage'
      have hid : j = id := by omega
      subst hid
      rw [hget] at hget'
      cases hget'
      rfl
  · rw [nextDue_none_iff]
    exact forall₂_congr fun e _ => EventSlot.isDue_eq_false

/-! ## AdvanceTo (R82) -/

theorem due_iff (t c : Cycles) : due t c = true ↔ age t c < 2 ^ 63 := by simp [due]

/-- With nothing due, or the mark set, the loop ends at once. -/
theorem dispatchDue_of_none {fuel : Nat} {cycle : Cycles} {s : State} (h : nextDue cycle 0 s.sched.ev = none) :
    dispatchDue (fuel + 1) cycle s = .next s := by
  unfold dispatchDue
  rw [h, ite_self]

theorem dispatchDue_of_fault {fuel : Nat} {cycle : Cycles} {s : State} (h : s.fault ≠ none) :
    dispatchDue (fuel + 1) cycle s = .next s := by
  unfold dispatchDue
  rw [if_pos (Option.isSome_iff_ne_none.2 h)]

/-- With an event due, the loop fires it and goes on. -/
theorem dispatchDue_of_some {fuel : Nat} {cycle : Cycles} {s : State} {id : Nat} {e : EventSlot} (hf : s.fault = none)
    (h : nextDue cycle 0 s.sched.ev = some (id, e)) :
    dispatchDue (fuel + 1) cycle s = andThen (fireEvent id e s) (dispatchDue fuel cycle) := by
  conv_lhs => unfold dispatchDue
  rw [hf, h]
  rfl

theorem execAdvanceTo_of_forward {s : State} {cycle : Cycles} (h : age s.sched.currCycle cycle < 2 ^ 63) :
    execAdvanceTo cycle s = dispatchDue (dispatchFuel s) cycle (s.setCurrCycle cycle) := by
  rw [execAdvanceTo, if_pos ((due_iff _ _).2 h)]

/-- Settles O19: the guard of `AdvanceTo` is R77's formula, and its loop ends at once when no live target is due. -/
theorem advanceToIsMonotonic : Obligations.AdvanceToIsMonotonic := by
  intro s cycle
  refine ⟨fun hback => ?_, fun hforward hnone => ?_⟩
  · have hnot : ¬ due s.sched.currCycle cycle = true := fun h => by
      have := (due_iff _ _).1 h
      rw [age] at this
      omega
    change execAdvanceTo cycle s = _
    rw [execAdvanceTo, if_neg hnot, raiseViolation_eq_faulted]
  · have hquiet : nextDue cycle 0 (s.setCurrCycle cycle).sched.ev = none :=
      (nextDue_none_iff _ _ _).2 fun e he => EventSlot.isDue_eq_false.2 (hnone e he)
    obtain ⟨fuel, hfuel⟩ := dispatchFuel_pos s
    change execAdvanceTo cycle s = _
    rw [execAdvanceTo_of_forward hforward, hfuel, dispatchDue_of_none hquiet]
    rfl

/-- `AdvanceTo` with an event due: it is fired, its handler seeing the state `firing`, and the loop goes on with one unit of
fuel less. -/
theorem execAdvanceTo_fires {s : State} {cycle : Cycles} {id : Nat} {e : EventSlot} (hf : s.fault = none)
    (h : age s.sched.currCycle cycle < 2 ^ 63) (hnext : nextDue cycle 0 s.sched.ev = some (id, e)) :
    ∃ fuel, dispatchFuel s = fuel + 2 ∧ exec (.advanceTo cycle) s =
      andThen (performAll ((firing s cycle id e).handlerOps id e.target) (firing s cycle id e))
        (dispatchDue (fuel + 1) cycle) := by
  obtain ⟨fuel, hfuel⟩ := dispatchFuel_pos s
  refine ⟨fuel, hfuel, ?_⟩
  change execAdvanceTo cycle s = _
  rw [execAdvanceTo_of_forward h, hfuel, dispatchDue_of_some (s := s.setCurrCycle cycle) hf hnext]
  rfl

/-- Settles O21: the handler leaves the counter at `cycle` and the number of slots, so the rest of the loop is `AdvanceTo` to
the same cycle from the handler's state, which has at least as much fuel. -/
theorem advanceToFiresOneEventAndGoesOn : Obligations.AdvanceToFiresOneEventAndGoesOn := by
  intro s u cycle id e hf hforward hnext hhandler
  obtain ⟨fuel, hfuel, hexec⟩ := execAdvanceTo_fires hf hforward hnext
  rw [hhandler, andThen_next] at hexec
  refine ⟨fun hu t ht => ?_, fun hu => by rw [hexec, dispatchDue_of_fault hu]⟩
  obtain ⟨hlength, hcycle⟩ := invokeHandler_keeps hhandler
  have hcycle : u.sched.currCycle = cycle := hcycle
  have hage : age u.sched.currCycle cycle < 2 ^ 63 := by simp [age, hcycle]
  have hu' : u.setCurrCycle cycle = u := by rw [State.setCurrCycle, ← hcycle]
  have hfuel' : dispatchFuel u = fuel + 2 := by
    rw [← hfuel, dispatchFuel, dispatchFuel, hlength]
    simp [firing]
  change execAdvanceTo cycle u = _
  rw [execAdvanceTo_of_forward hage, hu', hfuel']
  exact dispatchDue_mono (hexec.symm.trans ht) (by omega)

/-- What the loop leaves with quiet handlers: each slot fired as long as it was due, nothing else changed. -/
def FiredOut (cycle : Cycles) (s t : State) : Prop :=
  t = { s with sched := { s.sched with ev := t.sched.ev } } ∧ t.sched.ev.length = s.sched.ev.length ∧
    ∀ (id : Nat) (e : EventSlot), s.sched.ev[id]? = some e → ∃ k : Nat, t.sched.ev[id]? = some (EventSlot.fired^[k] e) ∧
      EventSlot.isDue (EventSlot.fired^[k] e) cycle = false ∧
      ∀ j < k, EventSlot.isDue (EventSlot.fired^[j] e) cycle = true

/-- Firing a due slot first, and then all slots as long as they are due, fires each as long as it is due. -/
theorem FiredOut.of_fired {cycle : Cycles} {s t : State} {id : Nat} {e : EventSlot} (hget : s.sched.ev[id]? = some e)
    (hdue : EventSlot.isDue e cycle = true) (h : FiredOut cycle (s.setSlot id (EventSlot.fired e)) t) :
    FiredOut cycle s t := by
  obtain ⟨heq, hlength, hslots⟩ := h
  refine ⟨heq, by simpa using hlength, fun j f hj => ?_⟩
  obtain ⟨hlt, -⟩ := List.getElem?_eq_some_iff.1 hget
  obtain ⟨hself, hother, -⟩ := State.setSlot_writes hlt (EventSlot.fired e)
  by_cases hji : j = id
  · subst hji
    rw [hget] at hj
    cases hj
    obtain ⟨k, hk, hend, hall⟩ := hslots j _ hself
    rw [← Function.iterate_succ_apply] at hk hend
    refine ⟨k + 1, hk, hend, fun i hi => ?_⟩
    cases i with
    | zero => exact hdue
    | succ i => exact hall i (by omega)
  · exact hslots j f ((hother j hji).trans hj)

/-- With quiet handlers and bounded slots, fuel above the total left to fire is enough (R88). -/
theorem dispatchDue_quiet {cycle : Cycles} (fuel : Nat) {s : State} (hf : s.fault = none) (hq : s.QuietHandlers)
    (hb : ∀ e ∈ s.sched.ev, EventSlot.Bounded e)
    (hfuel : (s.sched.ev.map (EventSlot.leftToFire cycle)).sum < fuel) :
    ∃ t, dispatchDue fuel cycle s = .next t ∧ FiredOut cycle s t := by
  induction fuel generalizing s with
  | zero => omega
  | succ fuel ih =>
    cases hnext : nextDue cycle 0 s.sched.ev with
    | none =>
      refine ⟨s, dispatchDue_of_none hnext, rfl, rfl, fun id e he => ⟨0, he, ?_, by simp⟩⟩
      exact (nextDue_none_iff _ _ _).1 hnext e (List.mem_of_getElem? he)
    | some p =>
      obtain ⟨id, e⟩ := p
      obtain ⟨-, hget, hdue, -⟩ := nextDue_spec cycle 0 _ id e hnext
      rw [Nat.sub_zero] at hget
      have hbe := hb e (List.mem_of_getElem? hget)
      have hless := leftToFire_sum_set cycle _ id e _ hget (EventSlot.leftToFire_fired hbe hdue)
      obtain ⟨t, ht, hout⟩ := ih (s := s.setSlot id (EventSlot.fired e)) hf hq
        (fun f hmem => by
          rcases List.mem_or_eq_of_mem_set hmem with hold | rfl
          · exact hb f hold
          · exact EventSlot.bounded_fired hbe)
        (Nat.lt_of_lt_of_le hless (Nat.le_of_lt_succ hfuel))
      refine ⟨t, ?_, hout.of_fired hget hdue⟩
      rw [dispatchDue_of_some hf hnext, fireEvent_quiet hq, andThen_next, ht]

/-- A valid slot whose period is below 2^63 cycles is bounded. -/
theorem EventSlot.bounded_of_valid {i : Nat} {e : EventSlot} (h : EventSlot.valid i e = true)
    (hperiod : e.live = true → e.periodic = true → e.countNumerator.toNat < 2 ^ 63 * e.countDenominator.toNat) :
    EventSlot.Bounded e := by
  simp only [EventSlot.valid, Bool.and_eq_true, Bool.or_eq_true, Bool.not_eq_true', decide_eq_true_eq] at h
  obtain ⟨⟨⟨-, hden⟩, hrem⟩, hnum⟩ := h
  refine ⟨hden, hrem, fun hlive hper => ⟨?_, hperiod hlive hper⟩⟩
  simpa [hlive, hper] using hnum

/-- Settles O22: what is left to fire drops at every firing and starts below the fuel (`dispatchDue_quiet`). -/
theorem advanceToFiresEveryDueTargetOnce : Obligations.AdvanceToFiresEveryDueTargetOnce := by
  intro s cycle hinv hf hq hforward hperiod
  obtain ⟨hslots, -, -, -⟩ := hinv
  rw [slotsValid_iff] at hslots
  have bounded : ∀ e ∈ s.sched.ev, EventSlot.Bounded e := fun e he => by
    obtain ⟨j, hj⟩ := List.mem_iff_getElem?.1 he
    exact EventSlot.bounded_of_valid (hslots j e hj) (hperiod e he)
  have enough : (s.sched.ev.map (EventSlot.leftToFire cycle)).sum < dispatchFuel s := by
    have := leftToFire_sum_le cycle s.sched.ev
    rw [dispatchFuel]
    omega
  obtain ⟨t, ht, heq, hlength, hfired⟩ := dispatchDue_quiet (dispatchFuel s) (s := s.setCurrCycle cycle) hf hq bounded enough
  exact ⟨t, (execAdvanceTo_of_forward hforward).trans ht, heq, hlength, hfired⟩

/-! ## Periodic events (R85) -/

/-- One more period: the quotient takes up what the remainder carried. -/
theorem div_add_carry (a n d : Nat) (hd : 0 < d) : a / d + (n + a % d) / d = (a + n) / d ∧ (n + a % d) % d = (a + n) % d := by
  have split : a + n = n + a % d + d * (a / d) := by
    have := Nat.mod_add_div a d
    omega
  rw [split, Nat.add_mul_div_left _ _ hd, Nat.add_mul_mod_self_left]
  exact ⟨Nat.add_comm _ _, rfl⟩

/-- Settles O23 by induction on the firings: the carried remainder makes the quotients add up. -/
theorem periodicTargetsAreDriftFree : Obligations.PeriodicTargetsAreDriftFree := by
  intro e hden
  refine ⟨fun hper hrem k => ?_, fun hone => by simp [EventSlot.fired, hone]⟩
  induction k with
  | zero => simpa using congrArg (fun r => { e with remainder := r }) hrem
  | succ k ih =>
    obtain ⟨hquot, hmod⟩ := div_add_carry (k * e.countNumerator.toNat) e.countNumerator.toNat e.countDenominator.toNat hden
    have hsmall : (BitVec.ofNat 64 (k * e.countNumerator.toNat % e.countDenominator.toNat)).toNat =
        k * e.countNumerator.toNat % e.countDenominator.toNat := by
      have := Nat.mod_lt (k * e.countNumerator.toNat) hden
      have := e.countDenominator.isLt
      rw [BitVec.toNat_ofNat, Nat.mod_eq_of_lt (by omega)]
    rw [Function.iterate_succ_apply', ih]
    simp only [EventSlot.fired, hper, if_true, hsmall, hmod, BitVec.add_assoc, ← BitVec.ofNat_add, hquot, Nat.succ_mul]

end Sys2Proof.Machine
end

section
/-! PROOF. The step and its agents (00_scope.md R11, 43_system.md R149 to R152, 60_exceptions.md R181), and handlers
(40_scheduler.md R86). -/

namespace Sys2Proof.Machine

open Sys2Proof.Claims

/-! ## The model's checks in the words of the statements -/

theorem boundaryOnly_iff (i : Instr) : boundaryOnly i = true ↔ Boundary i := by
  cases i <;> simp [boundaryOnly, Boundary]

theorem betweenStepsOnly_iff (i : Instr) : betweenStepsOnly i = true ↔ BetweenSteps i := by
  cases i <;> simp [betweenStepsOnly, boundaryOnly, BetweenSteps]

theorem postsAudio_iff (i : Instr) : postsAudio i = true ↔ ∃ source level, i = .postAudioInterrupt source level := by
  cases i <;> simp [postsAudio]

/-- A call at the head of the queue is the operation fetched. -/
theorem fetch_of_calls {s : State} {agent : Agent} {i : Instr} {q : List Issue} (h : Calls s agent i q) :
    fetch s.issue = .operation agent i q := by
  rcases h with h | ⟨bytes, rest, q', hdecode, h, rfl⟩
  · rw [h]; rfl
  · rw [h]
    cases rest <;> simp [fetch, hdecode]

/-- Who may perform an operation does (R143, R150, R152, R190). -/
theorem admission_of_admitted {s : State} {agent : Agent} {i : Instr} (h : Admitted s agent i) :
    admission s.inSystemStep agent i = .perform := by
  cases agent with
  | systemDriver =>
    have : (s.inSystemStep && betweenStepsOnly i) = false := by
      rw [Bool.and_eq_false_iff, ← Bool.not_eq_true, ← Bool.not_eq_true, betweenStepsOnly_iff, ← not_and_or]
      exact fun ⟨hin, hbetween⟩ => h hin hbetween
    simp [admission, this]
  | audioThread => simp [admission, (postsAudio_iff i).2 h]
  | masterSH2 | slaveSH2 | peripheral => simp [admission, mt (boundaryOnly_iff i).1 h]

/-- Settles O5: the call is what is fetched, and its agent may perform it. -/
theorem stepPerformsTheDecodedOperation : Obligations.StepPerformsTheDecodedOperation := by
  intro s agent i q hf hadmitted hcalls
  rw [step_of_operation hf (fetch_of_calls hcalls), admission_of_admitted hadmitted]

/-- Settles O8: the audio thread's admission is `postsAudio`. -/
theorem audioThreadOnlyPosts : Obligations.AudioThreadOnlyPosts := by
  intro s i q hf hcalls
  rw [step_of_operation hf (fetch_of_calls hcalls)]
  refine ⟨fun source level hi => ?_, fun hi => ?_⟩
  · simp [admission, (postsAudio_iff i).2 ⟨source, level, hi⟩]
  · have : ¬ postsAudio i = true := fun h => by
      obtain ⟨source, level, h⟩ := (postsAudio_iff i).1 h
      exact hi source level h
    simp [admission, this]

/-! ## Other heads of the queue -/

section
variable {s : State} {q : List Issue} (hf : s.fault = none)
include hf

theorem step_of_idle (h : s.issue = []) : step s = .next s := by simp [step, hf, h, fetch]

theorem step_of_undecodable {agent : Agent} {bytes : List Byte} {e : DecodeError}
    (h : s.issue = .call agent (.record bytes) :: q) (he : decode bytes = .error e) :
    step s = .refused (.undecodable e) := by simp [step, hf, h, fetch, he]

theorem step_of_round {r : SystemStep} (h : s.issue = .systemStep r :: q) :
    step s = .next ((s.setInSystemStep true).setIssue (expandRound s.sched.currCycle r ++ q)) := by
  simp [step, hf, h, fetch]

theorem step_of_roundEnd (h : s.issue = .systemStepEnd :: q) : step s = .next ((s.setInSystemStep false).setIssue q) := by
  simp [step, hf, h, fetch]

theorem step_of_busStore {a : Word} {bytes : List Byte} (h : s.issue = .busStore a bytes :: q) :
    step s = busStore a bytes (s.setIssue q) := by simp [step, hf, h, fetch]

theorem step_of_busLoad {a : Word} {n : Nat} (h : s.issue = .busLoad a n :: q) :
    step s = busLoad a n (s.setIssue q) := by simp [step, hf, h, fetch]

end

theorem not_offWindow {s : State} {a : Word} {n : Nat} (h : ¬ s.OffWindow a n) : Params.touchesWindow s.cfg a n = true := by
  simpa [State.OffWindow] using h

/-- An access of another width that touches the register window is refused (U7). -/
theorem memWrite_misaligned {s : State} {p : Performer} {a : Word} {bytes : List Byte} (h : ¬ s.OffWindow a bytes.length)
    (hlength : bytes.length ≠ 4) : memWrite p a bytes s = .refused .misalignedRegisterAccess := by
  rw [memWrite, if_pos (not_offWindow h), if_neg hlength]

theorem memRead_misaligned {s : State} {p : Performer} {a : Word} {n : Nat} (h : ¬ s.OffWindow a n) (hn : n ≠ 4) :
    memRead p a n s = .refused .misalignedRegisterAccess := by
  rw [memRead, if_pos (not_offWindow h), if_neg hn]

/-- A store of another bus master outside the register window (R41). -/
theorem busStore_stores {s : State} {a : Word} {bytes : List Byte} (h : s.OffWindow a bytes.length) :
    ∃ t, busStore a bytes s = .next t ∧ t = { s with mem := t.mem } ∧
      (∀ b, (∀ j < bytes.length, b ≠ (busAddr a j).toNat) → Memory.read t.mem b = Memory.read s.mem b) ∧
      (Plain s a bytes.length → bytes.length ≤ 2 ^ 32 → Memory.wf s.mem = true →
        ∀ j, (h : j < bytes.length) → Memory.read t.mem (busAddr a j).toNat = bytes[j]) := by
  obtain ⟨m, hm, hframe, -⟩ := writeBusBytes_spec a bytes s
  refine ⟨writeBusBytes a bytes s, busStore_offWindow h, by rw [hm]; rfl, by rw [hm]; exact hframe, ?_⟩
  exact fun hplain hlength hwf j hj =>
    writeBusBytes_read a bytes s hwf hplain hlength j _ (List.getElem?_eq_getElem hj)

/-- A load of another bus master outside the register window (R41). -/
theorem busLoad_loads {s : State} {a : Word} {n : Nat} (h : s.OffWindow a n) :
    ∃ t, busLoad a n s = .next t ∧ t = { s with freeCount := t.freeCount } ∧ (Plain s a n → t.freeCount = s.freeCount) :=
  ⟨_, busLoad_offWindow h, readBusBytes_state n a s, fun hplain => by rw [readBusBytes_of_plain n a s hplain]⟩

/-- Settles O6, head by head. -/
theorem stepOnEveryOtherHead : Obligations.StepOnEveryOtherHead := by
  refine ⟨fun s r hf => by rw [step, hf], fun s hf h => step_of_idle hf h,
    fun s agent bytes q e hf h he => step_of_undecodable hf h he, fun s r q hf h => ?_, fun s q hf h => step_of_roundEnd hf h,
    fun s a bytes q hf h => ?_, fun s a n q hf h => ?_⟩
  · rw [step_of_round hf h]
    simp [expandRound, cpuStep, State.setIssue, State.setInSystemStep]
  · rw [step_of_busStore hf h]
    refine ⟨fun hoff => ?_, fun hin => ⟨fun hlength => memWrite_misaligned (s := s.setIssue q) hin hlength, ?_⟩⟩
    · obtain ⟨t, ht, heq, hrest⟩ := busStore_stores (s := s.setIssue q) hoff
      exact ⟨t, ht, heq, hrest⟩
    · rintro v rfl
      rw [wordBytes_length] at hin
      exact busStore_window (s := s.setIssue q) (not_offWindow hin)
  · rw [step_of_busLoad hf h]
    refine ⟨fun hoff => ?_, fun hin => ⟨fun hn => ?_, ?_⟩⟩
    · obtain ⟨t, ht, heq, hrest⟩ := busLoad_loads (s := s.setIssue q) hoff
      exact ⟨t, ht, heq, hrest⟩
    · rw [busLoad, memRead_misaligned (s := s.setIssue q) hin hn, andThen_refused]
    · rintro rfl
      exact busLoad_window (s := s.setIssue q) (not_offWindow hin)

/-! ## Boundary operations (R86, R152) -/

/-- A CPU, a peripheral, and the driver inside a system step violate with a boundary operation. -/
theorem admission_of_boundary {s : State} {agent : Agent} {i : Instr} (hi : Boundary i)
    (h : agent = .masterSH2 ∨ agent = .slaveSH2 ∨ agent = .peripheral ∨
      (agent = .systemDriver ∧ s.inSystemStep = true ∧ BetweenSteps i)) :
    admission s.inSystemStep agent i = .violate .reentrant := by
  rcases h with rfl | rfl | rfl | ⟨rfl, hin, hbetween⟩
  case inr.inr.inr => simp [admission, hin, (betweenStepsOnly_iff i).2 hbetween]
  all_goals simp [admission, (boundaryOnly_iff i).2 hi]

/-- A boundary operation ends the handler that reaches it, with the mark set (R86). -/
theorem performAll_boundary {i : Instr} (hi : Boundary i) {before : List Instr} (after : List Instr) {s u : State}
    (h : performAll before s = .next u) (hu : u.fault = none) :
    performAll (before ++ i :: after) s = .next (faulted u .reentrant) := by
  have marked : (faulted u .reentrant).fault.isSome = true := rfl
  rw [performAll_append _ _ h hu, performAll, performNested_of_boundaryOnly ((boundaryOnly_iff i).2 hi), andThen_next,
    State.markFault_eq]
  exact if_pos marked

/-- Settles O7: by its admission outside, by `performAll_boundary` in a handler, whose mark then ends the loop of
`AdvanceTo`. -/
theorem boundaryOperationsAreReentrantInside : Obligations.BoundaryOperationsAreReentrantInside := by
  intro i hi
  refine ⟨fun s agent q hf hagent hcalls => ?_, fun s u before after h hu => performAll_boundary hi after h hu,
    fun s u cycle id e before after hf hforward hnext hops h hu => ?_⟩
  · rw [step_of_operation hf (fetch_of_calls hcalls), admission_of_boundary hi hagent]
    exact raiseViolation_eq_faulted _ _
  · obtain ⟨fuel, -, hexec⟩ := execAdvanceTo_fires hf hforward hnext
    rw [hexec, hops, performAll_boundary hi after h hu, andThen_next]
    exact dispatchDue_of_fault (by simp [faulted])

/-! ## Handlers -/

/-- Settles O60: the tree's equations, its independence of everything but image and memory (`HandlerAction.ops_congr`), and the
equation of `performAll` for an operation that is no boundary operation. -/
theorem handlersChooseAndPerformTheirOperations : Obligations.HandlersChooseAndPerformTheirOperations := by
  refine ⟨fun s id target => ⟨fun h => State.handlerOps_of_none h target, fun h hh => State.handlerOps_of_some hh target⟩,
    fun s s' id target hh hi hm => ?_, fun s id target c op yes no => ⟨rfl, ?_, fun i => rfl, fun ch => rfl, fun j e he => ?_⟩,
    fun s u i is => ⟨rfl, fun hi hexec => ?_⟩⟩
  · cases h : s.cfg.handlers[id]? with
    | none => rw [State.handlerOps_of_none h, State.handlerOps_of_none (hh ▸ h)]
    | some action =>
      rw [State.handlerOps_of_some h, State.handlerOps_of_some (hh ▸ h), HandlerAction.ops_congr action hi hm]
  · simp [HandlerAction.ops, HandlerTest.holds]
  · simp only [HandlerAction.ops, HandlerTest.holds, State.slot_of_getElem? he]
  · have hi : boundaryOnly i = false := by simpa using mt (boundaryOnly_iff i).1 hi
    rw [exec_eq_nested i s hi] at hexec
    rw [performAll, hexec, andThen_next]
    refine ⟨fun hu => by simp [hu], fun hu => ?_⟩
    rw [if_pos (Option.isSome_iff_ne_none.2 hu)]

end Sys2Proof.Machine
end

section
/-! PROOF. Rules of the whole machine (10_state.md, 20_memory.md): what every step keeps, and which operations may change
what. An operation but Reset and LoadState is a chain of elementary effects (`exec_effects`), so each rule says what one effect does. -/

namespace Sys2Proof.Machine

open Sys2Proof.Claims

/-! ## What each kind of effect leaves -/

namespace Effects

variable {ks : List Kind} {s t : State}

theorem cfg_eq (h : Effects ks s t) : t.cfg = s.cfg :=
  h.same State.cfg fun _ _ _ _ e => by cases e <;> simp [raise_eq, acknowledge_eq, setMask]

theorem events_length (h : Effects ks s t) : t.sched.ev.length = s.sched.ev.length :=
  h.same (fun s => s.sched.ev.length) fun _ _ _ _ e => by cases e <;> simp [raise_eq, acknowledge_eq, setMask]

/-- No effect clears or replaces a mark that is set (R32). -/
theorem fault_sticky {r : ViolationReason} (h : Effects ks s t) (hs : s.fault = some r) : t.fault = some r :=
  h.keeps (P := fun s => s.fault = some r)
    (fun _ _ _ _ e ha => by
      cases e with
      | fault => exact State.markFault_fault_of_some ha _
      | _ => simpa [raise_eq, acknowledge_eq, setMask] using ha) hs

theorem inv (h : Effects ks s t) (hs : s.Inv) : t.Inv := h.keeps (fun _ _ _ _ e => effect_inv e) hs

/-- A status bit falls by an acknowledge only. -/
theorem status_rises (h : Effects ks s t) (hk : Kind.acknowledge ∉ ks) (j : SourceIndex)
    (hs : s.intr.status.getLsbD j = true) : t.intr.status.getLsbD j = true := by
  refine h.keeps (P := fun s => s.intr.status.getLsbD j = true) (fun k hmem a b e ha => ?_) hs
  cases e with
  | acknowledge => exact absurd hmem hk
  | raise i l => rw [raise_eq, getLsbD_or_twoPow, ha, Bool.or_true]
  | _ => simpa [setMask] using ha

/-- A status bit rises by a raise only. -/
theorem status_falls (h : Effects ks s t) (hk : Kind.raise ∉ ks) (j : SourceIndex)
    (ht : t.intr.status.getLsbD j = true) : s.intr.status.getLsbD j = true := by
  by_contra hs
  refine absurd ht (h.keeps (P := fun s => ¬ s.intr.status.getLsbD j = true) (fun k hmem a b e ha => ?_) hs)
  cases e with
  | raise => exact absurd hmem hk
  | acknowledge i =>
    rw [acknowledge_eq, getLsbD_and_not_twoPow, Bool.and_eq_true]
    exact fun h => ha h.2
  | _ => simpa [setMask] using ha

theorem currCycle_eq (h : Effects ks s t) (hk : Kind.counter ∉ ks) : t.sched.currCycle = s.sched.currCycle :=
  h.same (fun s => s.sched.currCycle) fun k hmem a b e => by
    cases e with
    | counter => exact absurd hmem hk
    | _ => simp [raise_eq, acknowledge_eq, setMask]

theorem sched_eq (h : Effects ks s t) (hcounter : Kind.counter ∉ ks) (hslot : Kind.slot ∉ ks) : t.sched = s.sched :=
  h.same State.sched fun k hmem a b e => by
    cases e with
    | counter => exact absurd hmem hcounter
    | slot => exact absurd hmem hslot
    | _ => simp [raise_eq, acknowledge_eq, setMask]

theorem mem_eq (h : Effects ks s t) (hk : Kind.store ∉ ks) : t.mem = s.mem :=
  h.same State.mem fun k hmem a b e => by
    cases e with
    | store => exact absurd hmem hk
    | _ => simp [raise_eq, acknowledge_eq, setMask]

theorem freeCount_eq (h : Effects ks s t) (hk : Kind.free ∉ ks) : t.freeCount = s.freeCount :=
  h.same State.freeCount fun k hmem a b e => by
    cases e with
    | free => exact absurd hmem hk
    | _ => simp [raise_eq, acknowledge_eq, setMask]

end Effects

/-! ## Every step -/

/-- Settles O10 by evaluating the checks on the reset state. -/
theorem resetStateHasTheInvariants : Obligations.ResetStateHasTheInvariants :=
  ⟨by decide, by decide, by decide, by decide⟩

theorem EventSlot.valid_reset (i : Nat) : EventSlot.valid i (EventSlot.reset i) = true := by
  simp [EventSlot.valid, EventSlot.reset]

/-- A reset leaves reset slots at their indices, Disabled channels, and a PC that was in range or is 0 (R34). -/
theorem resetBlock_inv {s : State} (kind : ResetKind) (h : s.Inv) : (resetBlock kind s).Inv := by
  obtain ⟨hslots, -, hdsp, hmem⟩ := h
  refine ⟨?_, fun ch => ?_, ?_, hmem⟩
  · rw [slotsValid_iff] at hslots ⊢
    intro j e he
    simp only [resetBlock, List.getElem?_map, Option.map_eq_some_iff] at he
    obtain ⟨f, hf, rfl⟩ := he
    have hid : f.id = 0 + j := by
      have := hslots j f hf
      simp only [EventSlot.valid, Bool.and_eq_true, decide_eq_true_eq] at this
      exact this.1.1.1
    rw [hid]
    exact EventSlot.valid_reset _
  · simp [resetBlock, DmaChannel.valid, DmaChannel.reset]
  · cases kind with
    | hard => exact (by decide : Dsp.valid Dsp.reset = true)
    | soft => exact Dsp.valid_congr (d := s.dsp) rfl rfl hdsp

/-- A load keeps the invariants: it takes valid images only (R154). -/
theorem restore_inv {s : State} {image : Image} (haccepts : s.accepts image = true) (h : s.Inv) :
    ((s.restore image).setResult .ok).Inv := by
  rw [State.accepts, Bool.and_eq_true, Image.valid_iff] at haccepts
  obtain ⟨-, -, hslots, hdma, hdsp⟩ := haccepts
  obtain ⟨-, -, -, hmem⟩ := h
  exact ⟨hslots, hdma, hdsp, hmem⟩

theorem exec_inv {i : Instr} {s t : State} (h : exec i s = .next t) (hs : s.Inv) : t.Inv := by
  rcases exec_cases h with heffects | ⟨kind, -, rfl⟩ | ⟨image, -, ⟨haccepts, rfl⟩ | rfl⟩
  · exact heffects.inv hs
  · exact resetBlock_inv kind hs
  · exact restore_inv haccepts hs
  · exact hs

/-- Settles O9, over what a step can do (`step_cases`): every operation keeps the invariants, and so do the accesses of other
bus masters. -/
theorem stepKeepsTheInvariants : Obligations.StepKeepsTheInvariants := by
  intro s t hs h
  rcases step_cases h with ⟨b, q, rfl⟩ | rfl | ⟨q, r, rfl⟩ | ⟨a, bytes, q, hbus⟩ | ⟨a, n, q, hbus⟩ | ⟨i, q, hexec⟩
  · exact hs
  · exact hs
  · exact hs
  · exact (busStore_effects hbus).inv hs
  · exact (busLoad_effects hbus).inv hs
  · exact exec_inv hexec hs

theorem exec_parameters {i : Instr} {s t : State} (h : exec i s = .next t) :
    t.cfg = s.cfg ∧ t.sched.ev.length = s.sched.ev.length := by
  rcases exec_cases h with heffects | ⟨kind, -, rfl⟩ | ⟨image, -, ⟨haccepts, rfl⟩ | rfl⟩
  · exact ⟨heffects.cfg_eq, heffects.events_length⟩
  · exact ⟨rfl, by simp [resetBlock]⟩
  · rw [State.accepts, Bool.and_eq_true, Image.valid_iff] at haccepts
    obtain ⟨-, hlength, -⟩ := haccepts
    exact ⟨rfl, hlength⟩
  · exact ⟨rfl, rfl⟩

/-- Settles O11, over what a step can do (`step_cases`). -/
theorem parametersNeverChange : Obligations.ParametersNeverChange := by
  intro s t h
  rcases step_cases h with ⟨b, q, rfl⟩ | rfl | ⟨q, r, rfl⟩ | ⟨a, bytes, q, hbus⟩ | ⟨a, n, q, hbus⟩ | ⟨i, q, hexec⟩
  · exact ⟨rfl, rfl⟩
  · exact ⟨rfl, rfl⟩
  · exact ⟨rfl, rfl⟩
  · exact ⟨(busStore_effects hbus).cfg_eq, (busStore_effects hbus).events_length⟩
  · exact ⟨(busLoad_effects hbus).cfg_eq, (busLoad_effects hbus).events_length⟩
  · exact exec_parameters (s := s.setIssue q) hexec

/-! ## Every operation -/

/-- Settles O12: no effect touches a mark that is set, and neither do a reset and a load. -/
theorem faultMarkIsNeverClearedOrReplaced : Obligations.FaultMarkIsNeverClearedOrReplaced := by
  intro i s t r h hs
  rcases exec_cases h with heffects | ⟨kind, -, rfl⟩ | ⟨image, -, ⟨haccepts, rfl⟩ | rfl⟩
  · exact heffects.fault_sticky hs
  · exact hs
  · exact hs
  · exact hs

/-- A reset leaves every status bit clear (R34). -/
theorem resetBlock_status (kind : ResetKind) (s : State) (j : SourceIndex) :
    (resetBlock kind s).intr.status.getLsbD j = false := by simp [resetBlock, Intr.reset]

/-- Settles O13: the operations left have no acknowledge, or no raise, among their effects; a reset clears. -/
theorem statusBitsChangeOnlyByRaiseAndAcknowledge : Obligations.StatusBitsChangeOnlyByRaiseAndAcknowledge := by
  intro i s t h
  constructor
  · split
    case h_6 hack hvector hreset hload hadvance =>
      refine (exec_effects h hreset hload).status_rises ?_
      cases i <;> simp_all [Instr.stepKinds, Instr.kinds]
    all_goals trivial
  · split
    case h_14 hload hadvance =>
      by_cases hreset : ∃ kind, i = .reset kind
      · obtain ⟨kind, rfl⟩ := hreset
        cases h
        intro j hj
        rw [resetBlock_status] at hj
        cases hj
      · refine (exec_effects h (not_exists.1 hreset) hload).status_falls ?_
        cases i <;> simp_all [Instr.stepKinds, Instr.kinds]
    all_goals trivial

/-- Settles O14: the operations left have no counter effect, or no slot effect either. -/
theorem schedulerStateHasOneOwner : Obligations.SchedulerStateHasOneOwner := by
  intro i s t h
  split
  case h_7 hadvance hreset hload hschedule hperiod hcancel =>
    have heffects := exec_effects h hreset hload
    refine heffects.sched_eq ?_ ?_ <;> cases i <;> simp_all [Instr.stepKinds, Instr.kinds]
  case h_4 => exact (exec_effects h (by simp) (by simp)).currCycle_eq (by simp [Instr.stepKinds, Instr.kinds])
  case h_5 => exact (exec_effects h (by simp) (by simp)).currCycle_eq (by simp [Instr.stepKinds, Instr.kinds])
  case h_6 => exact (exec_effects h (by simp) (by simp)).currCycle_eq (by simp [Instr.stepKinds, Instr.kinds])
  all_goals trivial

/-! ## The bus (R42) -/

/-- The operation answers the same on every bus, leaves the bus as it is and takes no free value. -/
def BusBlind (op : State → Run) : Prop :=
  ∀ s t, op s = .next t → t.freeCount = s.freeCount ∧ ∀ m devices, op (onBus s m devices) = .next (onBus t m devices)

/-- An operation that commutes with the change of the bus, and whose effects take no free value, is blind to the bus. -/
theorem BusBlind.of_comm {op : State → Run} {ks : List Kind} (heffects : ∀ {s t}, op s = .next t → Effects ks s t)
    (hk : Kind.free ∉ ks) (hcomm : ∀ s m devices, op (onBus s m devices) = andThen (op s) fun t => .next (onBus t m devices)) :
    BusBlind op :=
  fun s t h => ⟨(heffects h).freeCount_eq hk, fun m devices => by rw [hcomm, h, andThen_next]⟩

theorem andThen_ite {α β : Type} (p : Prop) [Decidable p] (a b : Host.Outcome α Fault Refusal)
    (f : α → Host.Outcome β Fault Refusal) :
    andThen (if p then a else b) f = if p then andThen a f else andThen b f := by split <;> rfl

section
variable (s : State) (m : List Host.Cell) (devices : List Region)

@[simp] theorem onBus_knowsEvent (id : Nat) : (onBus s m devices).knowsEvent id = s.knowsEvent id := rfl
@[simp] theorem onBus_slot (id : Nat) : (onBus s m devices).slot id = s.slot id := rfl
@[simp] theorem onBus_sourceOfVector (v : Byte) : (onBus s m devices).sourceOfVector v = s.sourceOfVector v := rfl

theorem raise_onBus (i : SourceIndex) (level : Level) :
    raise i level (onBus s m devices) = onBus (raise i level s) m devices := by
  rw [raise_eq, raise_eq]; rfl

theorem acknowledge_onBus (i : SourceIndex) : acknowledge i (onBus s m devices) = onBus (acknowledge i s) m devices := by
  rw [acknowledge_eq, acknowledge_eq]; rfl

end

theorem execSchedule_busBlind (id : Nat) (delay : Cycles) (periodic : Bool) : BusBlind (execSchedule id delay periodic) := by
  refine .of_comm schedule_effects (by simp) fun s m devices => ?_
  simp only [execSchedule, onBus_knowsEvent, onBus_slot, andThen_ite]
  rfl

theorem execSetEventPeriod_busBlind (id : Nat) (num den : Cycles) : BusBlind (execSetEventPeriod id num den) := by
  refine .of_comm setEventPeriod_effects (by simp) fun s m devices => ?_
  simp only [execSetEventPeriod, onBus_knowsEvent, onBus_slot, andThen_ite]
  rfl

theorem execCancel_busBlind (id : Nat) : BusBlind (execCancel id) := by
  refine .of_comm cancel_effects (by simp) fun s m devices => ?_
  simp only [execCancel, onBus_knowsEvent, onBus_slot, andThen_ite]
  rfl

theorem execRaiseInterrupt_busBlind (source : Nat) (level : Level) : BusBlind (execRaiseInterrupt source level) := by
  refine .of_comm (performNested_effects (i := .raiseInterrupt source level)) (by simp [Instr.kinds]) fun s m devices => ?_
  unfold execRaiseInterrupt
  cases sourceOf source
  case some => simp only [raise_onBus, andThen_next]
  case none => rfl

theorem execAcknowledgeInterrupt_busBlind (source : Nat) : BusBlind (execAcknowledgeInterrupt source) := by
  refine .of_comm (performNested_effects (i := .acknowledgeInterrupt source)) (by simp [Instr.kinds]) fun s m devices => ?_
  unfold execAcknowledgeInterrupt
  cases sourceOf source
  case some => simp only [acknowledge_onBus, andThen_next]
  case none => rfl

theorem execAcknowledgeVector_busBlind (vector : Byte) : BusBlind (execAcknowledgeVector vector) := by
  refine .of_comm (performNested_effects (i := .acknowledgeVector vector)) (by simp [Instr.kinds]) fun s m devices => ?_
  simp only [execAcknowledgeVector, onBus_sourceOfVector]
  cases s.sourceOfVector vector
  case some => simp only [acknowledge_onBus, andThen_next]
  case none => rfl

/-- With quiet handlers the loop of `AdvanceTo` fires slots and nothing else. -/
theorem dispatchDue_onBus {fuel : Nat} {cycle : Cycles} {s t : State} (hq : s.QuietHandlers)
    (h : dispatchDue fuel cycle s = .next t) : t.mem = s.mem ∧ t.freeCount = s.freeCount ∧
      ∀ m devices, dispatchDue fuel cycle (onBus s m devices) = .next (onBus t m devices) := by
  induction fuel generalizing s with
  | zero => cases h
  | succ fuel ih =>
    by_cases hf : s.fault = none
    · cases hnext : nextDue cycle 0 s.sched.ev with
      | none =>
        rw [dispatchDue_of_none hnext] at h
        cases h
        exact ⟨rfl, rfl, fun m devices => dispatchDue_of_none hnext⟩
      | some p =>
        obtain ⟨id, e⟩ := p
        rw [dispatchDue_of_some hf hnext, fireEvent_quiet hq, andThen_next] at h
        obtain ⟨hmem, hfree, hbus⟩ := ih (s := s.setSlot id (EventSlot.fired e)) hq h
        refine ⟨hmem, hfree, fun m devices => ?_⟩
        rw [dispatchDue_of_some (s := onBus s m devices) hf hnext, fireEvent_quiet (s := onBus s m devices) hq, andThen_next]
        exact hbus m devices
    · rw [dispatchDue_of_fault hf] at h
      cases h
      exact ⟨rfl, rfl, fun m devices => dispatchDue_of_fault hf⟩

theorem execAdvanceTo_onBus {cycle : Cycles} {s t : State} (hq : s.QuietHandlers) (h : execAdvanceTo cycle s = .next t) :
    t.mem = s.mem ∧ t.freeCount = s.freeCount ∧
      ∀ m devices, execAdvanceTo cycle (onBus s m devices) = .next (onBus t m devices) := by
  by_cases hdue : due s.sched.currCycle cycle = true
  · rw [execAdvanceTo, if_pos hdue] at h
    obtain ⟨hmem, hfree, hbus⟩ := dispatchDue_onBus (s := s.setCurrCycle cycle) hq h
    exact ⟨hmem, hfree, fun m devices => (if_pos hdue).trans (hbus m devices)⟩
  · rw [execAdvanceTo, if_neg hdue] at h
    cases h
    exact ⟨rfl, rfl, fun m devices => if_neg hdue⟩

theorem execLoadState_mem {image : Image} {s t : State} (h : execLoadState image s = .next t) : t.mem = s.mem := by
  unfold execLoadState at h
  split at h <;> cases h <;> rfl

/-- Settles O15: the operations left have no store among their effects; the scheduler's and the interrupt controller's take no
free value, and none of their meanings reads the bus. -/
theorem onlyBusOperationsReachMemory : Obligations.OnlyBusOperationsReachMemory := by
  intro i s t h
  constructor
  · split
    case h_6 htick hscu hdsp hdma hadvance =>
      by_cases hreset : ∃ kind, i = .reset kind
      · obtain ⟨kind, rfl⟩ := hreset
        cases h
        rfl
      by_cases hload : ∃ image, i = .loadState image
      · obtain ⟨image, rfl⟩ := hload
        exact execLoadState_mem h
      refine (exec_effects h (not_exists.1 hreset) (not_exists.1 hload)).mem_eq ?_
      cases i
      case dspDMA => exact absurd rfl (hdma _ _ _ _ _)
      all_goals simp_all [Instr.stepKinds, Instr.kinds]
    all_goals trivial
  · cases i
    case schedule => exact execSchedule_busBlind _ _ _ s t h
    case setEventPeriod => exact execSetEventPeriod_busBlind _ _ _ s t h
    case cancel => exact execCancel_busBlind _ s t h
    case raiseInterrupt => exact execRaiseInterrupt_busBlind _ _ s t h
    case acknowledgeInterrupt => exact execAcknowledgeInterrupt_busBlind _ s t h
    case acknowledgeVector => exact execAcknowledgeVector_busBlind _ s t h
    case advanceTo => exact fun hq => execAdvanceTo_onBus hq h
    case getInterruptMask | setInterruptMask | getInterruptStatus | writeInterruptStatus | getPendingInterruptLevel |
        getPendingInterruptVector | getPendingInterrupt =>
      cases h
      exact ⟨rfl, fun m devices => rfl⟩
    all_goals trivial

end Sys2Proof.Machine
end

section
/-! PROOF. The interrupt controller's own operations (41_interrupt.md): a raise, an acknowledge by vector, the registers, the
pending pair. -/

namespace Sys2Proof.Machine

open Sys2Proof.Claims

/-- What a raise does to the interrupt registers, in the words of the statements (R97). -/
theorem raised_raise (i : SourceIndex) (level : Level) (s : State) : Raised i level s.intr (raise i level s).intr := by
  rw [raise_eq]
  exact ⟨fun j => getLsbD_or_twoPow _ i j, fun j => getElem_level_set _ i j level, rfl⟩

/-- A raise changes the interrupt registers and the trace (R97). -/
theorem raise_frame (i : SourceIndex) (level : Level) (s : State) :
    raise i level s = { s with intr := (raise i level s).intr, traceLog := traced s (.raiseInterrupt i level) } := by
  rw [raise_eq, traced]

/-- Settles O24: a source above 31 violates; a source in range is raised. -/
theorem raiseInterruptSetsStatusAndLevel : Obligations.RaiseInterruptSetsStatusAndLevel := by
  intro s level
  refine ⟨fun source hgt => ?_, fun source =>
    ⟨_, execRaiseInterrupt_val s source level, raised_raise source level s, raise_frame source level s⟩⟩
  change execRaiseInterrupt source level s = _
  rw [execRaiseInterrupt, sourceOf_of_gt hgt]
  exact raiseViolation_eq_faulted _ s

/-- The source found for a vector has that vector; none is found when no source has it. -/
theorem State.sourceOfVector_eq_some {s : State} {vector : Byte} {i : SourceIndex} (h : s.sourceOfVector vector = some i) :
    s.cfg.vectorOf[i] = vector :=
  of_decide_eq_true (List.find?_some h :)

theorem State.sourceOfVector_eq_none {s : State} {vector : Byte} :
    s.sourceOfVector vector = none ↔ ∀ i : SourceIndex, s.cfg.vectorOf[i] ≠ vector := by
  rw [State.sourceOfVector, List.find?_eq_none]
  exact ⟨fun h i hi => h i (List.mem_finRange i) (decide_eq_true hi), fun h i _ hi => h i (of_decide_eq_true hi)⟩

/-- Settles O26: with an injective table the source found for a vector is the one source that has it. -/
theorem acknowledgeVectorAcknowledgesItsSource : Obligations.AcknowledgeVectorAcknowledgesItsSource := by
  intro s vector hinj
  have unfolded : exec (.acknowledgeVector vector) s = execAcknowledgeVector vector s := rfl
  simp only [unfolded, execAcknowledgeVector]
  refine ⟨fun i hi => ⟨acknowledge i s, ?_, execAcknowledgeInterrupt_val s i⟩, fun hnone => ?_⟩
  · cases hfound : s.sourceOfVector vector with
    | none => exact absurd hi (State.sourceOfVector_eq_none.1 hfound i)
    | some j => rw [hinj j i ((State.sourceOfVector_eq_some hfound).trans hi.symm)]
  · rw [State.sourceOfVector_eq_none.2 hnone]

/-- Settles O27: each accessor is one read or one write, by definition. -/
theorem interruptRegisterAccessors : Obligations.InterruptRegisterAccessors :=
  fun _ _ => ⟨rfl, rfl, rfl, rfl⟩

/-- Settles O28: the reads return the level and the vector of the source selected, which is the visible one that ranks first. -/
theorem pendingPairIsTheHighestVisibleSource : Obligations.PendingPairIsTheHighestVisibleSource := by
  intro s
  have level_read : exec .getPendingInterruptLevel s = .next { s with result := .level s.pendingLevel } := rfl
  have vector_read : exec .getPendingInterruptVector s = .next { s with result := .vector s.pendingVector } := rfl
  have pair_read : exec .getPendingInterrupt s = .next { s with result := .pair s.pendingLevel s.pendingVector } := rfl
  rw [level_read, vector_read, pair_read]
  refine ⟨fun hnone => ?_, fun i hi hmax => ?_⟩
  · have selected : Intr.pendingSource s.intr = none :=
      (Intr.pendingSource_spec s.intr).1.2 fun i => by simpa using mt (Intr.visible_iff s i).1 (hnone i)
    rw [State.pendingLevel_of_none selected, State.pendingVector_of_none selected]
    exact ⟨rfl, rfl, rfl⟩
  · have selected := Intr.pendingSource_eq_some hi hmax
    rw [State.pendingLevel_of_some selected, State.pendingVector_of_some selected]
    exact ⟨rfl, rfl, rfl⟩

end Sys2Proof.Machine
end

section
/-! PROOF. Bytes and words on the bus (20_memory.md R44, R46). -/

namespace Sys2Proof.Machine

open Sys2Proof.Claims

/-- R44: the four bytes of a word, most significant first. -/
theorem wordBytes_eq (v : Word) :
    wordBytes v = [v.extractLsb' 24 8, v.extractLsb' 16 8, v.extractLsb' 8 8, v.extractLsb' 0 8] := by
  simp [wordBytes, beBytes, BitVec.extractLsb', Nat.shiftRight_eq_div_pow]

theorem toNat_append_byte {w : Nat} (x : BitVec w) (b : Byte) : (x ++ b).toNat = x.toNat * 256 + b.toNat := by
  rw [BitVec.toNat_append, ← Nat.shiftLeft_add_eq_or_of_lt b.isLt, Nat.shiftLeft_eq]

/-- Four bytes assemble to their concatenation. -/
theorem bytesWord_four (a b c d : Byte) : bytesWord [a, b, c, d] = a ++ b ++ c ++ d := by
  apply BitVec.eq_of_toNat_eq
  simp only [bytesWord, beNat, BitVec.toNat_ofNat, toNat_append_byte, List.length_cons, List.length_nil]
  omega

/-- The four bytes read from plain memory are its big-endian word (R44). -/
theorem bytesWord_range_four (m : List Host.Cell) (a : Word) :
    bytesWord ((List.range 4).map fun k => Memory.read m (busAddr a k).toNat) = wordAt m a := by
  have listed : (List.range 4).map (fun k => Memory.read m (busAddr a k).toNat) =
      [Memory.read m (busAddr a 0).toNat, Memory.read m (a + 1).toNat, Memory.read m (a + 2).toNat,
        Memory.read m (a + 3).toNat] := rfl
  rw [listed, bytesWord_four, busAddr_zero, wordAt]

/-- Settles O53: what `writeBusBytes` stores is what `readBusBytes` finds. -/
theorem busWritesReadBackBigEndian : Obligations.BusWritesReadBackBigEndian := by
  refine ⟨fun s p q a bytes hoff hplain hlength hwf => ?_, fun v => ⟨wordBytes_eq v, bytesWord_wordBytes v⟩⟩
  obtain ⟨m, hm, hframe, -⟩ := writeBusBytes_spec a bytes s
  have stored := writeBusBytes_read a bytes s hwf hplain hlength
  rw [hm] at stored
  refine ⟨s.setMem m, by rw [memWrite_offWindow hoff, hm], rfl, ?_, hframe⟩
  have read_back : (List.range bytes.length).map (fun k => Memory.read m (busAddr a k).toNat) = bytes := by
    refine List.ext_getElem (by simp) fun j hj hj' => ?_
    rw [List.getElem_map, List.getElem_range]
    exact stored j _ (List.getElem?_eq_getElem hj')
  rw [memRead_offWindow (s := s.setMem m) hoff, readBusBytes_of_plain _ _ (s.setMem m) hplain, State.setMem_mem, read_back]

end Sys2Proof.Machine
end

section
/-! PROOF. The DMA engine (42_dma.md): the set-up operations, the triggers that start a channel, what a tick does and what a
whole direct transfer does. -/

namespace Sys2Proof.Machine

open Sys2Proof.Claims

/-! ## Set-up and direct starts -/

theorem execSetAddressUpdate_val (s : State) (ch : Channel) (updateSrc updateDst : Bool) :
    execSetAddressUpdate ch.val updateSrc updateDst s =
      .next (s.setChannel ch (DmaChannel.setAddressUpdate s.dma[ch] updateSrc updateDst)) := by
  simp [execSetAddressUpdate]

theorem execSetEnabled_val (s : State) (ch : Channel) (enabled : Bool) :
    execSetEnabled ch.val enabled s = .next (s.setChannel ch (DmaChannel.setEnabled s.dma[ch] enabled)) := by
  simp [execSetEnabled]

theorem execTick_val (s : State) (ch : Channel) : execTick ch.val s = tickChannel ch s := by simp [execTick]

/-- Settles O32: a channel above 2 violates; on a channel in range the operation is one `setChannel`. -/
theorem setAddressUpdateWritesTheHoldFlags : Obligations.SetAddressUpdateWritesTheHoldFlags := by
  intro s updateSrc updateDst
  refine ⟨fun ch hgt => onChannel_of_gt_eq_faulted hgt s _, fun ch => ?_⟩
  exact ⟨_, execSetAddressUpdate_val s ch updateSrc updateDst, State.setChannel_self s ch _,
    fun c hne => State.setChannel_of_ne s _ hne, rfl⟩

/-- Settles O33: a channel above 2 violates; on a channel in range the operation is one `setChannel`. -/
theorem setEnabledEndsOnlyByDisable : Obligations.SetEnabledEndsOnlyByDisable := by
  intro s enabled
  refine ⟨fun ch hgt => onChannel_of_gt_eq_faulted hgt s _, fun ch => ?_⟩
  refine ⟨_, execSetEnabled_val s ch enabled, ?_, fun c hne => State.setChannel_of_ne s _ hne, rfl⟩
  rw [State.setChannel_self, DmaChannel.setEnabled]
  cases enabled <;> rfl

/-- A start in direct mode leaves the copy of R122. -/
theorem State.startDirect_of_startable {s : State} {ch : Channel} {ts : TriggerSource} (h : Startable s.dma[ch] ts) :
    s.startDirect ch ts = s.setChannel ch (started s.dma[ch]) :=
  if_pos ((DmaChannel.starts_iff _ _).2 h)

/-- Settles O35: a channel above 2 violates; a direct start is one `setChannel` of the copy. -/
theorem triggerStartsADirectTransfer : Obligations.TriggerStartsADirectTransfer := by
  intro s ts
  refine ⟨fun ch hgt => ⟨onChannel_of_gt_eq_faulted hgt s _, onChannel_of_gt_eq_faulted hgt s _⟩, fun ch hst hdirect => ?_⟩
  have answer : exec (.trigger ch ts) s = .next (s.setChannel ch (started s.dma[ch])) := by
    rw [← State.startDirect_of_startable hst, ← startChannel_of_direct fun _ => hdirect]
    exact execTrigger_val s ch ts
  refine ⟨_, answer, ?_, State.setChannel_self s ch _, fun c hne => State.setChannel_of_ne s _ hne, rfl⟩
  rintro rfl
  exact answer

/-! ## Descriptors -/

/-- A start in indirect mode fetches the first descriptor from `dstAddr` (R124). -/
theorem startChannel_of_indirect {s : State} {ch : Channel} {ts : TriggerSource} (hst : Startable s.dma[ch] ts)
    (hindirect : s.dma[ch].indirect = true) : startChannel ch ts s =
      fetchDescriptor ch (s.setChannel ch { started s.dma[ch] with currIndirectSrc := s.dma[ch].dstAddr }) := by
  unfold startChannel
  simp only [(DmaChannel.starts_iff _ _).2 hst, hindirect, if_true]
  rfl

/-- A descriptor fetch off the window on plain memory leaves the descriptor in the channel and nothing else. -/
theorem fetchDescriptor_plain {ch : Channel} {s t : State}
    (hoff : ∀ k : Fin 3, s.OffWindow (s.dma[ch].currIndirectSrc + BitVec.ofNat 32 (4 * k.val)) 4)
    (hplain : Plain s s.dma[ch].currIndirectSrc 12) (h : fetchDescriptor ch s = .next t) :
    Descriptor s.mem s.dma[ch].currIndirectSrc t.dma[ch] ∧ t = { s with dma := t.dma } := by
  obtain ⟨w0, w1, w2, f, hnext, hwords⟩ := fetchDescriptor_offWindow
    (by simpa [State.OffWindow] using hoff 0) (by simpa [State.OffWindow] using hoff 1)
    (by simpa [State.OffWindow] using hoff 2)
  obtain ⟨rfl, rfl, rfl, rfl⟩ := hwords hplain
  rw [h] at hnext
  cases hnext
  refine ⟨?_, rfl⟩
  simp only [bytesWord_range_four, DmaChannel.takeDescriptor_eq]
  simp [Descriptor]

/-- Settles O36: the start is a descriptor fetch from the copied channel, which answers when each word access does. -/
theorem triggerStartsAnIndirectTransfer : Obligations.TriggerStartsAnIndirectTransfer := by
  intro s ts ch hst hindirect hw0 hw1 hw2
  set u := s.setChannel ch { started s.dma[ch] with currIndirectSrc := s.dma[ch].dstAddr } with hu
  have hchannel : u.dma[ch] = { started s.dma[ch] with currIndirectSrc := s.dma[ch].dstAddr } := State.setChannel_self s ch _
  have hsrc : u.dma[ch].currIndirectSrc = s.dma[ch].dstAddr := by rw [hchannel]
  have exec_fetch : exec (.trigger ch ts) s = fetchDescriptor ch u :=
    (execTrigger_val s ch ts).trans (startChannel_of_indirect hst hindirect)
  obtain ⟨w0, w1, w2, d, f, hfetch⟩ := fetchDescriptor_answers (s := u) (ch := ch)
    (by rw [hsrc]; exact hw0) (by rw [hsrc]; exact hw1) (by rw [hsrc]; exact hw2)
  rw [hsrc, hchannel] at hfetch
  refine ⟨_, exec_fetch.trans hfetch, ?_, ?_, fun c hne => ?_, rfl, fun hoff hplain => ?_⟩
  · rintro rfl
    exact exec_fetch.trans hfetch
  · simp [DmaChannel.takeDescriptor_eq]
  · exact (State.setChannel_of_ne u _ hne).trans (State.setChannel_of_ne s _ hne)
  · have := fetchDescriptor_plain (s := u) (by rw [hsrc]; exact hoff) (by rw [hsrc]; exact hplain) hfetch
    rw [hsrc] at this
    exact this

/-! ## Units -/

theorem advance_iterate_eq_moved (n : Nat) (c : DmaChannel) : DmaChannel.advance^[n] c = moved c n :=
  DmaChannel.advance_iterate n c

theorem moved_zero (c : DmaChannel) : moved c 0 = c := (advance_iterate_eq_moved 0 c).symm

theorem moved_moved (c : DmaChannel) (a b : Nat) : moved (moved c a) b = moved c (b + a) := by
  rw [← advance_iterate_eq_moved, ← advance_iterate_eq_moved, ← advance_iterate_eq_moved, Function.iterate_add_apply]

theorem srcOf_moved (c : DmaChannel) (a k : Nat) : srcOf (moved c a) k = srcOf c (k + a) :=
  congrArg DmaChannel.currSrcAddr (moved_moved c a k)

theorem dstOf_moved (c : DmaChannel) (a k : Nat) : dstOf (moved c a) k = dstOf c (k + a) :=
  congrArg DmaChannel.currDstAddr (moved_moved c a k)

/-- One unit moved on plain memory is `copyUnit`. -/
theorem read_eq_copyUnit {size : Nat} {src dst : Word} {m m' : List Host.Cell}
    (hframe : ∀ a, (∀ j < size, a ≠ (busAddr dst j).toNat) → Memory.read m' a = Memory.read m a)
    (hdata : ∀ j < size, Memory.read m' (busAddr dst j).toNat = Memory.read m (busAddr src j).toNat) :
    Memory.read m' = copyUnit size src dst (Memory.read m) := by
  funext a
  unfold copyUnit
  split
  · rename_i hin
    obtain ⟨ha, hj⟩ := hin
    have hdst : (busAddr dst (BitVec.ofNat 32 a - dst).toNat).toNat = a := by
      rw [busAddr, BitVec.ofNat_toNat, BitVec.setWidth_eq, BitVec.add_comm, BitVec.sub_add_cancel, BitVec.toNat_ofNat,
        Nat.mod_eq_of_lt ha]
    have := hdata _ hj
    rw [hdst, busAddr, BitVec.ofNat_toNat, BitVec.setWidth_eq] at this
    exact this
  · rename_i hout
    refine hframe a fun j hj heq => hout ?_
    subst heq
    refine ⟨(busAddr dst j).isLt, ?_⟩
    have : BitVec.ofNat 32 (busAddr dst j).toNat - dst = BitVec.ofNat 32 j := by
      rw [BitVec.ofNat_toNat, BitVec.setWidth_eq, busAddr, BitVec.add_comm, BitVec.add_sub_cancel]
    rw [this, BitVec.toNat_ofNat]
    exact Nat.lt_of_le_of_lt (Nat.mod_le _ _) hj

/-- The forward copy of `n + 1` units is the first unit's and then that of the moved channel. -/
theorem copyUnits_succ (size : Nat) (c : DmaChannel) (n : Nat) (mem : Nat → Byte) :
    copyUnits size c (n + 1) mem = copyUnits size (moved c 1) n (copyUnit size (srcOf c 0) (dstOf c 0) mem) := by
  unfold copyUnits
  rw [List.range_succ_eq_map, List.foldl_cons, List.foldl_map]
  simp only [srcOf_moved, dstOf_moved]

/-- Both sides of the next `n` units are plain memory. -/
def UnitsPlain (s : State) (ch : Channel) (n : Nat) : Prop :=
  ∀ k < n, Plain s (srcOf s.dma[ch] k) s.cfg.dmaUnitBytes ∧ Plain s (dstOf s.dma[ch] k) s.cfg.dmaUnitBytes

/-- `n` units off the window, on plain memory in canonical form: memory becomes the forward copy (R50). -/
theorem unitTransfers_copies {ch : Channel} (n : Nat) {s t : State} (hoff : UnitsOffWindow s ch n) (hplain : UnitsPlain s ch n)
    (hsize : s.cfg.dmaUnitBytes ≤ 2 ^ 32) (hwf : Memory.wf s.mem = true) (h : unitTransfers ch n s = .next t) :
    Memory.read t.mem = copyUnits s.cfg.dmaUnitBytes s.dma[ch] n (Memory.read s.mem) := by
  induction n generalizing s with
  | zero => cases h; rfl
  | succ n ih =>
    have hsrc : srcOf s.dma[ch] 0 = s.dma[ch].currSrcAddr := congrArg DmaChannel.currSrcAddr (moved_zero _)
    have hdst : dstOf s.dma[ch] 0 = s.dma[ch].currDstAddr := congrArg DmaChannel.currDstAddr (moved_zero _)
    have hoff0 := hoff 0 n.succ_pos
    have hplain0 := hplain 0 n.succ_pos
    rw [hsrc, hdst] at hoff0 hplain0
    obtain ⟨m, f, hunit, hframe, hwf', hdata⟩ := unitTransfer_offWindow hoff0.1 hoff0.2
    rw [unitTransfers, hunit, andThen_next] at h
    have hchannel : (s.dma.set ch (DmaChannel.advance s.dma[ch]))[ch] = moved s.dma[ch] 1 := by
      rw [← advance_iterate_eq_moved]; simp
    have hrest := ih (s := { s with dma := s.dma.set ch (DmaChannel.advance s.dma[ch]), mem := m, freeCount := f })
      (fun k hk => by
        simp only [hchannel, srcOf_moved, dstOf_moved]
        exact hoff (k + 1) (by omega))
      (fun k hk => by
        simp only [hchannel, srcOf_moved, dstOf_moved]
        exact hplain (k + 1) (by omega))
      hsize (hwf' hwf) h
    rw [hrest, copyUnits_succ, hsrc, hdst]
    simp only [hchannel]
    rw [read_eq_copyUnit hframe (hdata hplain0.1 hplain0.2 hsize hwf)]

/-- `n` units off the window: the cursor moves on by `n`, memory is stored as R44 and R50 say, nothing else but the counter of
free values changes. -/
theorem unitTransfers_moves {ch : Channel} {n : Nat} {s : State} (hoff : UnitsOffWindow s ch n) :
    ∃ m f, unitTransfers ch n s = .next { s with dma := s.dma.set ch (moved s.dma[ch] n), mem := m, freeCount := f } ∧
      UnitsStored s ch n m ∧ (n = 0 → m = s.mem ∧ f = s.freeCount) := by
  obtain ⟨m, f, hnext, hframe, -, hzero⟩ := unitTransfers_offWindow (ch := ch) n (s := s) fun k hk => by
    rw [advance_iterate_eq_moved]; exact hoff k hk
  simp only [advance_iterate_eq_moved] at hnext hframe
  exact ⟨m, f, hnext, ⟨hframe, fun hplain hsize hwf a =>
    congrFun (unitTransfers_copies n hoff hplain hsize hwf hnext) a⟩, hzero⟩

theorem unitTransfers_add (ch : Channel) (a b : Nat) (s : State) :
    unitTransfers ch (a + b) s = andThen (unitTransfers ch a s) (unitTransfers ch b) := by
  induction a generalizing s with
  | zero => simp [unitTransfers]
  | succ a ih => rw [Nat.succ_add, unitTransfers, unitTransfers, andThen_assoc]; simp only [ih]

/-! ## A tick -/

/-- The units a tick moves, and what it does after them (R126). -/
theorem tickChannel_of_active {s : State} {ch : Channel} {n : Nat} (hactive : s.dma[ch].active = true)
    (hn : n = min s.cfg.dmaBatch s.dma[ch].currXferCount.toNat) :
    tickChannel ch s = andThen (unitTransfers ch n s) (finishTick ch) := by
  rw [tickChannel, if_pos hactive, batchOf, hn]

theorem tickChannel_of_inactive {s : State} {ch : Channel} (hidle : s.dma[ch].active = false) :
    tickChannel ch s = .next s := by
  rw [tickChannel, hidle]; rfl

theorem moved_count_toNat {c : DmaChannel} {n : Nat} (h : n ≤ c.currXferCount.toNat) :
    (moved c n).currXferCount.toNat = c.currXferCount.toNat - n := by
  have := c.currXferCount.isLt
  simp only [moved, BitVec.toNat_sub, BitVec.toNat_ofNat]
  omega

theorem moved_count_of_all {c : DmaChannel} {n : Nat} (h : n = c.currXferCount.toNat) : (moved c n).currXferCount = 0 :=
  BitVec.eq_of_toNat_eq (by rw [moved_count_toNat h.le, h, Nat.sub_self]; rfl)

theorem finishTick_of_left {s : State} {ch : Channel} (h : s.dma[ch].currXferCount ≠ 0) : finishTick ch s = .next s :=
  if_neg h

theorem finishTick_of_complete {s : State} {ch : Channel} (h : s.dma[ch].currXferCount = 0)
    (hlast : s.dma[ch].currIndirect = false ∨ s.dma[ch].endIndirect = true) :
    finishTick ch s = .next (completeTransfer ch s) := by
  have : (s.dma[ch].currIndirect && !s.dma[ch].endIndirect) = false := by
    rcases hlast with h | h
    · rw [h, Bool.false_and]
    · rw [h, Bool.not_true, Bool.and_false]
  simp only [finishTick, h, this, if_true, Bool.false_eq_true, if_false]

theorem finishTick_of_unmarked {s : State} {ch : Channel} (h : s.dma[ch].currXferCount = 0)
    (hindirect : s.dma[ch].currIndirect = true) (hend : s.dma[ch].endIndirect = false) :
    finishTick ch s = fetchDescriptor ch s := by
  simp only [finishTick, h, hindirect, hend, if_true, Bool.not_false, Bool.and_true]

/-- The state after units moved: the channel is the moved one. -/
theorem set_moved_get {s : State} (ch : Channel) (c : DmaChannel) : (s.dma.set ch c)[ch] = c := by simp

theorem set_get_of_ne {s : State} {ch c : Channel} (d : DmaChannel) (h : c ≠ ch) : (s.dma.set ch d)[c] = s.dma[c] :=
  State.setChannel_of_ne s d h

/-- A tick with work left moves a batch and does nothing more. -/
theorem tickChannel_of_left {s : State} {ch : Channel} (hactive : s.dma[ch].active = true)
    (hleft : s.cfg.dmaBatch < s.dma[ch].currXferCount.toNat) (hoff : UnitsOffWindow s ch s.cfg.dmaBatch) :
    tickChannel ch s = unitTransfers ch s.cfg.dmaBatch s := by
  obtain ⟨m, f, hunits, -, -⟩ := unitTransfers_moves hoff
  rw [tickChannel_of_active hactive (min_eq_left hleft.le).symm, hunits, andThen_next]
  refine finishTick_of_left fun hzero => ?_
  rw [set_moved_get] at hzero
  have := moved_count_toNat hleft.le
  rw [hzero] at this
  change 0 = _ at this
  omega

/-- A tick in which the count of a direct transfer, or of a marked descriptor, reaches 0 moves the units left and completes. -/
theorem tickChannel_of_last {s : State} {ch : Channel} {n : Nat} (hactive : s.dma[ch].active = true)
    (hn : n = s.dma[ch].currXferCount.toNat) (hbatch : n ≤ s.cfg.dmaBatch)
    (hlast : s.dma[ch].currIndirect = false ∨ s.dma[ch].endIndirect = true) (hoff : UnitsOffWindow s ch n) :
    tickChannel ch s = andThen (unitTransfers ch n s) fun t => .next (completeTransfer ch t) := by
  obtain ⟨m, f, hunits, -, -⟩ := unitTransfers_moves hoff
  rw [tickChannel_of_active (n := n) hactive (by omega), hunits, andThen_next, andThen_next]
  refine finishTick_of_complete ?_ ?_ <;> rw [set_moved_get]
  · exact moved_count_of_all hn
  · exact hlast

/-- Settles O37: by the guard of `Tick`. -/
theorem tickOfAnInactiveChannelDoesNothing : Obligations.TickOfAnInactiveChannelDoesNothing :=
  fun s => ⟨fun _ hgt => onChannel_of_gt_eq_faulted hgt s _,
    fun ch hidle => (execTick_val s ch).trans (tickChannel_of_inactive hidle)⟩

/-- Settles O38: the tick is its batch of unit transfers. -/
theorem tickMovesABatchOfUnits : Obligations.TickMovesABatchOfUnits := by
  intro s ch hactive hleft hoff
  obtain ⟨m, f, hunits, hstored, -⟩ := unitTransfers_moves hoff
  refine ⟨_, (execTick_val s ch).trans ((tickChannel_of_left hactive hleft hoff).trans hunits), set_moved_get ch _,
    fun c hne => set_get_of_ne _ hne, hstored, rfl⟩

/-- What a transfer of `n` units leaves when it completes (R128): the moved channel Idle, the bytes stored, one raise. -/
theorem units_then_complete {s : State} {ch : Channel} {n : Nat} (hn : n = s.dma[ch].currXferCount.toNat)
    (hoff : UnitsOffWindow s ch n) :
    ∃ t, (andThen (unitTransfers ch n s) fun t => .next (completeTransfer ch t)) = .next t ∧
      t.dma[ch] = { moved s.dma[ch] n with active := false } ∧
      t.dma[ch].currXferCount = 0 ∧ (∀ c : Channel, c ≠ ch → t.dma[c] = s.dma[c]) ∧ UnitsStored s ch n t.mem ∧
      (n = 0 → t.mem = s.mem ∧ t.freeCount = s.freeCount) ∧
      Raised s.cfg.dmaEndTable[ch].source s.cfg.dmaEndTable[ch].level s.intr t.intr ∧
      t = { s with
        dma := t.dma, mem := t.mem, freeCount := t.freeCount, intr := t.intr,
        traceLog := traced s (.raiseInterrupt s.cfg.dmaEndTable[ch].source s.cfg.dmaEndTable[ch].level) } := by
  obtain ⟨m, f, hunits, hstored, hzero⟩ := unitTransfers_moves hoff
  rw [hunits, andThen_next]
  set u : State := { s with dma := s.dma.set ch (moved s.dma[ch] n), mem := m, freeCount := f } with hu
  have hchannel : u.dma[ch] = moved s.dma[ch] n := set_moved_get ch _
  have complete : completeTransfer ch u = raise s.cfg.dmaEndTable[ch].source s.cfg.dmaEndTable[ch].level
      (u.setChannel ch { moved s.dma[ch] n with active := false }) := by
    rw [completeTransfer, hchannel]; rfl
  rw [complete]
  have hidle : (raise s.cfg.dmaEndTable[ch].source s.cfg.dmaEndTable[ch].level
      (u.setChannel ch { moved s.dma[ch] n with active := false })).dma[ch] = { moved s.dma[ch] n with active := false } := by
    rw [raise_dma, State.setChannel_self]
  refine ⟨_, rfl, hidle, ?_, fun c hne => ?_, ?_, fun h => ?_, raised_raise _ _ (u.setChannel ch _), ?_⟩
  · rw [hidle]
    exact moved_count_of_all hn
  · rw [raise_dma, State.setChannel_of_ne _ _ hne]
    exact set_get_of_ne _ hne
  · rw [raise_eq]
    exact hstored
  · rw [raise_eq]
    exact hzero h
  · rw [raise_eq]
    rfl

/-- Settles O39: the tick is the units left and then the completion. -/
theorem tickCompletesTheTransfer : Obligations.TickCompletesTheTransfer := by
  intro s ch n hactive hn hbatch hlast hoff
  obtain ⟨t, ht, hrest⟩ := units_then_complete hn hoff
  exact ⟨t, (execTick_val s ch).trans ((tickChannel_of_last hactive hn hbatch hlast hoff).trans ht), hrest⟩

/-- Settles O40: the tick is the units left and then a descriptor fetch from the moved channel. -/
theorem tickFetchesTheNextDescriptor : Obligations.TickFetchesTheNextDescriptor := by
  intro s ch n hactive hn hbatch hindirect hend hoff hdesc
  obtain ⟨m, f, hunits, hstored, -⟩ := unitTransfers_moves hoff
  set u : State := { s with dma := s.dma.set ch (moved s.dma[ch] n), mem := m, freeCount := f } with hu
  have hchannel : u.dma[ch] = moved s.dma[ch] n := set_moved_get ch _
  have hsrc : u.dma[ch].currIndirectSrc = s.dma[ch].currIndirectSrc := by rw [hchannel]; rfl
  have tick_fetch : exec (.tick ch) s = fetchDescriptor ch u := by
    change execTick ch.val s = _
    rw [execTick_val, tickChannel_of_active (n := n) hactive (by omega), hunits, andThen_next]
    refine finishTick_of_unmarked ?_ ?_ ?_ <;> rw [hchannel]
    · exact moved_count_of_all hn
    · exact hindirect
    · exact hend
  obtain ⟨w0, w1, w2, f', hfetch, -⟩ := fetchDescriptor_offWindow (s := u) (ch := ch)
    (by rw [hsrc]; simpa [State.OffWindow] using hdesc 0) (by rw [hsrc]; simpa [State.OffWindow] using hdesc 1)
    (by rw [hsrc]; simpa [State.OffWindow] using hdesc 2)
  rw [hsrc, hchannel] at hfetch
  refine ⟨_, tick_fetch.trans hfetch, ?_, fun c hne => ?_, hstored, ?_, fun hplain => ?_⟩
  · simp [DmaChannel.takeDescriptor_eq, moved]
  · exact (set_get_of_ne (s := u) _ hne).trans (set_get_of_ne _ hne)
  · rw [hu]
  · have := (fetchDescriptor_plain (s := u) (by rw [hsrc]; exact hdesc) (by rw [hsrc]; exact hplain) hfetch).1
    rwa [hsrc] at this

end Sys2Proof.Machine
end

section
/-! PROOF. The DMA engine over several operations (42_dma.md R134 to R136): channels do not touch each other, and a direct
transfer runs to completion. -/

namespace Sys2Proof.Machine

open Sys2Proof.Claims

/-! ## Channels are independent -/

/-- Of the channels only `ch` changes, and none of its configured fields (R134, R135). -/
def MovesCursorOnly (ch : Channel) (s t : State) : Prop :=
  (∀ c : Channel, c ≠ ch → t.dma[c] = s.dma[c]) ∧ configured t.dma[ch] = configured s.dma[ch]

theorem MovesCursorOnly.refl (ch : Channel) (s : State) : MovesCursorOnly ch s s := ⟨fun _ _ => rfl, rfl⟩

theorem MovesCursorOnly.trans {ch : Channel} {s t u : State} (h : MovesCursorOnly ch s t) (h' : MovesCursorOnly ch t u) :
    MovesCursorOnly ch s u :=
  ⟨fun c hc => (h'.1 c hc).trans (h.1 c hc), h'.2.trans h.2⟩

/-- A write of the channel that keeps its configured fields. -/
theorem MovesCursorOnly.of_set {ch : Channel} {s t : State} {c : DmaChannel} (ht : t.dma = s.dma.set ch c)
    (hc : configured c = configured s.dma[ch]) : MovesCursorOnly ch s t := by
  refine ⟨fun c' hne => ?_, ?_⟩ <;> rw [ht]
  · exact set_get_of_ne c hne
  · rw [set_moved_get, hc]

theorem fetchDescriptor_movesCursorOnly {ch : Channel} {s t : State} (h : fetchDescriptor ch s = .next t) :
    MovesCursorOnly ch s t := by
  obtain ⟨r0, h0, h⟩ := andThen_eq_next.1 h
  obtain ⟨r1, h1, h⟩ := andThen_eq_next.1 h
  obtain ⟨r2, h2, h⟩ := andThen_eq_next.1 h
  have reads : r2.2.dma = s.dma :=
    (((memReadWord_effects h0).trans (memReadWord_effects h1)).trans (memReadWord_effects h2)).read_dma
  cases h
  refine .of_set (by rw [State.setChannel_dma, reads]) ?_
  rw [DmaChannel.takeDescriptor_eq]
  rfl

theorem startChannel_movesCursorOnly {ch : Channel} {ts : TriggerSource} {s t : State} (h : startChannel ch ts s = .next t) :
    MovesCursorOnly ch s t := by
  by_cases hst : Startable s.dma[ch] ts
  · cases hindirect : s.dma[ch].indirect with
    | true =>
      rw [startChannel_of_indirect hst hindirect] at h
      refine .trans ?_ (fetchDescriptor_movesCursorOnly h)
      exact .of_set (State.setChannel_dma s ch _) rfl
    | false =>
      rw [startChannel_of_direct fun _ => hindirect, State.startDirect_of_startable hst] at h
      cases h
      exact .of_set rfl rfl
  · rw [startChannel_of_not_startable hst] at h
    cases h
    exact .refl ch s

theorem completeTransfer_movesCursorOnly (ch : Channel) (s : State) : MovesCursorOnly ch s (completeTransfer ch s) :=
  .of_set (raise_dma _ _ _) rfl

theorem finishTick_movesCursorOnly {ch : Channel} {s t : State} (h : finishTick ch s = .next t) : MovesCursorOnly ch s t := by
  unfold finishTick at h
  dsimp only at h
  split at h
  · split at h
    · exact fetchDescriptor_movesCursorOnly h
    · cases h
      exact completeTransfer_movesCursorOnly ch s
  · cases h
    exact .refl ch s

theorem tickChannel_movesCursorOnly {ch : Channel} {s t : State} (hoff : UnitsOffWindow s ch (batch s ch))
    (h : tickChannel ch s = .next t) : MovesCursorOnly ch s t := by
  cases hactive : s.dma[ch].active with
  | false =>
    rw [tickChannel_of_inactive hactive] at h
    cases h
    exact .refl ch s
  | true =>
    obtain ⟨m, f, hunits, -, -⟩ := unitTransfers_moves hoff
    rw [tickChannel_of_active hactive rfl] at h
    obtain ⟨u, hu, h⟩ := andThen_eq_next.1 h
    cases hunits.symm.trans hu
    exact .trans (.of_set (c := moved s.dma[ch] (batch s ch)) rfl rfl) (finishTick_movesCursorOnly h)

/-- Settles O41: a set-up operation is one `setChannel`; triggers and ticks move the cursor only. -/
theorem channelsAreIndependentAndKeepTheirConfiguration : Obligations.ChannelsAreIndependentAndKeepTheirConfiguration := by
  intro s t ch i h hi
  have setUp {c : DmaChannel} (ht : Host.Outcome.next (s.setChannel ch c) = (.next t : Run)) (c' : Channel) (hne : c' ≠ ch) :
      t.dma[c'] = s.dma[c'] := by
    cases ht
    exact State.setChannel_of_ne s c hne
  rcases hi with ⟨src, dst, count, srcInc, dstInc, indirect, ts, rfl⟩ | ⟨updateSrc, updateDst, rfl⟩ | ⟨enabled, rfl⟩ |
    ⟨ts, rfl⟩ | rfl | ⟨rfl, hoff⟩
  · exact ⟨setUp ((execConfigure_val s ch src dst count srcInc dstInc indirect ts).symm.trans h), by simp⟩
  · exact ⟨setUp ((execSetAddressUpdate_val s ch updateSrc updateDst).symm.trans h), by simp⟩
  · exact ⟨setUp ((execSetEnabled_val s ch enabled).symm.trans h), by simp⟩
  · obtain ⟨others, same⟩ := startChannel_movesCursorOnly ((execTrigger_val s ch ts).symm.trans h)
    exact ⟨others, fun _ => same⟩
  · obtain ⟨others, same⟩ := startChannel_movesCursorOnly ((execTrigger_val s ch .software).symm.trans h)
    exact ⟨others, fun _ => same⟩
  · obtain ⟨others, same⟩ := tickChannel_movesCursorOnly hoff ((execTick_val s ch).symm.trans h)
    exact ⟨others, fun _ => same⟩

/-! ## A whole direct transfer -/

theorem exec_tick_val (s : State) (ch : Channel) : exec (.tick ch) s = tickChannel ch s := execTick_val s ch

/-- After the first `a` of `a + b` units, the next `b` lie off the window. -/
theorem unitsOffWindow_after {s : State} {ch : Channel} {a b : Nat} (h : UnitsOffWindow s ch (a + b)) (m : List Host.Cell)
    (f : Nat) :
    UnitsOffWindow { s with dma := s.dma.set ch (moved s.dma[ch] a), mem := m, freeCount := f } ch b := by
  intro k hk
  simp only [set_moved_get, srcOf_moved, dstOf_moved]
  exact h (k + a) (by omega)

theorem unitsOffWindow_mono {s : State} {ch : Channel} {a b : Nat} (h : UnitsOffWindow s ch b) (hab : a ≤ b) :
    UnitsOffWindow s ch a := fun k hk => h k (by omega)

/-- `k` ticks, all with work left, are `k` batches of unit transfers. -/
theorem ticks_of_left {ch : Channel} (k : Nat) {s : State} (hactive : s.dma[ch].active = true)
    (hleft : k = 0 ∨ k * s.cfg.dmaBatch < s.dma[ch].currXferCount.toNat)
    (hoff : UnitsOffWindow s ch (k * s.cfg.dmaBatch)) :
    ticks ch k s = unitTransfers ch (k * s.cfg.dmaBatch) s := by
  induction k generalizing s with
  | zero => simp [ticks, unitTransfers]
  | succ k ih =>
    have hcount : s.cfg.dmaBatch + k * s.cfg.dmaBatch < s.dma[ch].currXferCount.toNat := by
      rw [Nat.succ_mul, Nat.add_comm (k * _)] at hleft
      exact hleft.resolve_left (by omega)
    rw [Nat.succ_mul, Nat.add_comm (k * _)] at hoff ⊢
    obtain ⟨m, f, hunits, -, -⟩ := unitTransfers_moves (unitsOffWindow_mono hoff (Nat.le_add_right _ _))
    rw [ticks, exec_tick_val, tickChannel_of_left hactive (by omega) (unitsOffWindow_mono hoff (Nat.le_add_right _ _)),
      unitTransfers_add, hunits, andThen_next, andThen_next]
    refine ih ?_ (.inr ?_) (unitsOffWindow_after hoff m f) <;> rw [set_moved_get]
    · exact hactive
    · rw [moved_count_toNat (by omega)]
      exact (by omega : k * s.cfg.dmaBatch < s.dma[ch].currXferCount.toNat - s.cfg.dmaBatch)

theorem ticks_succ_last (ch : Channel) (k : Nat) (s : State) :
    ticks ch (k + 1) s = andThen (ticks ch k s) (exec (.tick ch)) := by
  induction k generalizing s with
  | zero =>
    simp only [ticks, andThen_next]
    cases exec (.tick ch) s <;> rfl
  | succ k ih =>
    rw [ticks, ticks, andThen_assoc]
    simp only [ih]

/-- `k` ticks with work left and a last one that finds at most a batch: all units of a direct transfer, then its completion. -/
theorem ticks_of_last {ch : Channel} {k n : Nat} {s : State} (hn : n = s.dma[ch].currXferCount.toNat)
    (hactive : s.dma[ch].active = true) (hdirect : s.dma[ch].currIndirect = false)
    (hleft : k = 0 ∨ k * s.cfg.dmaBatch < n) (hlast : n ≤ (k + 1) * s.cfg.dmaBatch) (hoff : UnitsOffWindow s ch n) :
    ticks ch (k + 1) s = andThen (unitTransfers ch n s) fun t => .next (completeTransfer ch t) := by
  have hle : k * s.cfg.dmaBatch ≤ n := by
    rcases hleft with rfl | h <;> omega
  obtain ⟨r, hr⟩ := Nat.exists_eq_add_of_le hle
  rw [Nat.succ_mul] at hlast
  have hoff' : UnitsOffWindow s ch (k * s.cfg.dmaBatch + r) := hr ▸ hoff
  obtain ⟨m, f, hunits, -, -⟩ := unitTransfers_moves (unitsOffWindow_mono hoff' (Nat.le_add_right _ _))
  rw [ticks_succ_last, ticks_of_left k hactive (hn ▸ hleft) (unitsOffWindow_mono hoff' (Nat.le_add_right _ _)), hr,
    unitTransfers_add, hunits, andThen_next, andThen_next, exec_tick_val]
  refine tickChannel_of_last ?_ ?_ ?_ (.inl ?_) (unitsOffWindow_after hoff' m f)
  · rw [set_moved_get]; exact hactive
  · rw [set_moved_get, moved_count_toNat (by omega)]; omega
  · exact (by omega : r ≤ s.cfg.dmaBatch)
  · rw [set_moved_get]; exact hdirect

/-- The number of ticks but the last: each has work left, and the last finds at most a batch. -/
theorem ticks_count {n batch total : Nat} (hbatch : 1 ≤ batch) (htotal : total = max 1 ((n + batch - 1) / batch)) :
    ∃ k, total = k + 1 ∧ (k = 0 ∨ k * batch < n) ∧ n ≤ (k + 1) * batch := by
  refine ⟨total - 1, by omega, ?_, ?_⟩
  · by_cases hk : total - 1 = 0
    · exact .inl hk
    · have : (total - 1 + 1) * batch ≤ n + batch - 1 := by
        rw [show total - 1 + 1 = (n + batch - 1) / batch by omega]
        exact Nat.div_mul_le_self _ _
      rw [Nat.succ_mul] at this
      omega
  · have hlt := Nat.lt_mul_div_succ (n + batch - 1) hbatch
    rw [Nat.mul_add, Nat.mul_comm] at hlt
    have : (n + batch - 1) / batch * batch ≤ (total - 1 + 1) * batch := Nat.mul_le_mul_right _ (by omega)
    omega

/-- Settles O42: the ticks before the last are batches of unit transfers, and all together are the transfer's units and its
completion. -/
theorem directTransferRunsToCompletion : Obligations.DirectTransferRunsToCompletion := by
  intro s ch n total hn hbatch htotal hactive hdirect hoff
  obtain ⟨last, rfl, hleft, hlast⟩ := ticks_count hbatch htotal
  refine ⟨fun k hk => ?_, ?_⟩
  · have hmul : k * s.cfg.dmaBatch ≤ last * s.cfg.dmaBatch := Nat.mul_le_mul_right _ (by omega)
    have hleft' : k = 0 ∨ k * s.cfg.dmaBatch < n := by
      rcases hleft with rfl | h
      · exact .inl (by omega)
      · exact .inr (by omega)
    have hle : k * s.cfg.dmaBatch ≤ n := by
      rcases hleft' with rfl | h <;> omega
    obtain ⟨m, f, hunits, -, -⟩ := unitTransfers_moves (unitsOffWindow_mono hoff hle)
    refine ⟨_, (ticks_of_left k hactive (hn ▸ hleft') (unitsOffWindow_mono hoff hle)).trans hunits,
      set_moved_get ch _, ?_, rfl, rfl⟩
    rw [set_moved_get]
    exact hactive
  · obtain ⟨t, ht, hchannel, hcount, hothers, hstored, -, hraised, heq⟩ := units_then_complete hn hoff
    exact ⟨t, (ticks_of_last hn hactive hdirect hleft hlast hoff).trans ht, hchannel, hcount, hothers, hstored, hraised, heq⟩

end Sys2Proof.Machine
end

section
/-! PROOF. The system operations (43_system.md): signals, the SCU tick, the audio queue, reset and save states. -/

namespace Sys2Proof.Machine

open Sys2Proof.Claims

/-! ## Signals (R142) -/

/-- A direct start changes the channels alone. -/
theorem startDirect_frame (s : State) (ch : Channel) (ts : TriggerSource) :
    s.startDirect ch ts = { s with dma := (s.startDirect ch ts).dma } := by
  unfold State.startDirect
  split <;> rfl

/-- What a direct start leaves in its channel depends on that channel alone. -/
theorem startDirect_get (s : State) (ch : Channel) (ts : TriggerSource) :
    (s.startDirect ch ts).dma[ch] = if DmaChannel.starts s.dma[ch] ts then started s.dma[ch] else s.dma[ch] := by
  unfold State.startDirect
  split
  · exact State.setChannel_self s ch _
  · rfl

/-- Direct starts of the three channels in order start each channel as it was. -/
theorem startDirect_all_get (s : State) (ts : TriggerSource) (ch : Channel) :
    (((s.startDirect 0 ts).startDirect 1 ts).startDirect 2 ts).dma[ch] =
      if DmaChannel.starts s.dma[ch] ts then started s.dma[ch] else s.dma[ch] := by
  have skip (u : State) (c c' : Channel) (h : c' ≠ c) : (u.startDirect c ts).dma[c'] = u.dma[c'] :=
    State.startDirect_of_ne u ts h
  match ch with
  | 0 => rw [skip _ 2 0 (by decide), skip _ 1 0 (by decide), startDirect_get]
  | 1 => rw [skip _ 2 1 (by decide), startDirect_get, skip _ 0 1 (by decide)]
  | 2 => rw [startDirect_get, skip _ 1 2 (by decide), skip _ 0 2 (by decide)]

/-- Settles O43: the composition is the definition; with direct starts only, each channel is started as the signal found it. -/
theorem signalRaisesThenTriggersTheChannels : Obligations.SignalRaisesThenTriggersTheChannels := by
  intro s sig row hrow
  have hentry : s.signalEntry sig = row := hrow.symm
  constructor
  · have composed : exec (.signal sig) s = signal sig s := rfl
    have raised : exec (.raiseInterrupt row.source row.level) s = .next (raise row.source row.level s) :=
      execRaiseInterrupt_val s row.source row.level
    have trigger (ch : Channel) (u : State) : exec (.trigger ch (.onSignal sig)) u = startChannel ch (.onSignal sig) u :=
      execTrigger_val u ch _
    rw [composed, signal, hentry, raised, andThen_next]
    have t0 := trigger 0
    have t1 := trigger 1
    have t2 := trigger 2
    simp only [Fin.val_zero, Fin.val_one, Fin.val_two] at t0 t1 t2
    simp only [t0, t1, t2]
  · intro hdirect
    have answer : exec (.signal sig) s = .next _ := signal_of_direct hdirect
    rw [hentry] at answer
    refine ⟨_, answer, ?_, fun ch => ?_, ?_⟩
    · rw [startDirect_frame _ 2, startDirect_frame _ 1, startDirect_frame _ 0]
      exact raised_raise _ _ s
    · rw [startDirect_all_get, raise_dma]
      exact ⟨fun hst => if_pos ((DmaChannel.starts_iff _ _).2 hst), fun hst => if_neg (mt (DmaChannel.starts_iff _ _).1 hst)⟩
    · rw [startDirect_frame _ 2, startDirect_frame _ 1, startDirect_frame _ 0, raise_frame]

/-! ## The SCU tick (R147) -/

/-- What a tick of channel `ch`, found as `c` and Idle or with work left, does to the state (R126); `p` are the parameters. -/
def Ticked (p : Params) (c : DmaChannel) (ch : Channel) (s t : State) : Prop :=
  t.dma[ch] = (if c.active then moved c p.dmaBatch else c) ∧
    (∀ c' : Channel, c' ≠ ch → t.dma[c'] = s.dma[c']) ∧
    (∀ a, (c.active = true → ∀ k < p.dmaBatch, ∀ j < p.dmaUnitBytes, a ≠ (busAddr (dstOf c k) j).toNat) →
      Memory.read t.mem a = Memory.read s.mem a) ∧
    t = { s with dma := t.dma, mem := t.mem, freeCount := t.freeCount }

/-- The channel has work left, outside the register window, if it is Active. -/
def HasBatch (s : State) (ch : Channel) : Prop :=
  s.dma[ch].active = true → s.cfg.dmaBatch < s.dma[ch].currXferCount.toNat ∧ UnitsOffWindow s ch s.cfg.dmaBatch

theorem tickChannel_ticked {s : State} {ch : Channel} (h : HasBatch s ch) :
    ∃ t, tickChannel ch s = .next t ∧ Ticked s.cfg s.dma[ch] ch s t := by
  cases hactive : s.dma[ch].active with
  | false =>
    refine ⟨s, tickChannel_of_inactive hactive, ?_, fun _ _ => rfl, fun _ _ => rfl, rfl⟩
    rw [hactive]
    rfl
  | true =>
    obtain ⟨hleft, hoff⟩ := h hactive
    obtain ⟨m, f, hunits, hstored, -⟩ := unitTransfers_moves hoff
    refine ⟨_, (tickChannel_of_left hactive hleft hoff).trans hunits, ?_, fun c hne => set_get_of_ne _ hne,
      fun a ha => hstored.1 a (ha hactive), rfl⟩
    rw [hactive]
    exact set_moved_get ch _

/-- A tick of another channel, after a first one, finds its channel and the parameters as they were. -/
theorem tickChannel_ticked_after {s t : State} {c : Channel} (h : HasBatch s c)
    (hchannel : t.dma[c] = s.dma[c]) (hcfg : t.cfg = s.cfg) :
    ∃ u, tickChannel c t = .next u ∧ Ticked s.cfg s.dma[c] c t u := by
  rw [← hchannel, ← hcfg]
  refine tickChannel_ticked ?_
  unfold HasBatch UnitsOffWindow State.OffWindow
  rw [hcfg, hchannel]
  exact h

theorem Ticked.cfg_eq {p : Params} {c : DmaChannel} {ch : Channel} {s t : State} (h : Ticked p c ch s t) : t.cfg = s.cfg := by
  obtain ⟨-, -, -, hframe⟩ := h
  rw [hframe]

/-- A DSP that is not executing, or paused, does nothing in its step (R162). -/
theorem dspStep_of_stopped {s : State} (h : s.dsp.programExecuting = false ∨ s.dsp.programPaused = true) :
    dspStep s = .next s := by
  have : Dsp.running s.dsp = false := by
    rcases h with h | h <;> simp [Dsp.running, h]
  rw [dspStep, this]
  rfl

/-- Settles O45: the composition is the definition; each tick finds its channel as `ScuTick` found it, and the DSP does not
run. -/
theorem scuTickTicksTheChannelsThenTheDsp : Obligations.ScuTickTicksTheChannelsThenTheDsp := by
  intro s
  refine ⟨rfl, fun hbatch hstopped => ?_⟩
  obtain ⟨a, ha, ticked0⟩ := tickChannel_ticked (ch := 0) (hbatch 0)
  have hcfg0 := ticked0.cfg_eq
  obtain ⟨get0, others0, mem0, frame0⟩ := ticked0
  obtain ⟨b, hb, ticked1⟩ := tickChannel_ticked_after (c := 1) (t := a) (hbatch 1) (others0 1 (by decide)) hcfg0
  have hcfg1 := ticked1.cfg_eq.trans hcfg0
  obtain ⟨get1, others1, mem1, frame1⟩ := ticked1
  obtain ⟨c, hc, ticked2⟩ := tickChannel_ticked_after (c := 2) (t := b) (hbatch 2)
    ((others1 2 (by decide)).trans (others0 2 (by decide))) hcfg1
  obtain ⟨get2, others2, mem2, frame2⟩ := ticked2
  have frame : c = { s with dma := c.dma, mem := c.mem, freeCount := c.freeCount } := by
    rw [frame2, frame1, frame0]
  have stopped : dspStep c = .next c := dspStep_of_stopped (by rw [frame]; exact hstopped)
  have scuTick : exec .scuTick s = .next c := by
    change execScuTick s = _
    rw [execScuTick, ha, andThen_next, hb, andThen_next, hc, andThen_next, stopped]
  refine ⟨c, scuTick, fun ch => ?_, fun x hx => ?_, frame⟩
  · match ch with
    | 0 => rw [others2 0 (by decide), others1 0 (by decide), get0]
    | 1 => rw [others2 1 (by decide), get1]
    | 2 => rw [get2]
  · rw [mem2 x (hx 2), mem1 x (hx 1), mem0 x (hx 0)]

/-! ## The audio queue (R150) -/

/-- A list of requests raised in order: the bits of all of them, each source's last level, one notification for each. -/
theorem raiseAll_spec (q : List SourceLevel) (s : State) :
    (∀ i : SourceIndex, (raiseAll q s).intr.status.getLsbD i = (s.intr.status.getLsbD i || q.any fun e => e.source = i)) ∧
      (∀ i : SourceIndex, (raiseAll q s).intr.level[i] =
        (((q.filter fun e => e.source = i).getLast?).map SourceLevel.level).getD s.intr.level[i]) ∧
      raiseAll q s = { s with
        intr := { (raiseAll q s).intr with mask := s.intr.mask }
        traceLog := if s.cfg.tracer then s.traceLog ++ q.map (fun e => .raiseInterrupt e.source e.level) else s.traceLog } := by
  induction q generalizing s with
  | nil => exact ⟨by simp [raiseAll], by simp [raiseAll], by simp [raiseAll]⟩
  | cons e q ih =>
    have first : raiseAll (e :: q) s = raiseAll q (raise e.source e.level s) := rfl
    obtain ⟨hstatus, hlevel, hframe⟩ := ih (raise e.source e.level s)
    obtain ⟨hbit, hentry, -⟩ := raised_raise e.source e.level s
    rw [first]
    refine ⟨fun i => ?_, fun i => ?_, ?_⟩
    · rw [hstatus, hbit, List.any_cons, Bool.or_comm (decide (i = e.source)), Bool.or_assoc]
      simp only [eq_comm]
    · rw [hlevel, hentry, List.filter_cons]
      by_cases h : e.source = i
      · simp [h, List.getLast?_cons]
      · simp [h, Ne.symm h]
    · rw [hframe, raise_eq]
      cases s.cfg.tracer <;> simp

/-- Settles O46. -/
theorem audioQueueIsDrainedInOrder : Obligations.AudioQueueIsDrainedInOrder := by
  intro s
  refine ⟨fun source level hgt => ?_, fun source level => ?_, ?_⟩
  · change execPostAudioInterrupt source level s = _
    rw [execPostAudioInterrupt, sourceOf_of_gt hgt]
    exact raiseViolation_eq_faulted _ s
  · change execPostAudioInterrupt source level s = _
    rw [execPostAudioInterrupt, sourceOf_val]
    rfl
  · obtain ⟨hstatus, hlevel, hframe⟩ := raiseAll_spec s.audioQueue s
    refine ⟨_, rfl, hstatus, hlevel, ?_⟩
    conv_lhs => rw [hframe]
    rfl

/-! ## Reset (R151) -/

/-- Settles O47: the state after a reset is written out by `resetBlock`. -/
theorem resetLeavesTheTableOfResetValues : Obligations.ResetLeavesTheTableOfResetValues := by
  intro s kind
  refine ⟨resetBlock kind s, rfl, rfl, rfl, fun i => ?_, rfl, ?_, fun id e he => ?_, fun ch => ?_, ?_⟩
  · simp [resetBlock, Intr.reset]
  · simp [resetBlock]
  · simp [resetBlock, he, EventSlot.reset]
  · simp [resetBlock, DmaChannel.reset]
  · cases kind with
    | hard =>
      exact ⟨rfl, rfl, rfl, rfl, rfl, rfl, rfl, rfl, rfl,
        fun _ => ⟨by simp [resetBlock, Dsp.reset], by simp [resetBlock, Dsp.reset], by simp [resetBlock, Dsp.reset],
          rfl, rfl, rfl, rfl, rfl, rfl, rfl, rfl, rfl, rfl, rfl, rfl, rfl, rfl, rfl, rfl, rfl, rfl, rfl, rfl, rfl⟩,
        nofun, rfl⟩
    | soft => exact ⟨rfl, rfl, rfl, rfl, rfl, rfl, rfl, rfl, rfl, nofun, fun _ => rfl, rfl⟩

/-! ## Save states (R153, R154) -/

/-- An image the state accepts is loaded whole. -/
theorem execLoadState_of_accepts {s : State} {image : Image} (h : s.accepts image = true) :
    exec (.loadState image) s = .next { s with
      sched := image.sched, intr := image.intr, dma := image.dma, dsp := image.dsp, audioQueue := image.audioQueue,
      result := .ok } := if_pos h

/-- Settles O48: the image of a state with the invariants is valid. -/
theorem savedStateLoadsBackWhole : Obligations.SavedStateLoadsBackWhole := by
  intro s
  refine ⟨s.toImage, rfl, fun u hinv hversion hlength => execLoadState_of_accepts ?_⟩
  obtain ⟨hslots, hdma, hdsp, -⟩ := hinv
  rw [State.accepts, Bool.and_eq_true, Image.valid_iff, decide_eq_true_eq]
  exact ⟨hversion.symm, hlength.symm, hslots, hdma, hdsp⟩

theorem DmaChannel.valid_iff (c : DmaChannel) : DmaChannel.valid c = true ↔ (c.active = true → c.enabled = true) := by
  cases hactive : c.active <;> simp [DmaChannel.valid, hactive]

theorem EventSlot.valid_iff (id : Nat) (e : EventSlot) : EventSlot.valid id e = true ↔
    e.id = id ∧ 1 ≤ e.countDenominator.toNat ∧ e.remainder.toNat < e.countDenominator.toNat ∧
      (e.live = true → e.periodic = true → 1 ≤ e.countNumerator.toNat) := by
  cases hlive : e.live <;> cases hper : e.periodic <;> simp [EventSlot.valid, hlive, hper, and_assoc]

/-- Settles O49: the model's check is the conjunction of R154's clauses. -/
theorem loadStateTakesExactlyTheValidImages : Obligations.LoadStateTakesExactlyTheValidImages := by
  intro s image good
  have accepts_iff : s.accepts image = true ↔ good := by
    simp only [good, State.accepts, Bool.and_eq_true, decide_eq_true_eq, Image.valid_iff, slotsValid_iff, Dsp.valid_iff,
      DmaChannel.valid_iff, EventSlot.valid_iff, Nat.zero_add]
    tauto
  refine ⟨fun hgood => execLoadState_of_accepts (accepts_iff.2 hgood), fun hbad => ?_⟩
  exact if_neg (mt accepts_iff.1 hbad)

end Sys2Proof.Machine
end

section
/-! PROOF. The register surface (30_encoding.md R66 to R70): what a read returns, what a write performs. -/

namespace Sys2Proof.Machine

open Sys2Proof.Claims

/-! ## Bits of a register read (R68) -/

theorem getLsbD_bitAt (b : Bool) {i : Nat} (j : Nat) (hi : i < 32) : (bitAt b i).getLsbD j = (b && decide (j = i)) := by
  have hpow : BitVec.ofNat 32 (2 ^ i) = BitVec.twoPow 32 i := BitVec.eq_of_toNat_eq (by simp [BitVec.toNat_twoPow])
  cases b
  · simp [bitAt]
  · simp only [bitAt, if_true, hpow, BitVec.getLsbD_twoPow]
    simp [hi, eq_comm]

theorem getLsbD_codeAt_zero (code : BitVec 3) (j : Nat) : (codeAt code 0).getLsbD j = code.getLsbD j := by
  by_cases hj : j < 3
  · simp [codeAt, show j < 32 by omega]
  · simp [codeAt, BitVec.getLsbD_of_ge code j (by omega)]

/-- The bits that hold a field are the field's, whatever fills the others. -/
theorem getLsbD_withFiller {fields : Word × Word} {filler : Word} {j : Nat} (hj : j < 32) (h : fields.2.getLsbD j = true) :
    (withFiller fields filler).getLsbD j = fields.1.getLsbD j := by
  simp [withFiller, h, hj]

/-- The three lowest bits of a register that has its code there. -/
theorem extractLsb'_withFiller {fields : Word × Word} {filler : Word} {code : BitVec 3}
    (hmask : ∀ j < 3, fields.2.getLsbD j = true) (hcode : ∀ j < 3, fields.1.getLsbD j = code.getLsbD j) :
    (withFiller fields filler).extractLsb' 0 3 = code := by
  refine BitVec.eq_of_getLsbD_eq fun j hj => ?_
  rw [BitVec.getLsbD_extractLsb', Nat.zero_add, getLsbD_withFiller (by omega) (hmask j hj), hcode j hj]
  simp [hj]

theorem seven_getLsbD {j : Nat} (hj : j < 3) : (7 : BitVec 3).getLsbD j = true := by
  have all : ∀ k : Fin 3, (7 : BitVec 3).getLsbD k = true := by decide
  exact all ⟨j, hj⟩

/-- `DnAD` in the default layout: the read-add code in bit 8, the write-add code in bits 2:0. -/
theorem addressAdd_bits (c : DmaChannel) (filler : Word) :
    (withFiller (RegLayout.addressAddFields RegLayout.default c) filler).getLsbD 8 =
        RegLayout.srcIncCode RegLayout.default c.srcAddrInc ∧
      (withFiller (RegLayout.addressAddFields RegLayout.default c) filler).extractLsb' 0 3 =
        RegLayout.dstIncCode RegLayout.default c.dstAddrInc := by
  have fields (b : Bool) (code : BitVec 3) (j : Nat) :
      (bitAt b 8 ||| codeAt code 0).getLsbD j = ((b && decide (j = 8)) || code.getLsbD j) := by
    rw [BitVec.getLsbD_or, getLsbD_bitAt b j (by decide), getLsbD_codeAt_zero]
  constructor
  · rw [getLsbD_withFiller (by decide) ((fields true 7 8).trans (by decide))]
    exact (fields _ _ 8).trans (by simp [BitVec.getLsbD_of_ge])
  · exact extractLsb'_withFiller (fun j hj => (fields _ _ j).trans (by rw [seven_getLsbD hj, Bool.or_true]))
      fun j hj => (fields _ _ j).trans (by simp [show j ≠ 8 by omega])

/-- `DnEN` in the default layout: the enable flag in bit 8. -/
theorem enable_bit (c : DmaChannel) (filler : Word) :
    (withFiller (RegLayout.enableFields RegLayout.default c) filler).getLsbD 8 = c.enabled := by
  have bit (b : Bool) : (bitAt b 8).getLsbD 8 = b := (getLsbD_bitAt b 8 (by decide)).trans (by simp)
  rw [getLsbD_withFiller (by decide) (bit true)]
  exact bit c.enabled

/-- `DnMD` in the default layout: mode, hold flags and start factor. -/
theorem mode_bits (c : DmaChannel) (filler : Word) (w : Word)
    (hw : w = withFiller (RegLayout.modeFields RegLayout.default c) filler) :
    w.getLsbD 24 = c.indirect ∧ w.getLsbD 16 = c.updateSrcAddr ∧ w.getLsbD 8 = c.updateDstAddr ∧
      w.extractLsb' 0 3 = RegLayout.startFactorCode RegLayout.default c.trigger := by
  have fields (i r u : Bool) (code : BitVec 3) (j : Nat) :
      (bitAt i 24 ||| bitAt r 16 ||| bitAt u 8 ||| codeAt code 0).getLsbD j =
        ((i && decide (j = 24)) || (r && decide (j = 16)) || (u && decide (j = 8)) || code.getLsbD j) := by
    rw [BitVec.getLsbD_or, BitVec.getLsbD_or, BitVec.getLsbD_or, getLsbD_bitAt i j (by decide), getLsbD_bitAt r j (by decide),
      getLsbD_bitAt u j (by decide), getLsbD_codeAt_zero]
  subst hw
  refine ⟨?_, ?_, ?_, ?_⟩
  · rw [getLsbD_withFiller (by decide) ((fields true true true 7 24).trans (by decide))]
    exact (fields _ _ _ _ 24).trans (by simp [BitVec.getLsbD_of_ge])
  · rw [getLsbD_withFiller (by decide) ((fields true true true 7 16).trans (by decide))]
    exact (fields _ _ _ _ 16).trans (by simp [BitVec.getLsbD_of_ge])
  · rw [getLsbD_withFiller (by decide) ((fields true true true 7 8).trans (by decide))]
    exact (fields _ _ _ _ 8).trans (by simp [BitVec.getLsbD_of_ge])
  · exact extractLsb'_withFiller (fun j hj => (fields _ _ _ _ j).trans (by rw [seven_getLsbD hj, Bool.or_true]))
      fun j hj => (fields _ _ _ _ j).trans
        (by simp [show j ≠ 24 by omega, show j ≠ 16 by omega, show j ≠ 8 by omega])

/-! ## Codes of the default layout (R68) -/

theorem srcIncCode_default (inc : Word) :
    (inc = 4 → RegLayout.srcIncCode RegLayout.default inc = true) ∧
      (inc = 0 → RegLayout.srcIncCode RegLayout.default inc = false) :=
  ⟨by rintro rfl; rfl, by rintro rfl; rfl⟩

/-- The code of a table's entry is its index when no earlier entry is equal. -/
theorem codeOf_eq {α : Type} [DecidableEq α] {table : Vector α 8} {k : Fin 8}
    (h : ((List.finRange 8).find? fun i => decide (table[i] = table[k])) = some k) (other : BitVec 3) :
    codeOf table table[k] other = BitVec.ofNat 3 k.val := by
  rw [codeOf, h]

theorem dstIncCode_default (code : Fin 8) :
    RegLayout.dstIncCode RegLayout.default RegLayout.default.dstIncs[code] = BitVec.ofNat 3 code.val := by
  have first : ∀ k : Fin 8, ((List.finRange 8).find? fun i =>
      decide (RegLayout.default.dstIncs[i] = RegLayout.default.dstIncs[k])) = some k := by decide
  exact codeOf_eq (first code) _

theorem startFactorCode_default (code : Fin 8) :
    RegLayout.startFactorCode RegLayout.default RegLayout.default.startFactors[code] = BitVec.ofNat 3 code.val := by
  have first : ∀ k : Fin 8, ((List.finRange 8).find? fun i =>
      decide (RegLayout.default.startFactors[i] = RegLayout.default.startFactors[k])) = some k := by decide
  exact codeOf_eq (first code) _

/-- The write-add increments: code 0 means 0, any other code the power of 2 with that exponent. -/
theorem dstIncs_default (code : Fin 8) :
    RegLayout.default.dstIncs[code] = if code = 0 then 0 else BitVec.ofNat 32 (2 ^ code.val) := by
  have all : ∀ k : Fin 8, RegLayout.default.dstIncs[k] = if k = 0 then 0 else BitVec.ofNat 32 (2 ^ k.val) := by decide
  exact all code

theorem dstIncCode_default_zero : RegLayout.dstIncCode RegLayout.default 0 = 0 := dstIncCode_default 0

theorem dstIncCode_default_pow {code : BitVec 3} (h : code ≠ 0) :
    RegLayout.dstIncCode RegLayout.default (BitVec.ofNat 32 (2 ^ code.toNat)) = code := by
  have hne : (⟨code.toNat, code.isLt⟩ : Fin 8) ≠ 0 := fun he => h (BitVec.eq_of_toNat_eq (congrArg Fin.val he))
  have entry := dstIncs_default ⟨code.toNat, code.isLt⟩
  rw [if_neg hne] at entry
  rw [← entry, dstIncCode_default]
  simp

/-! ## Reads (R66, R67) -/

theorem execRegRead_named {s : State} {offset : Word} {r : Reg} (h : offset.toNat % 4 = 0) (hreg : s.regAt offset = some r) :
    exec (.regRead offset) s = .next ((readRegister r s).2.setResult (.word (readRegister r s).1)) := by
  change execRegRead offset s = _
  simp [execRegRead, regRead, registerAligned, h, hreg]

theorem execRegRead_unnamed {s : State} {offset : Word} (h : offset.toNat % 4 = 0) (hreg : s.regAt offset = none) :
    exec (.regRead offset) s = .next (s.takeFree.setResult (.word (Config.freeWord s.freeCount))) := by
  change execRegRead offset s = _
  simp [execRegRead, regRead, registerAligned, h, hreg, takeFreeWord]

/-- A register read changes at most the counter of free values, and the DSP through its window. -/
theorem readRegister_state (r : Reg) (s : State) :
    (readRegister r s).2 = { s with dsp := (readRegister r s).2.dsp, freeCount := (readRegister r s).2.freeCount } ∧
      ((∀ w, r ≠ .window w) → (readRegister r s).2.dsp = s.dsp) := by
  cases r with
  | window w => exact ⟨rfl, fun h => absurd rfl (h w)⟩
  | readAddr | writeAddr | count | addressAdd | enable | mode | ims | ist => exact ⟨rfl, fun _ => rfl⟩

/-- Settles O50, register by register. -/
theorem regReadReturnsTheConfiguredFields : Obligations.RegReadReturnsTheConfiguredFields := by
  intro s offset haligned
  cases hreg : s.regAt offset with
  | none => exact ⟨_, _, execRegRead_unnamed haligned hreg, rfl, rfl, fun _ => rfl, nofun, nofun, fun ch => by simp⟩
  | some r =>
    obtain ⟨frame, dsp⟩ := readRegister_state r s
    refine ⟨_, _, execRegRead_named haligned hreg, rfl, ?_, fun h => dsp fun w hw => h w (congrArg some hw), ?_, ?_,
      fun ch => ⟨?_, ?_, ?_, fun hlayout hr => ?_, fun hlayout hr => ?_, fun hlayout hr => ?_⟩⟩
    · conv_lhs => rw [frame]
      rfl
    · rintro ⟨rfl⟩; rfl
    · rintro ⟨rfl⟩; rfl
    · rintro ⟨rfl⟩; rfl
    · rintro ⟨rfl⟩; rfl
    · rintro ⟨rfl⟩; rfl
    · cases hr
      simp only [readRegister, hlayout]
      obtain ⟨src, dst⟩ := addressAdd_bits s.dma[ch] (takeFreeWord s).1
      obtain ⟨four, zero⟩ := srcIncCode_default s.dma[ch].srcAddrInc
      exact ⟨fun h => src.trans (four h), fun h => src.trans (zero h), fun h => by rw [dst, h, dstIncCode_default_zero],
        fun code hne h => by rw [dst, h, dstIncCode_default_pow hne]⟩
    · cases hr
      simp only [readRegister, hlayout]
      exact enable_bit s.dma[ch] _
    · cases hr
      simp only [readRegister, hlayout]
      obtain ⟨indirect, src, dst, start⟩ := mode_bits s.dma[ch] (takeFreeWord s).1 _ rfl
      exact ⟨indirect, src, dst, fun code h => by rw [start, h, startFactorCode_default]⟩

end Sys2Proof.Machine
end

section
/-! PROOF. The register surface (30_encoding.md R66 to R70): what a write performs, and bus accesses that meet the register
window (20_memory.md R55). -/

namespace Sys2Proof.Machine

open Sys2Proof.Claims

/-! ## Writes (R66 to R68) -/

theorem execRegWrite_named {s : State} {offset v : Word} {r : Reg} (h : offset.toNat % 4 = 0)
    (hreg : s.regAt offset = some r) : exec (.regWrite offset v) s = writeRegister r v s := by
  change regWrite offset v s = _
  simp [regWrite, registerAligned, h, hreg]

theorem execRegWrite_unnamed {s : State} {offset v : Word} (h : offset.toNat % 4 = 0) (hreg : s.regAt offset = none) :
    exec (.regWrite offset v) s = .next s := by
  change regWrite offset v s = _
  simp [regWrite, registerAligned, h, hreg]

/-- A write to data RAM, seen word by word. -/
theorem Dsp.write_ram_dataRAM (d : Dsp) (bank : Fin 4) (index : Nat) (v : Word) (b : Fin 4) (k : Fin 64) :
    (Dsp.write d (.ram bank index v)).dataRAM[b][k] = if b = bank ∧ k.val = index % 64 then v else d.dataRAM[b][k] := by
  simp only [Dsp.write, Fin.getElem_fin, Vector.getElem_set]
  by_cases hb : b = bank
  · subst hb
    simp [Vector.getElem_set, eq_comm]
  · have hval : bank.val ≠ b.val := fun h => hb (Fin.ext h.symm)
    simp [hb, hval]

/-- The window write's effect on the run state leaves both RAMs. -/
theorem writeWindow_programRAM (r : DspWindow) (v : Word) (d : Dsp) (k : Fin 256) :
    (writeWindow r v d).programRAM[k] =
      if r = .ppd ∧ k = Config.dspWindowProgramIndex d then v else d.programRAM[k] := by
  cases r with
  | ppd =>
    simp only [writeWindow, Dsp.windowEffect, Dsp.setProgram, true_and]
    exact (Vector.getElem_set ..).trans (by simp [Fin.ext_iff, eq_comm])
  | ppaf | pda | pdd => simp [writeWindow, Dsp.windowEffect, Dsp.write]

theorem writeWindow_dataRAM (r : DspWindow) (v : Word) (d : Dsp) (b : Fin 4) (k : Fin 64) :
    (writeWindow r v d).dataRAM[b][k] =
      if r = .pdd ∧ (b, k) = Config.dspWindowDataIndex d then v else d.dataRAM[b][k] := by
  cases r with
  | pdd =>
    refine (Dsp.write_ram_dataRAM ..).trans ?_
    rw [Nat.mod_eq_of_lt (Config.dspWindowDataIndex d).2.isLt]
    simp [Prod.ext_iff, Fin.ext_iff (a := k)]
  | ppaf | pda | ppd => simp [writeWindow, Dsp.windowEffect, Dsp.setProgram]

/-- Two updates of one channel are the second. -/
theorem setChannel_setChannel (s : State) (ch : Channel) (c c' : DmaChannel) :
    (s.setChannel ch c).setChannel ch c' = s.setChannel ch c' := by
  simp [State.setChannel]

/-- A write to an enable register, with no indirect start, changes the channels alone. -/
theorem writeEnable_of_direct {ch : Channel} {v : Word} {s : State}
    (h : v.getLsbD s.cfg.layout.startBit = false ∨ s.dma[ch].indirect = false) :
    ∃ t, writeEnable ch v s = .next t ∧ t = { s with dma := t.dma } := by
  unfold writeEnable
  simp only
  split
  · next hstart =>
    have hdirect : s.dma[ch].indirect = false := h.resolve_left (by rw [State.setChannel_cfg] at hstart; simp [hstart])
    rw [startChannel_of_direct fun _ => by rw [State.setChannel_self]; exact hdirect]
    refine ⟨_, rfl, ?_⟩
    conv_lhs => rw [startDirect_frame]
    rfl
  · exact ⟨_, rfl, rfl⟩

/-- A register write answers, unless it starts a channel in indirect mode. -/
theorem writeRegister_answers {r : Reg} {v : Word} {s : State}
    (h : ∀ ch, r = .enable ch → v.getLsbD s.cfg.layout.startBit = false ∨ s.dma[ch].indirect = false) :
    ∃ t, writeRegister r v s = .next t ∧ t = { s with dma := t.dma, intr := t.intr, dsp := t.dsp } := by
  cases r with
  | enable ch =>
    obtain ⟨t, ht, frame⟩ := writeEnable_of_direct (h ch rfl)
    refine ⟨t, ht, ?_⟩
    rw [frame]
  | readAddr | writeAddr | count | addressAdd | mode | window | ims | ist => exact ⟨_, rfl, rfl⟩

theorem eq_codeField {v : Word} {low : Nat} {code : Fin 8} (h : code.val = (v.extractLsb' low 3).toNat) :
    codeField v low = code := Fin.ext h.symm

/-- Settles O51, register by register. -/
theorem regWritePerformsTheNamedOperation : Obligations.RegWritePerformsTheNamedOperation := by
  refine ⟨⟨rfl, by decide, rfl, dstIncs_default, rfl, rfl, rfl, rfl, rfl, rfl, rfl⟩, ?_⟩
  rintro s offset v l haligned rfl
  refine ⟨fun hr => execRegWrite_named haligned hr, fun hr => execRegWrite_named haligned hr,
    fun hr => execRegWrite_unnamed haligned hr, fun r hr => ?_, fun henable => ?_, ?_⟩
  · exact ⟨_, execRegWrite_named haligned hr, writeWindow_programRAM r v s.dsp, writeWindow_dataRAM r v s.dsp⟩
  · cases hreg : s.regAt offset with
    | none => exact ⟨s, execRegWrite_unnamed haligned hreg, rfl⟩
    | some r =>
      rw [execRegWrite_named haligned hreg]
      exact writeRegister_answers fun ch hr => henable ch (by rw [hreg, hr])
  · rintro ch c rfl
    refine ⟨fun hr => ?_, fun hr => ?_, fun hr => ?_, fun hr code hcode => ?_, fun hr code hcode => ?_, fun hr => ?_⟩
    · exact (execRegWrite_named haligned hr).trans (execConfigure_val s ch ..).symm
    · exact (execRegWrite_named haligned hr).trans (execConfigure_val s ch ..).symm
    · exact (execRegWrite_named haligned hr).trans (execConfigure_val s ch ..).symm
    · obtain rfl := eq_codeField hcode
      exact (execRegWrite_named haligned hr).trans (execConfigure_val s ch ..).symm
    · obtain rfl := eq_codeField hcode
      rw [execRegWrite_named haligned hr]
      have configured : exec (.configure ch s.dma[ch].srcAddr s.dma[ch].dstAddr s.dma[ch].xferCount s.dma[ch].srcAddrInc
          s.dma[ch].dstAddrInc (v.getLsbD s.cfg.layout.indirectBit) (RegLayout.startFactor s.cfg.layout v)) s = _ :=
        execConfigure_val s ch ..
      have updated (t : State) : exec (.setAddressUpdate ch (v.getLsbD s.cfg.layout.updateSrcBit)
          (v.getLsbD s.cfg.layout.updateDstBit)) t = _ := execSetAddressUpdate_val t ch _ _
      rw [RegLayout.startFactor] at configured
      rw [configured, andThen_next, updated, State.setChannel_self, setChannel_setChannel]
      rfl
    · rw [execRegWrite_named haligned hr]
      have enabled : exec (.setEnabled ch (v.getLsbD s.cfg.layout.enableBit)) s = _ := execSetEnabled_val s ch _
      have trigger (t : State) : exec (.trigger ch .software) t = startChannel ch .software t := execTrigger_val t ch _
      rw [enabled, andThen_next, trigger]
      rfl

/-! ## Bus accesses and the register window (R55) -/

/-- The model's check of a write that disturbs its performer is U8's condition. -/
theorem selfDisturbing_iff (p : Performer) (offset v : Word) (s : State) :
    selfDisturbing p offset v s = true ↔ Disturbs s p offset v := by
  unfold selfDisturbing
  cases hreg : s.regAt offset with
  | none => cases p <;> simp [Disturbs, hreg]
  | some r =>
    cases p with
    | channel ch =>
      cases r with
      | enable ch' => simp [Disturbs, hreg, disturbsChannel]
      | readAddr | writeAddr | count | addressAdd | mode | window | ims | ist => simp [Disturbs, hreg, disturbsChannel]
    | dsp =>
      cases r with
      | window w => simp [Disturbs, hreg, disturbsDsp]
      | readAddr | writeAddr | count | addressAdd | mode | enable | ims | ist => simp [Disturbs, hreg, disturbsDsp]
    | otherMaster => simp [Disturbs]

theorem selfDisturbingRead_iff (p : Performer) (offset : Word) (s : State) :
    selfDisturbingRead p offset s = true ↔ DisturbsRead s p offset := by
  cases p with
  | channel ch => simp [DisturbsRead]
  | otherMaster => simp [DisturbsRead]
  | dsp =>
    unfold selfDisturbingRead
    cases hreg : s.regAt offset with
    | none => simp [DisturbsRead, hreg]
    | some r =>
      cases r with
      | window w => simp [DisturbsRead, hreg, readDisturbs]
      | readAddr | writeAddr | count | addressAdd | mode | enable | ims | ist => simp [DisturbsRead, hreg, readDisturbs]

section
variable {s : State} {p : Performer} {a v : Word}

/-- A word access in the register window that would disturb its performer is refused (U8). -/
theorem memRead_disturbing (hin : ¬ s.OffWindow a 4) (h : DisturbsRead s p (a - s.cfg.scuBase)) :
    memRead p a 4 s = .refused .selfDisturbingAccess := by
  rw [memRead, if_pos (not_offWindow hin), if_pos rfl]
  exact if_pos ((selfDisturbingRead_iff ..).2 h)

theorem memWrite_disturbing (hin : ¬ s.OffWindow a 4) (h : Disturbs s p (a - s.cfg.scuBase) v) :
    memWrite p a (wordBytes v) s = .refused .selfDisturbingAccess := by
  rw [memWrite, wordBytes_length, if_pos (not_offWindow hin), if_pos rfl, bytesWord_wordBytes]
  exact if_pos ((selfDisturbing_iff ..).2 h)

/-- Any other word access in the register window is the register access at its offset (R55). -/
theorem memRead_window (hin : ¬ s.OffWindow a 4) (h : ¬ DisturbsRead s p (a - s.cfg.scuBase)) :
    memRead p a 4 s = andThen (regRead (a - s.cfg.scuBase) s) fun r => .next (wordBytes r.1, r.2) := by
  rw [memRead, if_pos (not_offWindow hin), if_pos rfl]
  exact if_neg (mt (selfDisturbingRead_iff ..).1 h)

theorem memWrite_window (hin : ¬ s.OffWindow a 4) (h : ¬ Disturbs s p (a - s.cfg.scuBase) v) :
    memWrite p a (wordBytes v) s = regWrite (a - s.cfg.scuBase) v s := by
  rw [memWrite, wordBytes_length, if_pos (not_offWindow hin), if_pos rfl, bytesWord_wordBytes]
  exact if_neg (mt (selfDisturbing_iff ..).1 h)

/-- A register access at no multiple of 4 is refused (U7). -/
theorem regRead_misaligned {offset : Word} (h : offset.toNat % 4 ≠ 0) :
    regRead offset s = .refused .misalignedRegisterAccess := by simp [regRead, registerAligned, h]

theorem regWrite_misaligned {offset : Word} (h : offset.toNat % 4 ≠ 0) :
    regWrite offset v s = .refused .misalignedRegisterAccess := by simp [regWrite, registerAligned, h]

/-- A word read in the register window returns the register's word and leaves what the register read leaves. -/
theorem memReadWord_window {t : State} {w : Word} (hin : ¬ s.OffWindow a 4) (h : ¬ DisturbsRead s p (a - s.cfg.scuBase))
    (hread : exec (.regRead (a - s.cfg.scuBase)) s = .next t) (hw : t.result = .word w) :
    ∃ u, memReadWord p a s = .next (w, u) ∧ t = { u with result := .word w } := by
  have hread : execRegRead (a - s.cfg.scuBase) s = .next t := hread
  obtain ⟨⟨w', u⟩, hr, ht⟩ := andThen_eq_next.1 hread
  cases ht
  obtain rfl : w' = w := by simpa [State.setResult] using hw
  refine ⟨u, ?_, rfl⟩
  rw [memReadWord, memRead_window hin h, hr, andThen_next, andThen_next, bytesWord_wordBytes]

end

/-- Settles O52: the window's edge decides whose an access is, then its width, its performer and its offset. -/
theorem registerWindowOnTheBus : Obligations.RegisterWindowOnTheBus := by
  refine ⟨fun s offset v h => ⟨?_, regWrite_misaligned h⟩, fun s p a n hoff => ?_, fun s p a n hin => ⟨fun hn => ?_, ?_⟩,
    fun s p a v hin => ⟨fun h => ?_, memWrite_disturbing hin, fun _ =>
      ⟨fun h t w => memReadWord_window hin h, memWrite_window hin⟩⟩⟩
  · change execRegRead offset s = _
    rw [execRegRead, regRead_misaligned h, andThen_refused]
  · refine ⟨_, _, memRead_offWindow hoff, readBusBytes_length n a s, readBusBytes_state n a s, fun hplain => ?_⟩
    rw [readBusBytes_of_plain n a s hplain]
    exact ⟨rfl, fun j hj => by simp [hj]⟩
  · refine ⟨memRead_misaligned hin hn, fun bytes hlength => ?_⟩
    exact memWrite_misaligned (by rw [hlength]; exact hin) (by rw [hlength]; exact hn)
  · rintro rfl hmis
    refine ⟨fun h => ?_, fun v h => (memWrite_window hin h).trans (regWrite_misaligned hmis)⟩
    rw [memRead_window hin h, regRead_misaligned hmis, andThen_refused]
  · rw [memReadWord, memRead_disturbing hin h, andThen_refused]

end Sys2Proof.Machine
end

section
/-! PROOF. The DSP (44_dsp.md): sequencing, jumps, the loop, the end (R168 to R174). -/

namespace Sys2Proof.Machine

open Sys2Proof.Claims

/-! ## The PC advance (R171) -/

/-- A step that changed only the DSP ends with the PC advanced. -/
theorem finishDsp_advanced (d : Dsp) (s : State) : finishDsp d s = .next { s with dsp := advanced d } := finishDsp_next d s

/-- The loop's target is taken when no jump is pending (log entry 18). -/
theorem advancePC_looped_idle {d : Dsp} (h : d.jmpCounter = 0) : Dsp.advancePC d true = { d with PC := d.TOP.toNat } := by
  rw [Dsp.advancePC, if_neg (by omega), if_pos rfl]

theorem advancePC_looped_pending {d : Dsp} (h : d.jmpCounter ≠ 0) : Dsp.advancePC d true = advanced d := by
  have hpos : 0 < d.jmpCounter := by omega
  have plain : Dsp.advancePC d false = advanced d := Dsp.advancePC_false d
  rw [Dsp.advancePC, if_pos hpos] at plain ⊢
  exact plain

/-- Writes of slots, then the PC advance: what neither changes. -/
theorem dspFrame_writes (ws : List DspWrite) (d : Dsp) : DspFrame d (advanced (Dsp.writes d ws)) := by
  rw [Dsp.writes_keep]
  rfl

theorem pcAfter_writes (ws : List DspWrite) (d : Dsp) : pcAfter (Dsp.writes d ws) = pcAfter d := by
  rw [Dsp.writes_keep]
  rfl

theorem jmpCounter_writes (ws : List DspWrite) (d : Dsp) : (Dsp.writes d ws).jmpCounter = d.jmpCounter := by
  rw [Dsp.writes_keep]

/-! ## Jumps (R168) -/

theorem execDspInvalid_next (s : State) : exec .dspInvalid s = .next { s with dsp := advanced s.dsp } :=
  finishDsp_advanced s.dsp s

/-- An untaken `MVI` advances the PC alone (R166). -/
theorem execDspMVI_untaken {s : State} {dest : DspDest} {imm : Word} {width : Nat} {cond : DspCond}
    (h : condHolds cond s.dsp = false) : exec (.dspMVI dest imm width cond) s = .next { s with dsp := advanced s.dsp } := by
  change execDspMVI dest imm width cond s = _
  rw [execDspMVI, h]
  exact finishDsp_advanced s.dsp s

theorem execDspMVI_taken {s : State} {dest : DspDest} {imm : Word} {width : Nat} {cond : DspCond}
    (h : condHolds cond s.dsp = true) : exec (.dspMVI dest imm width cond) s =
      .next { s with dsp := advanced (Dsp.writes s.dsp (dspImmediateWrites dest imm width s.dsp)) } := by
  change execDspMVI dest imm width cond s = _
  rw [execDspMVI, h]
  exact finishDsp_advanced _ s

/-- The advance that takes a pending jump (R171). -/
theorem advanced_of_pending {d : Dsp} (h : d.jmpCounter = 1) :
    advanced d = { d with jmpCounter := 0, PC := d.nextPC.toNat } := by
  rw [advanced, pcAfter, if_pos h, h]

/-- Settles O57: the jump leaves the counter at 1, so the next advance takes its target. -/
theorem dspJumpHasOneDelaySlot : Obligations.DspJumpHasOneDelaySlot := by
  intro s cond target
  have executed : exec (.dspJMP cond target) s = execDspJMP cond target s := rfl
  constructor
  · intro hcond
    refine ⟨_, by rw [executed, execDspJMP, hcond]; exact finishDsp_advanced _ s, rfl, ?_, fun dest imm width cond' h => ?_⟩
    · rw [execDspInvalid_next, advanced_of_pending rfl]
    · rw [execDspMVI_untaken h, advanced_of_pending rfl]
  · intro hcond
    rw [executed, execDspJMP, hcond]
    exact finishDsp_advanced s.dsp s

/-! ## The loop and the end (R169 to R174) -/

/-- Settles O58. -/
theorem dspLoopEndAndInvalid : Obligations.DspLoopEndAndInvalid := by
  intro s
  have btm : exec .dspBTM s = execDspBTM s := rfl
  refine ⟨execDspInvalid_next s, fun hlop => ?_, fun hlop hidle => ?_, fun hlop hpending => ?_, finishDsp_advanced _ s,
    ⟨_, finishDsp_advanced _ _, raised_raise s.cfg.dspEnd.source s.cfg.dspEnd.level s, ?_⟩, ?_⟩
  · rw [btm, execDspBTM, if_pos hlop]
    exact finishDsp_advanced s.dsp s
  · rw [btm, execDspBTM, if_neg hlop, advancePC_looped_idle (by exact hidle)]
    rfl
  · rw [btm, execDspBTM, if_neg hlop, advancePC_looped_pending (by exact hpending)]
    rfl
  · rw [raise_frame]
    rfl
  · exact ⟨_, finishDsp_advanced _ s, rfl, pcAfter_writes _ s.dsp, congrArg (· - 1) (jmpCounter_writes _ s.dsp),
      dspFrame_writes _ s.dsp⟩

end Sys2Proof.Machine
end

section
/-! PROOF. The DSP (44_dsp.md): move immediate and `Operation` (R165, R166, R175, R176). -/

namespace Sys2Proof.Machine

open Sys2Proof.Claims

/-! ## Immediates (R166) -/

/-- The sign-extended immediate is the word with the value of its low `width` bits. -/
theorem signExtendFrom_eq {imm v : Word} {width : Nat} (hwidth : width ≤ 32) (hv : v.toInt = (imm.setWidth width).toInt) :
    signExtendFrom width imm = v := by
  rw [← BitVec.toInt_inj, hv]
  exact BitVec.toInt_signExtend_of_le hwidth

/-- So is the one of the 64-bit registers. -/
theorem toInt_signExtendFrom64 {imm v : Word} {width : Nat} (hwidth : width ≤ 32)
    (hv : v.toInt = (imm.setWidth width).toInt) : (signExtendFrom64 width imm).toInt = v.toInt :=
  (BitVec.toInt_signExtend_of_le (by omega)).trans hv.symm

/-- A narrower sign extension is the low bits of a wider one. -/
theorem setWidth_signExtend {w m n : Nat} (x : BitVec w) (h : n ≤ m) : (x.signExtend m).setWidth n = x.signExtend n := by
  refine BitVec.eq_of_getLsbD_eq fun i hi => ?_
  have him : i < m := by omega
  simp only [BitVec.getLsbD_setWidth, BitVec.getLsbD_signExtend, hi, him, decide_true, Bool.true_and]

/-- LOP's sign extension, to a width below or above 32 bits. -/
theorem signExtendToLop_spec {imm v : Word} {width : Nat} (hwidth : width ≤ 32)
    (hv : v.toInt = (imm.setWidth width).toInt) : ∃ n : BitVec Config.dspLopBits, signExtendToLop width imm = n.toNat ∧
      (Config.dspLopBits ≤ 32 → n = v.setWidth Config.dspLopBits) ∧ (32 ≤ Config.dspLopBits → n.toInt = v.toInt) := by
  refine ⟨(imm.setWidth width).signExtend Config.dspLopBits, rfl, fun h => ?_, fun h => ?_⟩
  · rw [← signExtendFrom_eq hwidth hv]
    exact (setWidth_signExtend _ h).symm
  · exact (BitVec.toInt_signExtend_of_le (by omega)).trans hv.symm

/-! ## Data RAM (R161) -/

/-- The word written at a cursor is read there. -/
theorem Dsp.ramAt_write_ram (d : Dsp) (bank : Fin 4) (index : Nat) (v : Word) :
    Dsp.ramAt (Dsp.write d (.ram bank index v)) bank index = v := by
  simp [Dsp.ramAt, Dsp.write]

/-- Settles O56: the writes of the immediate, destination by destination. -/
theorem dspMoveImmediateIsConditional : Obligations.DspMoveImmediateIsConditional := by
  intro s dest imm width cond hwidth
  refine ⟨⟨rfl, rfl, rfl, rfl, rfl, rfl, rfl, rfl, rfl, rfl, rfl⟩, execDspMVI_untaken, fun hcond => ?_⟩
  refine ⟨_, execDspMVI_taken hcond, rfl, pcAfter_writes _ s.dsp, congrArg (· - 1) (jmpCounter_writes _ s.dsp),
    dspFrame_writes _ s.dsp, fun v hv => ?_⟩
  have value : signExtendFrom width imm = v := signExtendFrom_eq hwidth hv
  refine ⟨?_, ?_, ?_, ?_, ?_, ?_, ?_, ?_, ?_, ?_⟩
  · rintro rfl; rw [← value]; rfl
  · rintro rfl; rw [← value]; rfl
  · rintro rfl; rw [← value]; rfl
  · rintro rfl; rw [← value]; rfl
  · rintro rfl; exact ⟨rfl, toInt_signExtendFrom64 hwidth hv⟩
  · rintro rfl; exact ⟨rfl, toInt_signExtendFrom64 hwidth hv⟩
  · rintro rfl; rw [← value]; rfl
  · rintro rfl
    obtain ⟨n, hn, spec⟩ := signExtendToLop_spec hwidth hv
    refine ⟨n, ?_, spec⟩
    rw [← hn]; rfl
  · rintro bank rfl; rw [← value]; rfl
  · rintro bank postInc rfl
    rw [← value]
    have others (b : Fin 4) (k : Fin 64) (h : b ≠ bank ∨ k.val ≠ Dsp.cursor s.dsp bank % 64) :
        (Dsp.write s.dsp (.ram bank (Dsp.cursor s.dsp bank) (signExtendFrom width imm))).dataRAM[b][k] =
          s.dsp.dataRAM[b][k] :=
      (Dsp.write_ram_dataRAM ..).trans (if_neg (not_and_or.2 h))
    cases postInc with
    | true => exact ⟨Dsp.ramAt_write_ram .., rfl, others⟩
    | false => exact ⟨Dsp.ramAt_write_ram .., rfl, others⟩

/-! ## The slots of an `Operation` (R165) -/

/-- What is read after writes in any order: the value `v`, when one of them puts it there and each of them does or leaves
the place alone. -/
theorem Dsp.read_writes {α : Type} (read : Dsp → α) {v : α} {ws : List DspWrite}
    (each : ∀ w ∈ ws, (∀ d, read (Dsp.write d w) = v) ∨ ∀ d, read (Dsp.write d w) = read d)
    (some_write : ∃ w ∈ ws, ∀ d, read (Dsp.write d w) = v) (d : Dsp) : read (Dsp.writes d ws) = v := by
  have generalised (ws : List DspWrite)
      (each : ∀ w ∈ ws, (∀ d, read (Dsp.write d w) = v) ∨ ∀ d, read (Dsp.write d w) = read d) (d : Dsp)
      (h : read d = v ∨ ∃ w ∈ ws, ∀ d, read (Dsp.write d w) = v) : read (Dsp.writes d ws) = v := by
    induction ws generalizing d with
    | nil => simpa using h
    | cons w ws ih =>
      obtain ⟨head, tail⟩ := List.forall_mem_cons.1 each
      refine ih tail _ ?_
      rcases h with h | h
      · exact .inl (head.elim (fun hw => hw d) fun hw => (hw d).trans h)
      · rw [List.exists_mem_cons_iff] at h
        exact h.imp (fun hw => hw d) id
  exact generalised ws each d (.inr some_write)

/-- The writes of the three slots, whatever their order (U9). -/
theorem mem_inOrder {k : Fin 6} {x y d1 : List DspWrite} {w : DspWrite} :
    w ∈ inOrder k x y d1 ↔ w ∈ x ∨ w ∈ y ∨ w ∈ d1 := by
  unfold inOrder
  split <;> simp only [List.mem_append] <;> tauto

/-- A source's own write is a cursor's (V32). -/
theorem mem_dspSourceWrites {src : DspSource} {S : Dsp} {w : DspWrite} (h : w ∈ dspSourceWrites src S) :
    ∃ bank, w = .ct bank (Dsp.cursor S bank + 1) := by
  unfold dspSourceWrites at h
  split at h
  · exact ⟨_, List.mem_singleton.1 h⟩
  all_goals cases h

/-- The DSP after an `Operation` and the PC advance. -/
theorem execDspOperation_next (s : State) (alu : DspAluOp) (x y d1 : DspSlot) :
    exec (.dspOperation alu x y d1) s = .next { s with dsp := advanced (operate alu x y d1 s.dsp) } :=
  finishDsp_advanced _ s

/-- Neither the slots nor the ALU touch the program, the DMA sub-state and the run flags. -/
theorem dspFrame_operate (alu : DspAluOp) (x y d1 : DspSlot) (S : Dsp) :
    DspFrame S (advanced (operate alu x y d1 S)) := by
  rw [operate, Dsp.writes_keep]
  rfl

/-- The writes of a slot put the value in the place that is read, or leave it alone. -/
def SlotPuts {α : Type} (read : Dsp → α) (v : α) (bus : DspBus) (slot : DspSlot) (S : Dsp) : Prop :=
  ∀ w ∈ dspSlotWrites bus slot S, (∀ d, read (Dsp.write d w) = v) ∨ ∀ d, read (Dsp.write d w) = read d

section
variable {α : Type} {read : Dsp → α} {v : α} {bus : DspBus} {S : Dsp}

theorem slotPuts_idle : SlotPuts read v bus .idle S := fun _ h => absurd h List.not_mem_nil

/-- A move to a destination of one write, seen from a place that no cursor moves. -/
theorem slotPuts_move {src : DspSource} {dst : DspDest} {w : DspWrite} (hdst : dspMoveWrites src dst S = [w])
    (hcursor : ∀ d bank k, read (Dsp.write d (.ct bank k)) = read d)
    (hw : (∀ d, read (Dsp.write d w) = v) ∨ ∀ d, read (Dsp.write d w) = read d) :
    SlotPuts read v bus (.move src dst) S := by
  intro w' hw'
  rcases List.mem_append.1 hw' with h | h
  · obtain ⟨bank, rfl⟩ := mem_dspSourceWrites h
    exact .inr fun d => hcursor d bank _
  · rw [hdst, List.mem_singleton] at h
    exact h ▸ hw

theorem mem_slotWrites_move {src : DspSource} {dst : DspDest} {w : DspWrite} (hdst : dspMoveWrites src dst S = [w]) :
    w ∈ dspSlotWrites bus (.move src dst) S :=
  List.mem_append_right _ (by rw [hdst]; exact List.mem_singleton_self w)

/-- What an `Operation` leaves in a place that neither the ALU nor the PC advance writes: what its slots put there, in
whatever order their writes come. -/
theorem read_operate {alu : DspAluOp} {x y d1 : DspSlot} (hread : ∀ d, read (advanced (Dsp.withAlu d alu S)) = read d)
    (hx : SlotPuts read v .x x S) (hy : SlotPuts read v .y y S) (hd1 : SlotPuts read v .d1 d1 S)
    (some_write : ∃ w, (w ∈ dspSlotWrites .x x S ∨ w ∈ dspSlotWrites .y y S ∨ w ∈ dspSlotWrites .d1 d1 S) ∧
      ∀ d, read (Dsp.write d w) = v) : read (advanced (operate alu x y d1 S)) = v := by
  rw [operate, hread]
  obtain ⟨w, hmem, hw⟩ := some_write
  refine Dsp.read_writes read (fun w' hw' => ?_) ⟨w, mem_inOrder.2 hmem, hw⟩ S
  rcases mem_inOrder.1 hw' with h | h | h
  · exact hx w' h
  · exact hy w' h
  · exact hd1 w' h

end

/-! ## Moves to RX, RY and data RAM (R165) -/

section
variable {v : Word} {bus : DspBus} {src : DspSource} {bank : Fin 4} {index : Nat} {S : Dsp} {alu : DspAluOp}
  {x y d1 : DspSlot}

theorem rx_of_move_ry : SlotPuts Dsp.RX v bus (.move src .ry) S :=
  slotPuts_move rfl (fun _ _ _ => rfl) (.inr fun _ => rfl)

theorem rx_of_move_ram : SlotPuts Dsp.RX v bus (.move src (.ram bank false)) S :=
  slotPuts_move rfl (fun _ _ _ => rfl) (.inr fun _ => rfl)

theorem ry_of_move_rx : SlotPuts Dsp.RY v bus (.move src .rx) S :=
  slotPuts_move rfl (fun _ _ _ => rfl) (.inr fun _ => rfl)

theorem ry_of_move_ram : SlotPuts Dsp.RY v bus (.move src (.ram bank false)) S :=
  slotPuts_move rfl (fun _ _ _ => rfl) (.inr fun _ => rfl)

theorem ram_of_move_rx : SlotPuts (fun d => Dsp.ramAt d bank index) v bus (.move src .rx) S :=
  slotPuts_move rfl (fun _ _ _ => rfl) (.inr fun _ => rfl)

theorem ram_of_move_ry : SlotPuts (fun d => Dsp.ramAt d bank index) v bus (.move src .ry) S :=
  slotPuts_move rfl (fun _ _ _ => rfl) (.inr fun _ => rfl)

/-- A move to RX in the X slot leaves there what its source held, when the other slots do not write RX. -/
theorem rx_operate (hy : SlotPuts Dsp.RX (dspSourceValue src S) .y y S)
    (hd1 : SlotPuts Dsp.RX (dspSourceValue src S) .d1 d1 S) :
    (advanced (operate alu (.move src .rx) y d1 S)).RX = dspSourceValue src S :=
  read_operate (fun _ => rfl) (slotPuts_move rfl (fun _ _ _ => rfl) (.inl fun _ => rfl)) hy hd1
    ⟨_, .inl (mem_slotWrites_move rfl), fun _ => rfl⟩

theorem ry_operate (hx : SlotPuts Dsp.RY (dspSourceValue src S) .x x S)
    (hd1 : SlotPuts Dsp.RY (dspSourceValue src S) .d1 d1 S) :
    (advanced (operate alu x (.move src .ry) d1 S)).RY = dspSourceValue src S :=
  read_operate (fun _ => rfl) hx (slotPuts_move rfl (fun _ _ _ => rfl) (.inl fun _ => rfl)) hd1
    ⟨_, .inr (.inl (mem_slotWrites_move rfl)), fun _ => rfl⟩

theorem ram_operate
    (hx : SlotPuts (fun d => Dsp.ramAt d bank (Dsp.cursor S bank)) (dspSourceValue src S) .x x S)
    (hy : SlotPuts (fun d => Dsp.ramAt d bank (Dsp.cursor S bank)) (dspSourceValue src S) .y y S) :
    Dsp.ramAt (advanced (operate alu x y (.move src (.ram bank false)) S)) bank (Dsp.cursor S bank) = dspSourceValue src S :=
  read_operate (read := fun d => Dsp.ramAt d bank (Dsp.cursor S bank)) (fun _ => rfl) hx hy
    (slotPuts_move rfl (fun _ _ _ => rfl) (.inl fun _ => Dsp.ramAt_write_ram ..))
    ⟨_, .inr (.inr (mem_slotWrites_move rfl)), fun _ => Dsp.ramAt_write_ram ..⟩

/-- An X move from a post-incrementing source alone advances its cursor. -/
theorem cursor_operate :
    (advanced (operate alu (.move (.ram bank true) .rx) .idle .idle S)).CT[bank] = (S.CT[bank] + 1) % 64 := by
  have advances (d : Dsp) : (Dsp.write d (.ct bank (Dsp.cursor S bank + 1))).CT[bank] = (S.CT[bank] + 1) % 64 := by
    simp [Dsp.write, Dsp.cursor]
  refine read_operate (read := fun d => d.CT[bank]) (fun _ => rfl) (fun w hw => ?_) slotPuts_idle slotPuts_idle
    ⟨_, .inl (List.mem_cons_self ..), advances⟩
  rcases List.mem_cons.1 hw with rfl | hw
  · exact .inl advances
  · rw [List.mem_singleton.1 hw]
    exact .inr fun _ => rfl

/-- A multiply alone leaves the product in P. -/
theorem p_operate : (advanced (operate alu .multiply .idle .idle S)).P = dspProduct S :=
  read_operate (fun _ => rfl) (fun _ hw => .inl fun _ => by rw [List.mem_singleton.1 hw]; rfl) slotPuts_idle slotPuts_idle
    ⟨_, .inl (List.mem_singleton_self _), fun _ => rfl⟩

end

/-! ## The product and the ALU (R175) -/

/-- A product of two signed 32-bit words fits 64 bits. -/
theorem toInt_dspProduct (S : Dsp) : (dspProduct S).toInt = S.RX.toInt * S.RY.toInt := by
  have rx_low := S.RX.le_toInt
  have rx_high := S.RX.toInt_lt
  have ry_low := S.RY.le_toInt
  have ry_high := S.RY.toInt_lt
  rw [dspProduct, BitVec.toInt_mul, BitVec.toInt_signExtend_of_le (by decide), BitVec.toInt_signExtend_of_le (by decide)]
  norm_num at rx_low rx_high ry_low ry_high
  refine Int.bmod_eq_of_le ?_ ?_
  · norm_num
    nlinarith
  · norm_num
    nlinarith

/-- The low half of the ALU result is the operation on the two operands. -/
theorem aluValue_low (S : Dsp) {alu : DspAluOp} {a b : Word} (h : Config.dspAluOperands alu S = (a, b)) :
    (alu = .and → (aluValue alu S).setWidth 32 = a &&& b) ∧ (alu = .or → (aluValue alu S).setWidth 32 = a ||| b) ∧
      (alu = .xor → (aluValue alu S).setWidth 32 = a ^^^ b) ∧ (alu = .add → (aluValue alu S).setWidth 32 = a + b) ∧
      (alu = .sub → (aluValue alu S).setWidth 32 = a - b) := by
  refine ⟨?_, ?_, ?_, ?_, ?_⟩
  all_goals
    rintro rfl
    rw [aluValue, h]
    exact BitVec.setWidth_append_eq_right

theorem saddOverflow_iff (a b : Word) :
    BitVec.saddOverflow a b = true ↔ a.toInt + b.toInt < -2 ^ 31 ∨ 2 ^ 31 ≤ a.toInt + b.toInt := by
  simp [BitVec.saddOverflow, or_comm]

theorem ssubOverflow_iff (a b : Word) :
    BitVec.ssubOverflow a b = true ↔ a.toInt - b.toInt < -2 ^ 31 ∨ 2 ^ 31 ≤ a.toInt - b.toInt := by
  simp [BitVec.ssubOverflow, or_comm]

/-- ADD and SUB set overflow on signed overflow; without it they do not set it. -/
theorem aluOverflow_add {S : Dsp} {a b : Word} (h : Config.dspAluOperands .add S = (a, b)) :
    ((a.toInt + b.toInt < -2 ^ 31 ∨ 2 ^ 31 ≤ a.toInt + b.toInt) → aluOverflow .add S = true) ∧
      (-2 ^ 31 ≤ a.toInt + b.toInt → a.toInt + b.toInt < 2 ^ 31 → aluOverflow .add S = true → S.overflow = true) := by
  simp only [aluOverflow, h, Bool.or_eq_true, Bool.and_eq_true, saddOverflow_iff]
  exact ⟨.inl, fun hlow hhigh hset => hset.elim (fun hover => by omega) And.left⟩

theorem aluOverflow_sub {S : Dsp} {a b : Word} (h : Config.dspAluOperands .sub S = (a, b)) :
    ((a.toInt - b.toInt < -2 ^ 31 ∨ 2 ^ 31 ≤ a.toInt - b.toInt) → aluOverflow .sub S = true) ∧
      (-2 ^ 31 ≤ a.toInt - b.toInt → a.toInt - b.toInt < 2 ^ 31 → aluOverflow .sub S = true → S.overflow = true) := by
  simp only [aluOverflow, h, Bool.or_eq_true, Bool.and_eq_true, ssubOverflow_iff]
  exact ⟨.inl, fun hlow hhigh hset => hset.elim (fun hover => by omega) And.left⟩

/-- Settles O55: the ALU, the product and what each slot puts where, in any order of the three slots' writes. -/
theorem dspOperationReadsThePreInstructionState : Obligations.DspOperationReadsThePreInstructionState := by
  intro s alu x y d1
  refine ⟨_, execDspOperation_next s alu x y d1, rfl, pcAfter_writes _ s.dsp, congrArg (· - 1) (jmpCounter_writes _ s.dsp), ?_,
    ?_, ?_, ?_, ?_, ?_, fun a b hops => ?_, ?_⟩
  · exact dspFrame_operate alu x y d1 s.dsp
  · rintro src bank rfl rfl rfl
    exact ⟨rx_operate slotPuts_idle rx_of_move_ram, ram_operate ram_of_move_rx slotPuts_idle⟩
  · rintro bank rfl rfl rfl
    exact ⟨rx_operate slotPuts_idle slotPuts_idle, cursor_operate⟩
  · rintro src bank bank' rfl rfl rfl
    exact ⟨rx_operate rx_of_move_ry rx_of_move_ram, ry_operate ry_of_move_rx ry_of_move_ram,
      ram_operate ram_of_move_rx ram_of_move_ry⟩
  · rintro bank rfl rfl rfl
    exact ⟨rx_operate rx_of_move_ry rx_of_move_ram, ry_operate ry_of_move_rx ry_of_move_ram,
      ram_operate ram_of_move_rx ram_of_move_ry⟩
  · rintro rfl rfl rfl
    rw [p_operate]
    exact toInt_dspProduct s.dsp
  · obtain ⟨and_low, or_low, xor_low, add_low, sub_low⟩ := aluValue_low s.dsp hops
    refine ⟨and_low, or_low, xor_low, add_low, sub_low, ?_, ?_, ?_, ?_⟩
    · rintro rfl; exact (aluOverflow_add hops).1
    · rintro rfl; exact (aluOverflow_sub hops).1
    · rintro rfl; exact (aluOverflow_add hops).2
    · rintro rfl; exact (aluOverflow_sub hops).2
  · rintro form rfl hset
    exact (Bool.and_eq_true .. ▸ hset : _ ∧ _).1

end Sys2Proof.Machine
end

section
/-! PROOF. The DSP's DMA (44_dsp.md R167): one word, a run of words, on the DSP's side and on the bus. -/

namespace Sys2Proof.Machine

open Sys2Proof.Claims

/-! ## The DSP's side of a run of words -/

/-- What no word of the DMA changes: everything but the RAMs, the cursors, the two bus addresses and the count. -/
def DspDmaKeeps (d e : Dsp) : Prop :=
  e = { d with programRAM := e.programRAM, dataRAM := e.dataRAM, CT := e.CT, dmaReadAddr := e.dmaReadAddr,
               dmaWriteAddr := e.dmaWriteAddr, dmaCount := e.dmaCount }

theorem DspDmaKeeps.trans {d e f : Dsp} (h : DspDmaKeeps d e) (h' : DspDmaKeeps e f) : DspDmaKeeps d f := by
  unfold DspDmaKeeps at *
  rw [h', h]

/-- The operands the DMA instruction loaded stay while its words move. -/
theorem DspDmaKeeps.operands {d e : Dsp} (h : DspDmaKeeps d e) :
    e.dmaTarget = d.dmaTarget ∧ e.dmaToD0 = d.dmaToD0 ∧ e.dmaHold = d.dmaHold ∧ e.dmaAddrInc = d.dmaAddrInc := by
  unfold DspDmaKeeps at h
  rw [h]
  exact ⟨rfl, rfl, rfl, rfl⟩

theorem Dsp.dmaAdvance_keeps (d : Dsp) : DspDmaKeeps d (Dsp.dmaAdvance d) := by
  unfold DspDmaKeeps Dsp.dmaAdvance
  split <;> rfl

theorem Dsp.dmaStore_keeps (d : Dsp) (v : Word) : DspDmaKeeps d (Dsp.dmaStore d v) := by
  unfold DspDmaKeeps Dsp.dmaStore
  split <;> rfl

/-- An advance leaves both RAMs. -/
theorem Dsp.dmaAdvance_rams (d : Dsp) :
    (Dsp.dmaAdvance d).programRAM = d.programRAM ∧ (Dsp.dmaAdvance d).dataRAM = d.dataRAM := by
  unfold Dsp.dmaAdvance
  split <;> exact ⟨rfl, rfl⟩

/-- An advance moves the target bank's cursor, modulo 64, and no other. -/
theorem Dsp.dmaAdvance_cursor {d : Dsp} {b : Fin 4} (h : d.dmaTarget = .data b) :
    (Dsp.dmaAdvance d).CT[b] = (d.CT[b] + 1) % 64 := by
  simp [Dsp.dmaAdvance, h, Dsp.write, Dsp.cursor]

theorem Dsp.dmaAdvance_cursor_of_ne {d : Dsp} {b : Fin 4} (h : d.dmaTarget ≠ .data b) :
    (Dsp.dmaAdvance d).CT[b] = d.CT[b] := by
  cases hram : d.dmaTarget with
  | program => simp [Dsp.dmaAdvance, hram]
  | data bank =>
    have hne : bank.val ≠ b.val := fun he => h (by rw [hram, Fin.ext he])
    simp [Dsp.dmaAdvance, hram, Dsp.write, hne]

/-- A store leaves cursors, addresses and count. -/
theorem Dsp.dmaStore_keeps_more (d : Dsp) (v : Word) :
    (Dsp.dmaStore d v).CT = d.CT ∧ (Dsp.dmaStore d v).dmaReadAddr = d.dmaReadAddr ∧
      (Dsp.dmaStore d v).dmaWriteAddr = d.dmaWriteAddr ∧ (Dsp.dmaStore d v).dmaCount = d.dmaCount := by
  unfold Dsp.dmaStore
  split <;> exact ⟨rfl, rfl, rfl, rfl⟩

theorem Dsp.dmaStore_programRAM {d : Dsp} {b : Fin 4} (h : d.dmaTarget = .data b) (v : Word) :
    (Dsp.dmaStore d v).programRAM = d.programRAM := by
  simp [Dsp.dmaStore, h, Dsp.write]

theorem Dsp.dmaStore_bank_of_ne {d : Dsp} {b : Fin 4} (h : d.dmaTarget ≠ .data b) (v : Word) :
    (Dsp.dmaStore d v).dataRAM[b] = d.dataRAM[b] := by
  cases hram : d.dmaTarget with
  | program => simp [Dsp.dmaStore, hram, Dsp.setProgram]
  | data bank =>
    have hne : bank.val ≠ b.val := fun he => h (by rw [hram, Fin.ext he])
    simp [Dsp.dmaStore, hram, Dsp.write, hne]

/-- The word stored at the cursor, and the others of the bank. -/
theorem Dsp.dmaStore_ramAt {d : Dsp} {b : Fin 4} (h : d.dmaTarget = .data b) (v : Word) (index : Nat) :
    Dsp.ramAt (Dsp.dmaStore d v) b index = if index % 64 = Dsp.cursor d b % 64 then v else Dsp.ramAt d b index := by
  have stored := Dsp.write_ram_dataRAM d b (Dsp.cursor d b) v b ⟨index % 64, Nat.mod_lt _ (by decide)⟩
  simpa [Dsp.dmaStore, h, Dsp.ramAt] using stored

theorem Dsp.ramAt_mod {d : Dsp} {b : Fin 4} {i j : Nat} (h : i % 64 = j % 64) : Dsp.ramAt d b i = Dsp.ramAt d b j := by
  simp only [Dsp.ramAt, h]

theorem dspAddr_zero (base inc : Word) (hold : Bool) : dspAddr base inc hold 0 = base := by
  cases hold <;> simp [dspAddr, unitAddr]

theorem dspAddr_succ (base inc : Word) (hold : Bool) (k : Nat) :
    dspAddr base inc hold (k + 1) = if hold then dspAddr base inc hold k else dspAddr base inc hold k + inc := by
  cases hold
  · simp only [dspAddr, unitAddr, Bool.not_false, if_true, Bool.false_eq_true, if_false]
    rw [BitVec.ofNat_add, BitVec.add_mul, BitVec.one_mul, BitVec.add_assoc]
  · rfl

/-- The DSP after `k` words of the DMA it had loaded (R167): addresses, count and cursor moved on; the other banks, and
towards the D0 bus both RAMs, as before. -/
structure DspDmaMoved (d e : Dsp) (k : Nat) : Prop where
  keeps : DspDmaKeeps d e
  readAddr : e.dmaReadAddr =
    if d.dmaToD0 then d.dmaReadAddr else dspAddr d.dmaReadAddr d.dmaAddrInc d.dmaHold k
  writeAddr : e.dmaWriteAddr =
    if d.dmaToD0 then dspAddr d.dmaWriteAddr d.dmaAddrInc d.dmaHold k else d.dmaWriteAddr
  count : e.dmaCount = d.dmaCount - BitVec.ofNat 32 k
  cursor : ∀ b : Fin 4, d.dmaTarget = .data b → e.CT[b] % 64 = (d.CT[b] + k) % 64
  program : ∀ b : Fin 4, d.dmaTarget = .data b → e.programRAM = d.programRAM
  banks : ∀ b : Fin 4, d.dmaTarget ≠ .data b → e.CT[b] = d.CT[b] ∧ e.dataRAM[b] = d.dataRAM[b]
  rams : d.dmaToD0 = true → e.programRAM = d.programRAM ∧ e.dataRAM = d.dataRAM

theorem DspDmaMoved.refl (d : Dsp) : DspDmaMoved d d 0 where
  keeps := rfl
  readAddr := by simp [dspAddr_zero]
  writeAddr := by simp [dspAddr_zero]
  count := by simp
  cursor := fun _ _ => rfl
  program := fun _ _ => rfl
  banks := fun _ _ => ⟨rfl, rfl⟩
  rams := fun _ => ⟨rfl, rfl⟩

/-- A word stored on the DSP's side. -/
theorem DspDmaMoved.store {d e : Dsp} {k : Nat} (h : DspDmaMoved d e k) (hfrom : d.dmaToD0 = false) (v : Word) :
    DspDmaMoved d (Dsp.dmaStore e v) k := by
  obtain ⟨target, -, -, -⟩ := h.keeps.operands
  obtain ⟨ct, readAddr, writeAddr, count⟩ := Dsp.dmaStore_keeps_more e v
  exact {
    keeps := h.keeps.trans (Dsp.dmaStore_keeps e v)
    readAddr := readAddr.trans h.readAddr
    writeAddr := writeAddr.trans h.writeAddr
    count := count.trans h.count
    cursor := fun b hb => by rw [ct]; exact h.cursor b hb
    program := fun b hb => (Dsp.dmaStore_programRAM (target.trans hb) v).trans (h.program b hb)
    banks := fun b hb => by
      rw [ct, Dsp.dmaStore_bank_of_ne (by rw [target]; exact hb)]
      exact h.banks b hb
    rams := fun hto => absurd (hto.symm.trans hfrom) (by decide) }

/-- The advance to the next word. -/
theorem DspDmaMoved.advance {d e : Dsp} {k : Nat} (h : DspDmaMoved d e k) : DspDmaMoved d (Dsp.dmaAdvance e) (k + 1) := by
  obtain ⟨target, toD0, hold, inc⟩ := h.keeps.operands
  obtain ⟨programRAM, dataRAM⟩ := Dsp.dmaAdvance_rams e
  have readAddr : (Dsp.dmaAdvance e).dmaReadAddr =
      if e.dmaToD0 || e.dmaHold then e.dmaReadAddr else e.dmaReadAddr + e.dmaAddrInc := rfl
  have writeAddr : (Dsp.dmaAdvance e).dmaWriteAddr =
      if !e.dmaToD0 || e.dmaHold then e.dmaWriteAddr else e.dmaWriteAddr + e.dmaAddrInc := rfl
  have count : (Dsp.dmaAdvance e).dmaCount = e.dmaCount - 1 := rfl
  exact {
    keeps := h.keeps.trans (Dsp.dmaAdvance_keeps e)
    readAddr := by
      rw [readAddr, toD0, hold, inc, h.readAddr, dspAddr_succ]
      cases d.dmaToD0 <;> simp
    writeAddr := by
      rw [writeAddr, toD0, hold, inc, h.writeAddr, dspAddr_succ]
      cases d.dmaToD0 <;> simp
    count := by
      rw [count, h.count, BitVec.ofNat_add, BitVec.sub_sub]
      rfl
    cursor := fun b hb => by
      rw [Dsp.dmaAdvance_cursor (target.trans hb)]
      have := h.cursor b hb
      omega
    program := fun b hb => programRAM.trans (h.program b hb)
    banks := fun b hb => by
      rw [dataRAM, Dsp.dmaAdvance_cursor_of_ne (by rw [target]; exact hb)]
      exact h.banks b hb
    rams := fun hto => ⟨programRAM.trans (h.rams hto).1, dataRAM.trans (h.rams hto).2⟩ }

end Sys2Proof.Machine
end

section
/-! PROOF. The DSP's DMA on the bus, and the DSP's step (44_dsp.md R162 to R164, R167). -/

namespace Sys2Proof.Machine

open Sys2Proof.Claims

/-! ## One word (R167) -/

theorem dspDmaUnit_out {s : State} (hto : s.dsp.dmaToD0 = true) (hoff : s.OffWindow s.dsp.dmaWriteAddr 4) :
    dspDmaUnit s = .next { s with
      mem := (writeBusBytes s.dsp.dmaWriteAddr (wordBytes (Dsp.dmaWord s.dsp)) s).mem, dsp := Dsp.dmaAdvance s.dsp } := by
  obtain ⟨m, hm, -, -⟩ := writeBusBytes_spec s.dsp.dmaWriteAddr (wordBytes (Dsp.dmaWord s.dsp)) s
  rw [dspDmaUnit, if_pos hto, memWrite_offWindow (by rw [wordBytes_length]; exact hoff), andThen_next, hm]
  rfl

theorem dspDmaUnit_in {s : State} (hfrom : s.dsp.dmaToD0 = false) (hoff : s.OffWindow s.dsp.dmaReadAddr 4) :
    dspDmaUnit s = .next { s with
      freeCount := (readBusBytes 4 s.dsp.dmaReadAddr s).2.freeCount
      dsp := Dsp.dmaAdvance (Dsp.dmaStore s.dsp (bytesWord (readBusBytes 4 s.dsp.dmaReadAddr s).1)) } := by
  rw [dspDmaUnit, if_neg (by rw [hfrom]; decide), memReadWord_offWindow hoff, andThen_next, readBusBytes_state]
  rfl

/-- The last of `n + 1` words is one word after `n`. -/
theorem dspDmaUnits_succ (n : Nat) (s : State) : dspDmaUnits (n + 1) s = andThen (dspDmaUnits n s) dspDmaUnit := by
  induction n generalizing s with
  | zero =>
    rw [dspDmaUnits, dspDmaUnits, andThen_next]
    cases dspDmaUnit s <;> rfl
  | succ n ih =>
    rw [dspDmaUnits, dspDmaUnits, andThen_assoc]
    simp only [ih]

/-! ## Words on plain memory (R44) -/

/-- A word depends on its four bytes alone. -/
theorem wordAt_congr {m m' : List Host.Cell} {a : Word}
    (h : ∀ j < 4, Memory.read m' (busAddr a j).toNat = Memory.read m (busAddr a j).toNat) : wordAt m' a = wordAt m a := by
  rw [← bytesWord_range_four, ← bytesWord_range_four]
  exact congrArg bytesWord (List.map_congr_left fun j hj => h j (List.mem_range.1 hj))

/-- A word whose bytes were stored reads back. -/
theorem wordAt_writeBusBytes {s : State} {a w : Word} (hwf : Memory.wf s.mem = true) (hplain : Plain s a 4) :
    wordAt (writeBusBytes a (wordBytes w) s).mem a = w := by
  have stored := writeBusBytes_read a (wordBytes w) s hwf (by rwa [wordBytes_length]) (by rw [wordBytes_length]; decide)
  rw [← bytesWord_range_four]
  conv_rhs => rw [← bytesWord_wordBytes w]
  congr 1
  refine List.ext_getElem (by simp) fun j hj hj' => ?_
  rw [List.getElem_map, List.getElem_range]
  exact stored j _ (List.getElem?_eq_getElem hj')

/-- The bytes of consecutive words are consecutive. -/
theorem busAddr_dspAddr (base : Word) (k j : Nat) : busAddr (dspAddr base 4 false k) j = busAddr base (4 * k + j) := by
  simp only [dspAddr, unitAddr, Bool.not_false, if_true, busAddr, BitVec.add_assoc]
  congr 1
  rw [BitVec.ofNat_add, Nat.mul_comm, BitVec.ofNat_mul]
  rfl

/-! ## A run of words (R167) -/

/-- The state after `m` words towards the D0 bus, sent from `s`. -/
structure DspDmaOut (s t : State) (m : Nat) : Prop where
  frame : t = { s with dsp := t.dsp, mem := t.mem }
  moved : DspDmaMoved s.dsp t.dsp m
  others : ∀ a, (∀ k < m, ∀ j < 4, a ≠ (busAddr (dspAddr s.dsp.dmaWriteAddr s.dsp.dmaAddrInc s.dsp.dmaHold k) j).toNat) →
    Memory.read t.mem a = Memory.read s.mem a
  wf : Memory.wf s.mem = true → Memory.wf t.mem = true
  words : ∀ bank : Fin 4, s.dsp.dmaTarget = .data bank → s.dsp.dmaAddrInc = 4 → s.dsp.dmaHold = false → m ≤ 2 ^ 30 →
    Memory.wf s.mem = true → ∀ k < m, Plain s (dspAddr s.dsp.dmaWriteAddr s.dsp.dmaAddrInc s.dsp.dmaHold k) 4 →
      wordAt t.mem (dspAddr s.dsp.dmaWriteAddr s.dsp.dmaAddrInc s.dsp.dmaHold k) = Dsp.ramAt s.dsp bank (s.dsp.CT[bank] + k)

/-- The state after `m` words from the D0 bus, taken from `s`. -/
structure DspDmaIn (s t : State) (m : Nat) : Prop where
  frame : t = { s with dsp := t.dsp, freeCount := t.freeCount }
  moved : DspDmaMoved s.dsp t.dsp m
  words : ∀ bank : Fin 4, s.dsp.dmaTarget = .data bank → m ≤ 64 →
    ∀ k < m, Plain s (dspAddr s.dsp.dmaReadAddr s.dsp.dmaAddrInc s.dsp.dmaHold k) 4 →
      Dsp.ramAt t.dsp bank (s.dsp.CT[bank] + k) = wordAt s.mem (dspAddr s.dsp.dmaReadAddr s.dsp.dmaAddrInc s.dsp.dmaHold k)

theorem DspDmaOut.refl (s : State) : DspDmaOut s s 0 where
  frame := rfl
  moved := .refl s.dsp
  others := fun _ _ => rfl
  wf := id
  words := fun _ _ _ _ _ _ k hk => absurd hk (Nat.not_lt_zero k)

theorem DspDmaIn.refl (s : State) : DspDmaIn s s 0 where
  frame := rfl
  moved := .refl s.dsp
  words := fun _ _ _ k hk => absurd hk (Nat.not_lt_zero k)

/-- The word the DMA sends next. -/
theorem DspDmaMoved.dmaWord {d e : Dsp} {m : Nat} (h : DspDmaMoved d e m) (hto : d.dmaToD0 = true) {bank : Fin 4}
    (hram : d.dmaTarget = .data bank) : Dsp.dmaWord e = Dsp.ramAt d bank (d.CT[bank] + m) := by
  obtain ⟨target, -, -, -⟩ := h.keeps.operands
  have hword : Dsp.dmaWord e = Dsp.ramAt e bank e.CT[bank] := by
    rw [Dsp.dmaWord, target, hram]
    rfl
  rw [hword, Dsp.ramAt_mod (h.cursor bank hram), Dsp.ramAt, (h.rams hto).2, Dsp.ramAt]

theorem frame_out {s t : State} (h : t = { s with dsp := t.dsp, mem := t.mem }) (d : Dsp) (m : List Host.Cell) :
    { t with dsp := d, mem := m } = { s with dsp := d, mem := m } := by rw [h]

theorem frame_in {s t : State} (h : t = { s with dsp := t.dsp, freeCount := t.freeCount }) (d : Dsp) (f : Nat) :
    { t with dsp := d, freeCount := f } = { s with dsp := d, freeCount := f } := by rw [h]

/-- One more word towards the D0 bus. -/
theorem DspDmaOut.step {s t : State} {m : Nat} (h : DspDmaOut s t m) (hto : s.dsp.dmaToD0 = true) :
    DspDmaOut s { t with
      mem := (writeBusBytes t.dsp.dmaWriteAddr (wordBytes (Dsp.dmaWord t.dsp)) t).mem
      dsp := Dsp.dmaAdvance t.dsp } (m + 1) := by
  obtain ⟨mem, hm, unwritten, wf⟩ := writeBusBytes_spec t.dsp.dmaWriteAddr (wordBytes (Dsp.dmaWord t.dsp)) t
  have addr := h.moved.writeAddr
  rw [if_pos hto] at addr
  rw [wordBytes_length, addr] at unwritten
  have hmem : (writeBusBytes t.dsp.dmaWriteAddr (wordBytes (Dsp.dmaWord t.dsp)) t).mem = mem := by rw [hm, State.setMem_mem]
  exact {
    frame := frame_out h.frame _ _
    moved := h.moved.advance
    others := fun a ha => by
      have last := unwritten a fun j hj => ha m (Nat.lt_succ_self m) j hj
      have before := h.others a fun k hk j hj => ha k (by omega) j hj
      rw [← last, ← hmem] at before
      exact before
    wf := fun hwf => by
      rw [hmem]
      exact wf (h.wf hwf)
    words := fun bank hram hinc hhold hm hwf k hk hplain => by
      rcases Nat.lt_succ_iff_lt_or_eq.1 hk with hk | rfl
      · rw [← h.words bank hram hinc hhold (by omega) hwf k hk hplain, hmem]
        refine wordAt_congr fun j hj => unwritten _ fun i hi => ?_
        rw [hinc, hhold, busAddr_dspAddr, busAddr_dspAddr]
        exact busAddr_ne _ (by omega) (by omega) (by omega)
      · rw [← h.moved.dmaWord hto hram, ← addr]
        refine wordAt_writeBusBytes (h.wf hwf) ?_
        rw [h.frame, Plain]
        exact addr ▸ hplain }

/-- One more word from the D0 bus. -/
theorem DspDmaIn.step {s t : State} {m : Nat} (h : DspDmaIn s t m) (hfrom : s.dsp.dmaToD0 = false) :
    DspDmaIn s { t with
      freeCount := (readBusBytes 4 t.dsp.dmaReadAddr t).2.freeCount
      dsp := Dsp.dmaAdvance (Dsp.dmaStore t.dsp (bytesWord (readBusBytes 4 t.dsp.dmaReadAddr t).1)) } (m + 1) := by
  have addr := h.moved.readAddr
  rw [hfrom, if_neg (by decide)] at addr
  obtain ⟨target, -, -, -⟩ := h.moved.keeps.operands
  have mem_eq : t.mem = s.mem := by rw [h.frame]
  have cfg_eq : t.cfg = s.cfg := by rw [h.frame]
  exact {
    frame := frame_in h.frame _ _
    moved := (h.moved.store hfrom _).advance
    words := fun bank hram hm k hk hplain => by
      have stored := Dsp.dmaStore_ramAt (target.trans hram) (bytesWord (readBusBytes 4 t.dsp.dmaReadAddr t).1)
        (s.dsp.CT[bank] + k)
      have cursor : Dsp.cursor t.dsp bank % 64 = (s.dsp.CT[bank] + m) % 64 := h.moved.cursor bank hram
      have advanced (d : Dsp) (index : Nat) : Dsp.ramAt (Dsp.dmaAdvance d) bank index = Dsp.ramAt d bank index := by
        rw [Dsp.ramAt, (Dsp.dmaAdvance_rams d).2, Dsp.ramAt]
      rw [advanced, stored, cursor]
      rcases Nat.lt_succ_iff_lt_or_eq.1 hk with hk | rfl
      · rw [if_neg (by omega)]
        exact h.words bank hram (by omega) k hk hplain
      · rw [if_pos rfl, addr, readBusBytes_of_plain 4 _ t (by rw [cfg_eq]; exact hplain), mem_eq]
        exact bytesWord_range_four s.mem _ }

/-- Words towards the D0 bus whose addresses lie outside the register window are sent. -/
theorem dspDmaUnits_out (m : Nat) {s : State} (hto : s.dsp.dmaToD0 = true)
    (hoff : ∀ k < m, s.OffWindow (dspAddr s.dsp.dmaWriteAddr s.dsp.dmaAddrInc s.dsp.dmaHold k) 4) :
    ∃ t, dspDmaUnits m s = .next t ∧ DspDmaOut s t m := by
  induction m with
  | zero => exact ⟨s, rfl, .refl s⟩
  | succ m ih =>
    obtain ⟨t, ht, out⟩ := ih fun k hk => hoff k (by omega)
    obtain ⟨-, toD0, -, -⟩ := out.moved.keeps.operands
    have addr := out.moved.writeAddr
    rw [if_pos hto] at addr
    have off : t.OffWindow t.dsp.dmaWriteAddr 4 := by
      rw [addr, out.frame]
      exact hoff m (Nat.lt_succ_self m)
    refine ⟨_, ?_, out.step hto⟩
    rw [dspDmaUnits_succ, ht, andThen_next]
    exact dspDmaUnit_out (toD0.trans hto) off

/-- Words from the D0 bus whose addresses lie outside the register window are taken. -/
theorem dspDmaUnits_in (m : Nat) {s : State} (hfrom : s.dsp.dmaToD0 = false)
    (hoff : ∀ k < m, s.OffWindow (dspAddr s.dsp.dmaReadAddr s.dsp.dmaAddrInc s.dsp.dmaHold k) 4) :
    ∃ t, dspDmaUnits m s = .next t ∧ DspDmaIn s t m := by
  induction m with
  | zero => exact ⟨s, rfl, .refl s⟩
  | succ m ih =>
    obtain ⟨t, ht, taken⟩ := ih fun k hk => hoff k (by omega)
    obtain ⟨-, toD0, -, -⟩ := taken.moved.keeps.operands
    have addr := taken.moved.readAddr
    rw [hfrom, if_neg (by decide)] at addr
    have off : t.OffWindow t.dsp.dmaReadAddr 4 := by
      rw [addr, taken.frame]
      exact hoff m (Nat.lt_succ_self m)
    refine ⟨_, ?_, taken.step hfrom⟩
    rw [dspDmaUnits_succ, ht, andThen_next]
    exact dspDmaUnit_in (toD0.trans hfrom) off

end Sys2Proof.Machine
end

section
/-! PROOF. The DSP's DMA instruction and the DSP's step (44_dsp.md R162 to R164, R167). -/

namespace Sys2Proof.Machine

open Sys2Proof.Claims

/-! ## A run of words in either direction -/

/-- Words whose D0 addresses lie outside the register window move, in the direction the DMA has. -/
theorem dspDmaUnits_ran (m : Nat) {s : State}
    (hoff : ∀ k < m, s.OffWindow (dspAddr (if s.dsp.dmaToD0 then s.dsp.dmaWriteAddr else s.dsp.dmaReadAddr)
      s.dsp.dmaAddrInc s.dsp.dmaHold k) 4) :
    ∃ t, dspDmaUnits m s = .next t ∧ t = { s with dsp := t.dsp, mem := t.mem, freeCount := t.freeCount } ∧
      DspDmaMoved s.dsp t.dsp m ∧ (s.dsp.dmaToD0 = true → DspDmaOut s t m) ∧ (s.dsp.dmaToD0 = false → DspDmaIn s t m) := by
  cases hdir : s.dsp.dmaToD0 with
  | true =>
    obtain ⟨t, ht, out⟩ := dspDmaUnits_out m hdir (by simpa only [hdir, if_true] using hoff)
    exact ⟨t, ht, by rw [out.frame], out.moved, fun _ => out, nofun⟩
  | false =>
    obtain ⟨t, ht, taken⟩ := dspDmaUnits_in m hdir (by simpa only [hdir, Bool.false_eq_true, if_false] using hoff)
    exact ⟨t, ht, by rw [taken.frame], taken.moved, nofun, fun _ => taken⟩

/-! ## The step (R162 to R164) -/

/-- What the DSP can reach where the bus has no register window: itself, memory, the interrupt registers, the trace. -/
def DspOwn (s t : State) : Prop :=
  t = { s with dsp := t.dsp, mem := t.mem, intr := t.intr, traceLog := t.traceLog, freeCount := t.freeCount }

theorem DspOwn.trans {s t u : State} (h : DspOwn s t) (h' : DspOwn t u) : DspOwn s u := by
  unfold DspOwn at *
  rw [h', h]

theorem DspOwn.setDsp {s t : State} (h : DspOwn s t) (d : Dsp) : DspOwn s (t.setDsp d) :=
  h.trans (rfl : DspOwn t (t.setDsp d))

theorem DspOwn.cfg_eq {s t : State} (h : DspOwn s t) : t.cfg = s.cfg := by
  unfold DspOwn at h
  rw [h]

/-- The state in which a DMA instruction's words start to move: the sub-state loaded, the notification made (R167). -/
def State.dmaLoaded (s : State) (toD0 hold : Bool) (count : DspDmaCount) (ram : DspRam) (inc : Word) : State :=
  { s with
    dsp := Dsp.loadDma s.dsp toD0 hold count ram inc
    traceLog := traced s (.dspDMA toD0 hold (dspCountValue count s.dsp)) }

/-- A DMA instruction loads its sub-state, moves words and advances the PC. -/
theorem execDspDMA_next {s t : State} {toD0 hold : Bool} {count : DspDmaCount} {ram : DspRam} {inc : Word}
    (ht : dspDmaMove (Config.dspDmaWordsAtOnce (Dsp.loadDma s.dsp toD0 hold count ram inc))
      (s.dmaLoaded toD0 hold count ram inc) = .next t) :
    execDspDMA toD0 hold count ram inc s = .next (t.setDsp (advanced t.dsp)) := by
  have loaded : (s.setDsp (Dsp.loadDma s.dsp toD0 hold count ram inc)).trace
      (.dspDMA toD0 hold (Dsp.loadDma s.dsp toD0 hold count ram inc).dmaCount) = s.dmaLoaded toD0 hold count ram inc :=
    State.trace_eq ..
  rw [execDspDMA]
  simp only [loaded, ht, andThen_next]
  exact finishDsp_advanced t.dsp t

theorem dspDmaMove_own (n : Nat) {s : State} (h : s.cfg.scuWindowBytes = 0) : ∃ t, dspDmaMove n s = .next t ∧ DspOwn s t := by
  obtain ⟨t, ht, frame, -⟩ := dspDmaUnits_ran (min n s.dsp.dmaCount.toNat) (s := s) fun _ _ => touchesWindow_of_zero h _ _
  refine ⟨_, by rw [dspDmaMove, ht, andThen_next], ?_⟩
  rw [frame]
  rfl

theorem dspDmaProgress_own {s : State} (h : s.cfg.scuWindowBytes = 0) : ∃ t, dspDmaProgress s = .next t ∧ DspOwn s t := by
  unfold dspDmaProgress
  split
  · exact dspDmaMove_own _ h
  · exact ⟨s, rfl, rfl⟩

/-- Every decoded instruction answers and reaches nothing else. -/
theorem executeDsp_own (i : DspInstr) {s : State} (h : s.cfg.scuWindowBytes = 0) :
    ∃ t, executeDsp i s = .next t ∧ DspOwn s t := by
  cases i with
  | dma toD0 hold count ram inc =>
    obtain ⟨t, ht, own⟩ := dspDmaMove_own (Config.dspDmaWordsAtOnce (Dsp.loadDma s.dsp toD0 hold count ram inc))
      (s := s.dmaLoaded toD0 hold count ram inc) h
    have loaded : DspOwn s (s.dmaLoaded toD0 hold count ram inc) := rfl
    exact ⟨_, execDspDMA_next ht, (loaded.trans own).setDsp _⟩
  | btm =>
    simp only [executeDsp, execDspBTM]
    split
    · exact ⟨_, rfl, rfl⟩
    · exact ⟨_, rfl, rfl⟩
  | programEndi =>
    refine ⟨_, finishDsp_advanced _ _, ?_⟩
    rw [raise_frame]
    rfl
  | operation | mvi | jmp | lps | programEnd | invalid => exact ⟨_, rfl, rfl⟩

theorem exec_ofDsp (i : DspInstr) (s : State) : exec (Instr.ofDsp i) s = executeDsp i s := by
  cases i <;> rfl

/-- With no DSP DMA in progress a running DSP's step is its instruction (R162). -/
theorem dspStep_of_running {s : State} (hexec : s.dsp.programExecuting = true) (hpaused : s.dsp.programPaused = false) :
    dspStep s = andThen (dspDmaProgress s) fun t =>
      if s.dsp.dmaRun && Config.dspDmaStalls t.dsp then .next t else runDspInstruction t := by
  have running : Dsp.running s.dsp = true := by simp [Dsp.running, hexec, hpaused]
  rw [dspStep, running, if_pos rfl]

/-- What `programStep` does after an instruction (log entry 17). -/
theorem afterStep_frame (d : Dsp) :
    Dsp.afterStep d = { d with
      programPaused := (Dsp.afterStep d).programPaused, programStep := (Dsp.afterStep d).programStep } ∧
      (d.programStep = false → Dsp.afterStep d = d) := by
  unfold Dsp.afterStep
  split
  · next h => exact ⟨rfl, fun h' => absurd (h.symm.trans h') (by decide)⟩
  · exact ⟨rfl, fun _ => rfl⟩

/-- Settles O54. -/
theorem dspStepExecutesTheDecodedWord : Obligations.DspStepExecutesTheDecodedWord := by
  intro s
  have step : exec .dspStep s = dspStep s := rfl
  rw [step]
  refine ⟨dspStep_of_stopped, fun hexec hpaused => ⟨fun hidle pc hpc t ht => ?_, fun hzero => ?_⟩⟩
  · have fetched : Dsp.programAt s.dsp s.dsp.PC = s.dsp.programRAM[pc] := by
      simp [Dsp.programAt, hpc, Nat.mod_eq_of_lt pc.isLt]
    have answer : dspStep s = .next (t.setDsp (Dsp.afterStep t.dsp)) := by
      rw [dspStep_of_running hexec hpaused, dspDmaProgress, hidle]
      change runDspInstruction s = _
      rw [runDspInstruction, fetched, ← exec_ofDsp, ht, andThen_next]
    obtain ⟨frame, same⟩ := afterStep_frame t.dsp
    exact ⟨_, answer, congrArg t.setDsp frame, fun h => congrArg t.setDsp (same h)⟩
  · obtain ⟨t, ht, own⟩ := dspDmaProgress_own hzero
    rw [dspStep_of_running hexec hpaused, ht, andThen_next]
    split
    · exact ⟨t, rfl, own⟩
    · obtain ⟨u, hu, own'⟩ := executeDsp_own (Config.dspDecode (Dsp.programAt t.dsp t.dsp.PC)) (s := t)
        (by rw [own.cfg_eq]; exact hzero)
      exact ⟨_, by rw [runDspInstruction, hu, andThen_next], (own.trans own').setDsp _⟩

/-! ## The DMA instruction (R167) -/

/-- A count operand writes at most a cursor. -/
theorem writes_dspCountWrites (count : DspDmaCount) (S : Dsp) :
    Dsp.writes S (dspCountWrites count S) = { S with CT := (Dsp.writes S (dspCountWrites count S)).CT } := by
  unfold dspCountWrites dspSourceWrites
  split
  · rfl
  · split <;> rfl

/-- The cursor after a count operand that advances it. -/
theorem loadDma_cursor (S : Dsp) (toD0 hold : Bool) (count : DspDmaCount) (ram : DspRam) (inc : Word) (b : Fin 4) :
    (Dsp.loadDma S toD0 hold count ram inc).CT[b] =
      if count = .register (.ram b true) then (S.CT[b] + 1) % 64 else S.CT[b] := by
  change (Dsp.writes S (dspCountWrites count S)).CT[b] = _
  cases count with
  | immediate n => simp [dspCountWrites]
  | register src =>
    cases src with
    | ram bank postInc =>
      cases postInc with
      | true =>
        by_cases hb : bank = b
        · subst hb
          simp [dspCountWrites, dspSourceWrites, Dsp.write, Dsp.cursor]
        · have hval : bank.val ≠ b.val := fun h => hb (Fin.ext h)
          simp [dspCountWrites, dspSourceWrites, Dsp.write, hb, hval]
      | false => simp [dspCountWrites, dspSourceWrites]
    | ct | rx | ry | lop | top | alu | ac | p | other => simp [dspCountWrites, dspSourceWrites]

/-- What the load leaves of the state before. -/
theorem loadDma_eq (S : Dsp) (toD0 hold : Bool) (count : DspDmaCount) (ram : DspRam) (inc : Word) :
    Dsp.loadDma S toD0 hold count ram inc =
      { S with
        CT := (Dsp.loadDma S toD0 hold count ram inc).CT, dmaRun := true, dmaToD0 := toD0, dmaHold := hold
        dmaCount := dspCountValue count S
        dmaSrc := (Config.dspDmaLoad (.dma toD0 hold count ram inc) S).src
        dmaDst := (Config.dspDmaLoad (.dma toD0 hold count ram inc) S).dst
        dmaReadAddr := (Config.dspDmaLoad (.dma toD0 hold count ram inc) S).readAddr
        dmaWriteAddr := (Config.dspDmaLoad (.dma toD0 hold count ram inc) S).writeAddr
        dmaAddrInc := inc, dmaTarget := ram } := by
  unfold Dsp.loadDma
  rw [writes_dspCountWrites]

theorem loadDma_rams (S : Dsp) (toD0 hold : Bool) (count : DspDmaCount) (ram : DspRam) (inc : Word) :
    (Dsp.loadDma S toD0 hold count ram inc).programRAM = S.programRAM ∧
      (Dsp.loadDma S toD0 hold count ram inc).dataRAM = S.dataRAM := by
  rw [loadDma_eq]
  exact ⟨rfl, rfl⟩

/-- The loaded sub-state and the untouched registers, after some words and the PC advance. -/
theorem loaded_moved_frame {S e : Dsp} {toD0 hold : Bool} {count : DspDmaCount} {ram : DspRam} {inc : Word}
    (h : DspDmaKeeps (Dsp.loadDma S toD0 hold count ram inc) e) :
    advanced (Dsp.dmaSettle e) =
      { S with
        programRAM := e.programRAM, dataRAM := e.dataRAM, CT := e.CT, dmaReadAddr := e.dmaReadAddr
        dmaWriteAddr := e.dmaWriteAddr, dmaCount := e.dmaCount, dmaRun := decide (e.dmaCount ≠ 0), dmaToD0 := toD0
        dmaHold := hold, dmaAddrInc := inc, dmaTarget := ram
        dmaSrc := (Config.dspDmaLoad (.dma toD0 hold count ram inc) S).src
        dmaDst := (Config.dspDmaLoad (.dma toD0 hold count ram inc) S).dst
        PC := pcAfter S, jmpCounter := S.jmpCounter - 1 } := by
  unfold DspDmaKeeps at h
  rw [loadDma_eq] at h
  rw [h]
  rfl

/-- A DMA instruction whose D0 addresses lie outside the register window, with the run of words it starts. -/
theorem execDspDMA_moves {s : State} {toD0 hold : Bool} {count : DspDmaCount} {ram : DspRam} {inc : Word}
    (hoff : ∀ k < (dspCountValue count s.dsp).toNat, s.OffWindow (dspAddr
      (if toD0 then (Dsp.loadDma s.dsp toD0 hold count ram inc).dmaWriteAddr
        else (Dsp.loadDma s.dsp toD0 hold count ram inc).dmaReadAddr) inc hold k) 4) :
    ∃ m t, m ≤ (dspCountValue count s.dsp).toNat ∧
      exec (.dspDMA toD0 hold count ram inc) s = .next (t.setDsp (advanced (Dsp.dmaSettle t.dsp))) ∧
      t = { s.dmaLoaded toD0 hold count ram inc with dsp := t.dsp, mem := t.mem, freeCount := t.freeCount } ∧
      DspDmaMoved (Dsp.loadDma s.dsp toD0 hold count ram inc) t.dsp m ∧
      (toD0 = true → DspDmaOut (s.dmaLoaded toD0 hold count ram inc) t m) ∧
      (toD0 = false → DspDmaIn (s.dmaLoaded toD0 hold count ram inc) t m) := by
  obtain ⟨t, ht, frame, moved, out, taken⟩ := dspDmaUnits_ran
    (min (Config.dspDmaWordsAtOnce (Dsp.loadDma s.dsp toD0 hold count ram inc)) (dspCountValue count s.dsp).toNat)
    (s := s.dmaLoaded toD0 hold count ram inc) fun k hk => hoff k (by omega)
  refine ⟨_, t, Nat.min_le_right .., ?_, frame, moved, out, taken⟩
  have settled : dspDmaMove (Config.dspDmaWordsAtOnce (Dsp.loadDma s.dsp toD0 hold count ram inc))
      (s.dmaLoaded toD0 hold count ram inc) = .next (t.setDsp (Dsp.dmaSettle t.dsp)) := congrArg (andThen · _) ht
  exact execDspDMA_next settled

/-- Settles O59: the run of words, seen from the state before the load. -/
theorem dspDmaMovesWordsBetweenBusAndRam : Obligations.DspDmaMovesWordsBetweenBusAndRam := by
  intro s toD0 hold count n ram inc base first l hn hl hbase hfirst hoff
  have count_eq : n = dspCountValue count s.dsp := hn
  subst count_eq hl hbase
  obtain ⟨m, t, hm, answer, frame, moved, out, taken⟩ := execDspDMA_moves hoff
  have loaded := loaded_moved_frame moved.keeps
  have cursor (b : Fin 4) : (Dsp.loadDma s.dsp toD0 hold count ram inc).CT[b] = first b :=
    (loadDma_cursor ..).trans (hfirst b).symm
  obtain ⟨programRAM, dataRAM⟩ := loadDma_rams s.dsp toD0 hold count ram inc
  have ramAt_loaded (b : Fin 4) (index : Nat) :
      Dsp.ramAt (Dsp.loadDma s.dsp toD0 hold count ram inc) b index = Dsp.ramAt s.dsp b index := by
    rw [Dsp.ramAt, dataRAM, Dsp.ramAt]
  refine ⟨_, answer, ?_, ?_⟩
  · conv_lhs => rw [frame]
    rfl
  · simp only [State.setDsp_dsp, State.setDsp_mem]
    rw [loaded]
    refine ⟨rfl, rfl, rfl, rfl, rfl, rfl, rfl, rfl, rfl, rfl, m, hm, moved.count, fun b hb => ?_, fun b hb => ?_, fun hto => ?_,
      fun hfrom => ?_⟩
    · obtain ⟨ct, bank⟩ := moved.banks b hb
      exact ⟨bank.trans (by rw [dataRAM]), ct.trans (cursor b)⟩
    · exact ⟨by rw [moved.cursor b hb, cursor], (moved.program b hb).trans programRAM⟩
    · subst hto
      obtain ⟨program_kept, data_kept⟩ := moved.rams rfl
      refine ⟨moved.writeAddr, moved.readAddr, program_kept.trans programRAM, data_kept.trans dataRAM, (out rfl).others,
        fun bank hram hinc hhold hm hwf k hk hplain => ?_⟩
      rw [← cursor, ← ramAt_loaded]
      exact (out rfl).words bank hram hinc hhold hm hwf k hk hplain
    · subst hfrom
      have mem_eq : t.mem = (s.dmaLoaded false hold count ram inc).mem := by rw [(taken rfl).frame]
      refine ⟨mem_eq, moved.readAddr, moved.writeAddr, fun bank hram hm k hk hplain => ?_⟩
      rw [← cursor]
      exact (taken rfl).words bank hram hm k hk hplain

end Sys2Proof.Machine
end
